-- ==== Sys2Proof/Word.lean ====
section
/-! DEFINITION. The word types of the DUM frame codec engine: the byte and the Color (00_scope.md R8). -/

namespace Sys2Proof

/-- One 8-bit byte, unsigned (00 R4, R8). -/
abbrev Byte := BitVec 8

/-- A Color: an ordered triplet of 8-bit channels in the canonical order (R, G, B), compared by value
(00 R8, R9). -/
structure Color where
  r : Byte
  g : Byte
  b : Byte
  deriving DecidableEq, Repr

end Sys2Proof
end

