-- ==== Sys2Proof/Syntax.lean ====
section
/-! DEFINITION. The instructions of the block: the 28 rows of spec/opcode_table.json, in the three encodings of
30_encoding.md. -/

namespace Sys2Proof

/-- The spaces an encoding lives in (the table's "space"): a word is decoded in the space it stands in. -/
inductive Space where
  /-- The byte a host writes to CMD (30 R74). -/
  | command
  /-- A frame record of DSTREAM or ESTREAM (30 R62). -/
  | frameRecord
  /-- A one-byte packed value (30 R68). -/
  | packed8
  /-- A two-byte packed value, big-endian (30 R69). -/
  | packed16
  deriving DecidableEq, Repr

/-- FrameType, the closed enumeration of record tags (30 R63). -/
inductive FrameType where
  | raw
  | colorMapped
  | quantized16
  | quantized8
  | repeated
  deriving DecidableEq, Repr

/-- A packed value with `n` bits below its flag bit (30 R68, R69): a quantized colour, or a run marker with its repeat
count. -/
inductive Packed (n : Nat) where
  | lit (v : BitVec n)
  | run (c : BitVec n)
  deriving DecidableEq, Repr

/-- The instructions. A frame record carries its `payload_size`; a packed value its fields; a command has no operand
field (30 R74). -/
inductive Instr where
  /-- RAW record (30 R66). -/
  | raw (size : BitVec 32)
  /-- COLOR_MAPPED record (30 R67). -/
  | colorMapped (size : BitVec 32)
  /-- QUANTIZED_16 record (30 R69). -/
  | quantized16 (size : BitVec 32)
  /-- QUANTIZED_8 record (30 R68). -/
  | quantized8 (size : BitVec 32)
  /-- REPEATED record (30 R70). -/
  | repeated (size : BitVec 32)
  /-- LIT8 packed value (30 R68). -/
  | lit8 (r : BitVec 3) (g : BitVec 2) (b : BitVec 2)
  /-- RUN8 packed value (30 R68). -/
  | run8 (c : BitVec 7)
  /-- LIT16 packed value (30 R69). -/
  | lit16 (r : BitVec 5) (g : BitVec 5) (b : BitVec 5)
  /-- RUN16 packed value (30 R69). -/
  | run16 (c : BitVec 15)
  /-- RESET command (70 R251). -/
  | reset
  /-- READ_HEADER command (44 R171). -/
  | readHeader
  /-- READ_FRAME command (45 R183). -/
  | readFrame
  /-- SKIP_FRAME command (45 R186). -/
  | skipFrame
  /-- SEEK command (45 R187). -/
  | seek
  /-- DCLOSE command (45 R189). -/
  | dclose
  /-- DRESET command (70 R252). -/
  | dreset
  /-- WRITE_HEADER command (44 R170). -/
  | writeHeader
  /-- WRITE_FRAME command (46 R200). -/
  | writeFrame
  /-- ECLOSE command (46 R205). -/
  | eclose
  /-- ERESET command (70 R253). -/
  | ereset
  /-- QUANT7 command (41 R110). -/
  | quant7
  /-- DEQUANT7 command (41 R111). -/
  | dequant7
  /-- QUANT15 command (41 R112). -/
  | quant15
  /-- DEQUANT15 command (41 R113). -/
  | dequant15
  /-- RLE_ENC8 command (42 R130). -/
  | rleEnc8
  /-- RLE_DEC8 command (42 R131). -/
  | rleDec8
  /-- RLE_ENC16 command (42 R132). -/
  | rleEnc16
  /-- RLE_DEC16 command (42 R133). -/
  | rleDec16
  deriving DecidableEq, Repr

/-- The frame record of a type with a `payload_size` (30 R62, R63). -/
def FrameType.record : FrameType → BitVec 32 → Instr
  | .raw, size => .raw size
  | .colorMapped, size => .colorMapped size
  | .quantized16, size => .quantized16 size
  | .quantized8, size => .quantized8 size
  | .repeated, size => .repeated size

/-- The space an instruction's words stand in. -/
def Instr.space : Instr → Space
  | .raw _ | .colorMapped _ | .quantized16 _ | .quantized8 _ | .repeated _ => .frameRecord
  | .lit8 _ _ _ | .run8 _ => .packed8
  | .lit16 _ _ _ | .run16 _ => .packed16
  | .reset | .readHeader | .readFrame | .skipFrame | .seek | .dclose | .dreset => .command
  | .writeHeader | .writeFrame | .eclose | .ereset => .command
  | .quant7 | .dequant7 | .quant15 | .dequant15 => .command
  | .rleEnc8 | .rleDec8 | .rleEnc16 | .rleDec16 => .command

end Sys2Proof
end

