-- ==== Sys2Proof/Decode.lean ====
section
/-! DEFINITION. The decoder, total on any bytes and rejecting by name, and the encoder, both written from the encoding
tables of 30_encoding.md; the big-endian helpers of 20_memory.md R44 and the packed-value bit fields of 30 R68, R69. -/

namespace Sys2Proof

/-- Why bytes are no instruction of the space they stand in. -/
inductive DecodeError where
  /-- A CMD value that 30 R75 does not list (30 R76). -/
  | reservedCommand (code : Byte)
  /-- A record tag outside 1 to 5 (30 R64). -/
  | unknownTag (tag : Byte)
  /-- Fewer bytes than the encoding's prefix has. -/
  | truncated
  deriving DecidableEq, Repr

/-! ### Big-endian integers (20 R44) -/

/-- The two bytes of a u16, most significant first (40 R95). -/
def be16 (v : BitVec 16) : List Byte := [v.extractLsb' 8 8, v.extractLsb' 0 8]

/-- The four bytes of a u32, most significant first (40 R96). -/
def be32 (v : BitVec 32) : List Byte :=
  [v.extractLsb' 24 8, v.extractLsb' 16 8, v.extractLsb' 8 8, v.extractLsb' 0 8]

/-- The u16 whose bytes are `b0` (lower offset) and `b1` (40 R91). -/
def ofBe16 (b0 b1 : Byte) : BitVec 16 := b0 ++ b1

/-- The u32 whose bytes from the lowest offset are `b0`, `b1`, `b2`, `b3` (40 R92). -/
def ofBe32 (b0 b1 b2 b3 : Byte) : BitVec 32 := b0 ++ b1 ++ b2 ++ b3

/-! ### Record tags and packed values -/

/-- The tag byte of a record type (30 R63). -/
def FrameType.code : FrameType → Byte
  | .raw => 0x01#8
  | .colorMapped => 0x02#8
  | .quantized16 => 0x03#8
  | .quantized8 => 0x04#8
  | .repeated => 0x05#8

/-- The record type a whole tag byte names, if it names one (30 R63, R64). -/
def frameTypeOf (tag : Byte) : Option FrameType :=
  match tag.toNat with
  | 0x01 => some .raw
  | 0x02 => some .colorMapped
  | 0x03 => some .quantized16
  | 0x04 => some .quantized8
  | 0x05 => some .repeated
  | _ => none

/-- A PV8 byte split at its flag bit 7 (30 R68). -/
def unpack8 (p : Byte) : Packed 7 :=
  if p.getLsbD 7 then .run (p.extractLsb' 0 7) else .lit (p.extractLsb' 0 7)

/-- The PV8 byte of a packed value (30 R68). -/
def pack8 : Packed 7 → Byte
  | .lit v => 0#1 ++ v
  | .run c => 1#1 ++ c

/-- A PV16 value split at its flag bit 15 (30 R69). -/
def unpack16 (p : BitVec 16) : Packed 15 :=
  if p.getLsbD 15 then .run (p.extractLsb' 0 15) else .lit (p.extractLsb' 0 15)

/-- The PV16 value of a packed value (30 R69). -/
def pack16 : Packed 15 → BitVec 16
  | .lit v => 0#1 ++ v
  | .run c => 1#1 ++ c

/-- The 7-bit quantized value of a LIT8's fields, R3 ++ G2 ++ B2 (30 R71). -/
def join7 (r : BitVec 3) (g b : BitVec 2) : BitVec 7 := r ++ g ++ b

/-- The 15-bit quantized value of a LIT16's fields, R5 ++ G5 ++ B5 (30 R71). -/
def join15 (r g b : BitVec 5) : BitVec 15 := r ++ g ++ b

/-! ### The decoder -/

/-- The command a CMD byte names (30 R75); every other byte is reserved (30 R76). -/
def decodeCommand (code : Byte) : Except DecodeError Instr :=
  match code.toNat with
  | 0x01 => .ok .reset
  | 0x10 => .ok .readHeader
  | 0x11 => .ok .readFrame
  | 0x12 => .ok .skipFrame
  | 0x13 => .ok .seek
  | 0x14 => .ok .dclose
  | 0x1F => .ok .dreset
  | 0x20 => .ok .writeHeader
  | 0x21 => .ok .writeFrame
  | 0x22 => .ok .eclose
  | 0x2F => .ok .ereset
  | 0x30 => .ok .quant7
  | 0x31 => .ok .dequant7
  | 0x32 => .ok .quant15
  | 0x33 => .ok .dequant15
  | 0x34 => .ok .rleEnc8
  | 0x35 => .ok .rleDec8
  | 0x36 => .ok .rleEnc16
  | 0x37 => .ok .rleDec16
  | _ => .error (.reservedCommand code)

/-- The packed value a PV8 byte is, as an instruction (30 R68). -/
def decodePacked8 (p : Byte) : Instr :=
  match unpack8 p with
  | .lit v => .lit8 (v.extractLsb' 4 3) (v.extractLsb' 2 2) (v.extractLsb' 0 2)
  | .run c => .run8 c

/-- The packed value a PV16 value is, as an instruction (30 R69). -/
def decodePacked16 (p : BitVec 16) : Instr :=
  match unpack16 p with
  | .lit v => .lit16 (v.extractLsb' 10 5) (v.extractLsb' 5 5) (v.extractLsb' 0 5)
  | .run c => .run16 c

/-- The decoder: the instruction at the head of `bytes` in a space, with the bytes after it. A record's payload is data
and stays in the rest (30 R62). -/
def decode (sp : Space) (bytes : List Byte) : Except DecodeError (Instr × List Byte) :=
  match sp, bytes with
  | .command, code :: rest => (decodeCommand code).map fun i => (i, rest)
  | .frameRecord, tag :: b0 :: b1 :: b2 :: b3 :: rest =>
    match frameTypeOf tag with
    | some ft => .ok (ft.record (ofBe32 b0 b1 b2 b3), rest)
    | none => .error (.unknownTag tag)
  | .packed8, p :: rest => .ok (decodePacked8 p, rest)
  | .packed16, hi :: lo :: rest => .ok (decodePacked16 (ofBe16 hi lo), rest)
  | _, _ => .error .truncated

/-! ### The encoder -/

/-- The bytes of an instruction, lowest offset first: a command's code (30 R75), a record's 5-byte prefix (30 R62), a
packed value's one or two bytes (30 R68, R69). -/
def encode : Instr → List Byte
  | .raw size => FrameType.raw.code :: be32 size
  | .colorMapped size => FrameType.colorMapped.code :: be32 size
  | .quantized16 size => FrameType.quantized16.code :: be32 size
  | .quantized8 size => FrameType.quantized8.code :: be32 size
  | .repeated size => FrameType.repeated.code :: be32 size
  | .lit8 r g b => [pack8 (.lit (join7 r g b))]
  | .run8 c => [pack8 (.run c)]
  | .lit16 r g b => be16 (pack16 (.lit (join15 r g b)))
  | .run16 c => be16 (pack16 (.run c))
  | .reset => [0x01#8]
  | .readHeader => [0x10#8]
  | .readFrame => [0x11#8]
  | .skipFrame => [0x12#8]
  | .seek => [0x13#8]
  | .dclose => [0x14#8]
  | .dreset => [0x1F#8]
  | .writeHeader => [0x20#8]
  | .writeFrame => [0x21#8]
  | .eclose => [0x22#8]
  | .ereset => [0x2F#8]
  | .quant7 => [0x30#8]
  | .dequant7 => [0x31#8]
  | .quant15 => [0x32#8]
  | .dequant15 => [0x33#8]
  | .rleEnc8 => [0x34#8]
  | .rleDec8 => [0x35#8]
  | .rleEnc16 => [0x36#8]
  | .rleDec16 => [0x37#8]

/-! ### The table's words -/

/-- The bytes of a table word: one 16-bit word is stored big-endian (30 R69); one byte is followed by bytes of zeros,
the `payload_size` of a record (30 R62). -/
def tableBytes (nbits w : Nat) : List Byte :=
  if nbits = 16 then be16 (BitVec.ofNat 16 w) else [BitVec.ofNat 8 w, 0#8, 0#8, 0#8, 0#8]

/-- The space a table word of `nbits` bits is read in. A 16-bit word is a packed value. A byte is read as a command where
it is one, else as a record where it is a tag, else as a packed value (DESIGN CHOICE, log 3: the table's rows share
bytes between spaces). -/
def tableSpace (nbits w : Nat) : Space :=
  if nbits = 16 then .packed16
  else if (decodeCommand (BitVec.ofNat 8 w)).isOk then .command
  else if (frameTypeOf (BitVec.ofNat 8 w)).isSome then .frameRecord
  else .packed8

/-- The instruction the decoder reads from a word of spec/opcode_table.json with `nbits` bits. -/
def decodeTableWord (nbits w : Nat) : Option Instr :=
  if nbits = 8 ∨ nbits = 16 then
    match decode (tableSpace nbits w) (tableBytes nbits w) with
    | .ok (i, _) => some i
    | .error _ => none
  else none

end Sys2Proof
end

