-- ==== Sys2Proof/Config.lean ====
section
/-! DEFINITION. What one implementation of the block fixes and the spec leaves OPEN (92_eei_decisions.md section 4),
and the free values an unspecified cell reads as. No constant here has a body that a proof could use. -/

namespace Sys2Proof

/-- The four bytes of MAGIC, by position. The spec gives no value (00 section 3, 92 D3). DESIGN CHOICE, safe: left
free (log 1). -/
opaque Config.magicByte : Fin 4 → BitVec 8

/-- NPIX_MAX less one, so that NPIX_MAX ranges over exactly 1..1431655765 (00 section 3, 92 D22). DESIGN CHOICE, safe:
left free (log 1). -/
opaque Config.npixIndex : Fin 1431655765

/-- FU_MAX less three, so that FU_MAX ranges over every natural number at least 3 (00 section 3, 92 D27). DESIGN CHOICE,
safe: left free (log 1). -/
opaque Config.fuSpare : Nat

/-- The value a draw of an unspecified PIXOUT cell gives, by the number of the draw (93 U28, U30). DESIGN CHOICE, safe:
left free (log 10). -/
opaque Config.freePixel : Nat → BitVec 24

/-- The value a draw of an unspecified FU_OUT byte gives, by the number of the draw (93 U29, U30). DESIGN CHOICE, safe:
left free (log 10). -/
opaque Config.freeByte : Nat → BitVec 8

/-- The value F_OUT_LEN takes for a length that does not fit its 32 bits, by the number of the draw: the spec states none
(00 R7). DESIGN CHOICE, safe: left free (log 27). -/
opaque Config.freeLength : Nat → BitVec 32

/-- NPIX_MAX, the capacity in pixels of every frame buffer (00 section 3). -/
def Config.npixMax : Nat := Config.npixIndex.val + 1

/-- FU_MAX, the capacity in bytes of FU_IN and of FU_OUT (00 section 3). -/
def Config.fuMax : Nat := Config.fuSpare + 3

end Sys2Proof
end

