-- ==== Sys2Proof/Machine/State.lean ====
section
/-! DEFINITION. The state of the block as plain data (10_state.md), the reasons a step can stop, and the state after
reset (10 section 10, 70 R250). -/

namespace Sys2Proof.Machine

/-! ### Why a step stops -/

/-- The spaces the host reaches cell by cell (20 R40). -/
inductive HostSpace where
  | pixin
  | pixout
  | estream
  | fuIn
  | fuOut
  deriving DecidableEq, Repr

/-- The faults of a run. None of them is one of the spec's errors: those are latched in registers and the machine goes
on (60 R230, R231, R236). -/
inductive Fault where
  /-- WRITE_FRAME read PIXIN cell `i`, which the host never wrote; 70 R265 asks for a fault of the run. Safe. -/
  | unwrittenPixin (i : Nat)
  /-- An RLE command read FU_IN byte `a`, which the host never wrote; 70 R265 asks for a fault of the run. Safe. -/
  | unwrittenFuIn (a : Nat)
  /-- A DEC command or a frame record read DSTREAM byte `a` below DLEN that the host never supplied. No host move makes
  such a stream (log 9). Safe. -/
  | unwrittenStream (a : Nat)
  /-- A host access to a cell that the space does not have (20 R40, log 16). Safe. -/
  | noSuchCell (space : HostSpace) (a : Nat)
  deriving DecidableEq, Repr

/-- The situations the spec refuses: it gives them no meaning (60 R237). -/
inductive Refusal where
  /-- An arm of exec whose instruction has no meaning yet. Safe. -/
  | notModelled (mnemonic : String)
  /-- A write to CMD of a code that 30 R75 does not list (30 R76). Safe. -/
  | reservedCommand (code : Byte)
  /-- A frame command with `pixels` = width x height above NPIX_MAX (00 R3, 60 R237). Safe. -/
  | frameTooLarge (pixels : Nat)
  /-- An RLE command whose input or output of `bytes` bytes exceeds FU_MAX (42 R130 to R133, 60 R237). Safe. -/
  | bufferTooLarge (bytes : Nat)
  /-- A host read of a register number that is not in the register map (10 R10, 93 U33). Safe. -/
  | unmappedRegister (number : Nat)
  /-- A host change of DSTREAM outside state Created, for which the spec defines nothing (70 R263). Safe. -/
  | streamInUse
  /-- A host stream of 2^63 bytes or more, which DLEN does not admit (20 R41). Safe. -/
  | streamTooLong
  deriving DecidableEq, Repr

/-! ### Memory -/

/-- A space of cells: (address, value) pairs at strictly rising addresses. An address that is not listed holds no value:
nothing has written it (`Memory.read` answers none). A byte space is a list of Host.Cell. -/
abbrev Memory (α : Type) := List (Nat × α)

/-- The canonical form: the listed addresses rise strictly. (An entry always holds a value and an unlisted address none,
so no entry repeats what an unlisted address reads as.) -/
def Memory.wf {α : Type} : Memory α → Bool
  | [] => true
  | [_] => true
  | x :: y :: rest => decide (x.1 < y.1) && Memory.wf (y :: rest)

/-! ### The units -/

/-- MAGIC, "fixed 4-byte marker", byte 0 at the lowest stream offset (00 section 3). -/
structure Magic where
  b0 : Byte
  b1 : Byte
  b2 : Byte
  b3 : Byte
  deriving DecidableEq, Repr

/-- The open parameters of a run, which no step changes (10 R38, 92 section 4). -/
structure Params where
  magic : Magic
  npixMax : Nat
  fuMax : Nat
  deriving DecidableEq, Repr

/-- The six header fields: D_FRAME_RATE to D_FRAME_COUNT of DEC (10 R15), E_FRAME_RATE to E_FRAME_COUNT of ENC
(10 R25). -/
structure Header where
  frameRate : BitVec 8
  width : BitVec 16
  height : BitVec 16
  hscale : BitVec 8
  vscale : BitVec 8
  frameCount : BitVec 32
  deriving DecidableEq, Repr

/-- The state of DEC (10 section 3, R31, R32). -/
structure Decoder where
  /-- D_STATE: 0 Created, 1 HeaderRead, 2 Closed, 3 Faulted (R12). -/
  state : BitVec 2
  /-- D_ERR (R13). -/
  err : BitVec 8
  /-- D_ERR_OFFSET (R13). -/
  errOffset : BitVec 64
  /-- D_FLAGS bit 0, SHORT (R14). -/
  short : Bool
  /-- D_FLAGS bit 1, LAST_VALID (R14). -/
  lastValid : Bool
  /-- The parsed header fields (R15). -/
  header : Header
  /-- D_HEADER_SIZE (R16). -/
  headerSize : BitVec 64
  /-- D_FILE_SIZE (R16). -/
  fileSize : BitVec 64
  /-- D_CURSOR (R17). -/
  cursor : BitVec 64
  /-- D_FRAME_IDX (R18). -/
  frameIdx : BitVec 64
  /-- D_OUT_COUNT (R19). -/
  outCount : BitVec 32
  /-- D_PROGRESS (R20). -/
  progress : BitVec 32
  /-- PIXOUT (R31): an unlisted cell is unspecified. -/
  pixout : Memory Color
  /-- LAST_FRAME[0 .. LAST_COUNT-1] (R32): LAST_COUNT is the length (log 13). -/
  lastFrame : List Color
  deriving DecidableEq, Repr

/-- The state of ENC (10 section 4, R33, 20 R43). -/
structure Encoder where
  /-- E_STATE: 0 Created, 1 HeaderWritten, 2 Closed (R21). -/
  state : BitVec 2
  /-- E_ERR (R22). -/
  err : BitVec 8
  /-- E_FLAGS bit 0, PREV_VALID (R23). -/
  prevValid : Bool
  /-- E_QUALITY (R24). -/
  quality : BitVec 2
  /-- The header operands (R25). -/
  header : Header
  /-- E_CURSOR (R26). -/
  cursor : BitVec 64
  /-- E_FRAME_IDX (R26). -/
  frameIdx : BitVec 64
  /-- ESTREAM (20 R43). -/
  estream : Memory Byte
  /-- PREV_FRAME[0 .. PREV_COUNT-1] (R33): PREV_COUNT is the length (log 13). -/
  prevFrame : List Color
  deriving DecidableEq, Repr

/-- The state of FU (10 section 5, R37). -/
structure FuncUnit where
  /-- F_ERR (R27). -/
  err : BitVec 8
  /-- F_COLOR (R28). -/
  color : BitVec 24
  /-- F_VALUE (R28). -/
  value : BitVec 15
  /-- F_IN_LEN (R29). -/
  inLen : BitVec 32
  /-- F_OUT_LEN (R29). -/
  outLen : BitVec 32
  /-- FU_OUT (R37): an unlisted byte is unspecified. -/
  fuOut : Memory Byte
  deriving DecidableEq, Repr

/-! ### Command-local registers (10 section 8) -/

/-- The unit whose payload a packed value belongs to: it takes a MalformedRun error (60 R220). -/
inductive RunUser where
  | dec
  | fu
  deriving DecidableEq, Repr

/-- The run-length decoder registers `cur_valid` and `cur` (10 R36), with what a payload decode carries beside them: the
unit it runs for, the offset of the packed value next to be decoded (42 R125) and the pixels emitted so far (log 6). -/
structure RunDec where
  user : RunUser
  offset : Nat
  curValid : Bool
  cur : Color
  out : List Color
  deriving DecidableEq, Repr

/-- The run-length encoder registers `have_lit`, `lit` and `run` (10 R35), for quantized values of `n` bits. -/
structure RunEnc (n : Nat) where
  haveLit : Bool
  lit : BitVec n
  run : Nat
  deriving DecidableEq, Repr

/-- The command-local state: the palette PAL[0 .. psz-1], psz its length (10 R34), and the run-length registers. -/
structure Work where
  pal : List Color
  runEnc : RunEnc 15
  runDec : RunDec
  deriving DecidableEq, Repr

/-! ### The host -/

/-- One move of the host between commands (70 R271). -/
inductive HostMove where
  /-- Write a value to the register of a number (10 R10); number 0 is CMD, and its write starts a command (10 R11). -/
  | writeReg (number : Nat) (value : BitVec 64)
  /-- Read the register of a number (10 R10). -/
  | readReg (number : Nat)
  /-- Write a cell of PIXIN (10 R30). -/
  | writePixin (i : Nat) (c : Color)
  /-- Read a cell of PIXOUT (10 R31). -/
  | readPixout (i : Nat)
  /-- Write a byte of FU_IN (10 R37). -/
  | writeFuIn (a : Nat) (b : Byte)
  /-- Read a byte of FU_OUT (10 R37). -/
  | readFuOut (a : Nat)
  /-- Read a byte of ESTREAM (20 R40). -/
  | readEstream (a : Nat)
  /-- Make DSTREAM and DLEN a byte string (70 R263). -/
  | attach (bytes : List Byte)
  deriving DecidableEq, Repr

/-! ### The state -/

/-- The machine: the parameters of the run, the host's inputs, the three units, the command-local registers, and the
model's own fields. -/
structure State where
  /-- MAGIC, NPIX_MAX, FU_MAX (10 R38). -/
  params : Params
  /-- DSTREAM (20 R41), an input. -/
  dstream : Memory Byte
  /-- DLEN (20 R41), an input. -/
  dlen : Nat
  /-- PIXIN (10 R30), written by the host. -/
  pixin : Memory Color
  /-- FU_IN (10 R37), written by the host. -/
  fuIn : Memory Byte
  dec : Decoder
  enc : Encoder
  fu : FuncUnit
  /-- Command-local registers (10 section 8). -/
  work : Work
  /-- The model's own: the host's moves still to be made (log 2). -/
  pending : List HostMove
  /-- The model's own: the value the host's most recent read returned (log 17). -/
  hostData : BitVec 64
  /-- The model's own: how many unspecified values have been drawn (log 10). -/
  draws : Nat
  deriving DecidableEq, Repr

/-- What a step answers. -/
abbrev Result := Host.Outcome State Fault Refusal

/-! ### Reset (10 section 10) -/

/-- The header registers at reset: 0 each. -/
def Header.reset : Header :=
  { frameRate := 0#8, width := 0#16, height := 0#16, hscale := 0#8, vscale := 0#8, frameCount := 0#32 }

/-- Every DEC row of the reset table; LAST_FRAME and PIXOUT contents unspecified. -/
def Decoder.reset : Decoder :=
  { state := 0#2, err := 0#8, errOffset := 0#64, short := false, lastValid := false, header := Header.reset,
    headerSize := 0#64, fileSize := 0#64, cursor := 0#64, frameIdx := 0#64, outCount := 0#32, progress := 0#32,
    pixout := [], lastFrame := [] }

/-- Every ENC row of the reset table; ESTREAM empty, PREV_FRAME contents unspecified. -/
def Encoder.reset : Encoder :=
  { state := 0#2, err := 0#8, prevValid := false, quality := 0#2, header := Header.reset, cursor := 0#64,
    frameIdx := 0#64, estream := [], prevFrame := [] }

/-- Every FU row of the reset table; FU_OUT contents unspecified. -/
def FuncUnit.reset : FuncUnit :=
  { err := 0#8, color := 0#24, value := 0#15, inLen := 0#32, outLen := 0#32, fuOut := [] }

/-- The run-length decoder registers at the start of a payload at `offset`: no current colour, nothing emitted
(10 R36, 42 R125). -/
def RunDec.start (user : RunUser) (offset : Nat) : RunDec :=
  { user := user, offset := offset, curValid := false, cur := ⟨0#8, 0#8, 0#8⟩, out := [] }

/-- The run-length encoder registers at the start of a payload (10 R35). -/
def RunEnc.start (n : Nat) : RunEnc n :=
  { haveLit := false, lit := 0#n, run := 0 }

/-- The command-local registers as a command that uses them starts them (10 R34 to R36). -/
def Work.reset : Work :=
  { pal := [], runEnc := RunEnc.start 15, runDec := RunDec.start .fu 0 }

/-- The open parameters of this run (log 1). -/
def Params.config : Params :=
  { magic := ⟨Config.magicByte 0, Config.magicByte 1, Config.magicByte 2, Config.magicByte 3⟩,
    npixMax := Config.npixMax, fuMax := Config.fuMax }

/-- The machine right after power-on (70 R250): the reset table of 10 section 10, no stream attached and no host move
made (log 2, log 28). -/
def State.reset : State :=
  { params := Params.config, dstream := [], dlen := 0, pixin := [], fuIn := [], dec := Decoder.reset,
    enc := Encoder.reset, fu := FuncUnit.reset, work := Work.reset, pending := [], hostData := 0#64, draws := 0 }

end Sys2Proof.Machine
end

