-- ==== Sys2Proof/Machine/Flags.lean ====
section
/-! DEFINITION. The one-bit flags and the flag words the host reads (10 section 7, R14, R23). The block has no condition
codes. -/

namespace Sys2Proof.Machine

/-- One flag bit. -/
def flagBit (b : Bool) : BitVec 1 := if b then 1#1 else 0#1

/-- D_FLAGS: bit 0 SHORT, bit 1 LAST_VALID (10 R14). -/
def dFlags (d : Decoder) : BitVec 2 := flagBit d.lastValid ++ flagBit d.short

/-- E_FLAGS: bit 0 PREV_VALID (10 R23). -/
def eFlags (e : Encoder) : BitVec 1 := flagBit e.prevValid

/-- SHORT of a RAW read that found `k` payload bytes and wanted `want` (43 R143, 60 R222). -/
def shortFlag (k want : Nat) : Bool := decide (k < want)

/-- The flags of a READ_FRAME that completes: SHORT as the read rule gave it, LAST_VALID set (45 R184). -/
def completeFlags (short : Bool) (d : Decoder) : Decoder := { d with short := short, lastValid := true }

/-- The flag of a WRITE_FRAME that completes: PREV_VALID set (10 R23, 46 R200). -/
def writtenFlags (e : Encoder) : Encoder := { e with prevValid := true }

end Sys2Proof.Machine
end

