-- ==== Sys2Proof/Machine/Ops.lean ====
section
/-! DEFINITION. The named operations over the spaces (20_memory.md), the stream loads and stores
(40_byte_primitives.md), and the taking of an error (60_exceptions.md). -/

namespace Sys2Proof.Machine

/-! ### Cells -/

/-- The value at an address, none where nothing has written it. -/
def Memory.read {α : Type} : Memory α → Nat → Option α
  | [], _ => none
  | (k, v) :: rest, a => if k = a then some v else Memory.read rest a

/-- Write one cell, keeping the addresses rising. -/
def Memory.write {α : Type} : Memory α → Nat → α → Memory α
  | [], a, v => [(a, v)]
  | (k, w) :: rest, a, v =>
    if a < k then (a, v) :: (k, w) :: rest
    else if a = k then (a, v) :: rest
    else (k, w) :: Memory.write rest a v

/-- Write a string of cells from an address on. -/
def Memory.writeList {α : Type} : Memory α → Nat → List α → Memory α
  | m, _, [] => m
  | m, a, v :: vs => Memory.writeList (Memory.write m a v) (a + 1) vs

/-- The memory that holds just a string of cells from an address on. -/
def Memory.ofList {α : Type} : Nat → List α → Memory α
  | _, [] => []
  | a, v :: vs => (a, v) :: Memory.ofList (a + 1) vs

/-- The `n` cells from an address on, or the first of them that nothing has written. -/
def Memory.readList {α : Type} (m : Memory α) : Nat → Nat → Except Nat (List α)
  | _, 0 => .ok []
  | a, n + 1 =>
    match Memory.read m a with
    | none => .error a
    | some v => (Memory.readList m (a + 1) n).map fun vs => v :: vs

/-! ### Errors -/

/-- The error kinds of 60 R220. -/
inductive ErrKind where
  | truncatedRead
  | invalidMagic
  | protocolViolation
  | unknownFrameType
  | malformedRun
  | noPreviousFrame
  | unsupportedQuality
  | payloadMismatch
  | badPaletteIndex
  deriving DecidableEq, Repr

/-- The code an ERR register holds (60 R220); 0 is no error. -/
def ErrKind.code : ErrKind → BitVec 8
  | .truncatedRead => 1#8
  | .invalidMagic => 2#8
  | .protocolViolation => 3#8
  | .unknownFrameType => 4#8
  | .malformedRun => 5#8
  | .noPreviousFrame => 6#8
  | .unsupportedQuality => 7#8
  | .payloadMismatch => 9#8
  | .badPaletteIndex => 10#8

/-- Why a command's computation ends before its last line: it raises an error with a recorded offset (00 R7), it reads a
cell nothing has written, or the spec refuses the situation. -/
inductive Stop where
  | raise (kind : ErrKind) (offset : Nat)
  | fault (f : Fault)
  | refuse (r : Refusal)
  deriving DecidableEq, Repr

/-- A computation inside one command. -/
abbrev Run (α : Type) := Except Stop α

/-! ### Taking an error -/

/-- A DEC stream error (60 R231): code and offset are latched, DEC is Faulted, D_OUT_COUNT is 0, PIXOUT is unspecified,
and every other piece of state keeps its value from before the command. -/
def streamError (kind : ErrKind) (offset : Nat) (s : State) : State :=
  { s with dec := { s.dec with
      err := kind.code, errOffset := BitVec.ofNat 64 offset, state := 3#2, outCount := 0#32, pixout := [] } }

/-- A DEC precheck error (60 R230): nothing but D_ERR changes. -/
def precheckDec (kind : ErrKind) (s : State) : State :=
  { s with dec := { s.dec with err := kind.code } }

/-- An ENC precheck error (60 R230): nothing but E_ERR changes. -/
def precheckEnc (kind : ErrKind) (s : State) : State :=
  { s with enc := { s.enc with err := kind.code } }

/-- An FU error (60 R236): F_ERR is latched, F_OUT_LEN is 0, FU_OUT is unspecified. -/
def fuError (kind : ErrKind) (s : State) : State :=
  { s with fu := { s.fu with err := kind.code, outLen := 0#32, fuOut := [] } }

/-- What a DEC command or record answers when its computation stops. -/
def stopDec (s : State) : Stop → Result
  | .raise kind offset => .next (streamError kind offset s)
  | .fault f => .fault f
  | .refuse r => .refused r

/-- What an FU command answers when its computation stops. -/
def stopFu (s : State) : Stop → Result
  | .raise kind _ => .next (fuError kind s)
  | .fault f => .fault f
  | .refuse r => .refused r

/-- What an ENC command answers when its computation stops: ENC raises nothing past its prechecks (60 R223), so a raise
here is a precheck error. -/
def stopEnc (s : State) : Stop → Result
  | .raise kind _ => .next (precheckEnc kind s)
  | .fault f => .fault f
  | .refuse r => .refused r

/-- The return from an error: there is none but a reset of DEC (60 R233, 70 R252), which gives every DEC row of the reset
table its reset value. -/
def resetDecoder (s : State) : State :=
  { s with dec := Decoder.reset }

/-- Every ENC row of the reset table to its reset value; PIXIN is the host's and keeps its contents (70 R253). -/
def resetEncoder (s : State) : State :=
  { s with enc := Encoder.reset }

/-- The five FU registers to their reset values, FU_OUT unspecified (70 R251). -/
def resetFuncUnit (s : State) : State :=
  { s with fu := FuncUnit.reset }

/-! ### DSTREAM: MemRead and the loads (20 R42, 40 R90 to R93) -/

/-- One byte of DSTREAM below DLEN. -/
def byteAt (s : State) (a : Nat) : Run Byte :=
  match Memory.read s.dstream a with
  | some b => .ok b
  | none => .error (.fault (.unwrittenStream a))

/-- `MemRead(a, n)` where it is defined, `a + n <= DLEN` (20 R42). -/
def memRead (s : State) (a n : Nat) : Run (List Byte) :=
  (Memory.readList s.dstream a n).mapError fun hole => .fault (.unwrittenStream hole)

/-- `get_u8(a)` (40 R90). -/
def getU8 (s : State) (a : Nat) : Run Byte :=
  if s.dlen < a + 1 then .error (.raise .truncatedRead a) else byteAt s a

/-- `get_u16(a)`, big-endian at any alignment (40 R91). -/
def getU16 (s : State) (a : Nat) : Run (BitVec 16) :=
  if s.dlen < a + 2 then .error (.raise .truncatedRead a)
  else do
    let b0 ← byteAt s a
    let b1 ← byteAt s (a + 1)
    return ofBe16 b0 b1

/-- `get_u32(a)`, big-endian at any alignment (40 R92). -/
def getU32 (s : State) (a : Nat) : Run (BitVec 32) :=
  if s.dlen < a + 4 then .error (.raise .truncatedRead a)
  else do
    let b0 ← byteAt s a
    let b1 ← byteAt s (a + 1)
    let b2 ← byteAt s (a + 2)
    let b3 ← byteAt s (a + 3)
    return ofBe32 b0 b1 b2 b3

/-- `get_bytes(a, n)` (40 R93): with `n = 0` it never fails, even past DLEN. -/
def getBytes (s : State) (a n : Nat) : Run (List Byte) :=
  if n = 0 then .ok []
  else if s.dlen < a + n then .error (.raise .truncatedRead a)
  else memRead s a n

/-- `get_color(a)`: `get_bytes(a, 3)` read as (R, G, B) (40 R93). -/
def getColor (s : State) (a : Nat) : Run Color :=
  if s.dlen < a + 3 then .error (.raise .truncatedRead a)
  else do
    let r ← byteAt s a
    let g ← byteAt s (a + 1)
    let b ← byteAt s (a + 2)
    return ⟨r, g, b⟩

/-! ### ESTREAM: MemWrite and the stores (20 R43, 40 R94 to R97) -/

/-- `put_bytes(s)`: store a byte string at E_CURSOR and move E_CURSOR past it (40 R97). -/
def putBytes (bytes : List Byte) (e : Encoder) : Encoder :=
  { e with
    estream := Memory.writeList e.estream e.cursor.toNat bytes
    cursor := BitVec.ofNat 64 (e.cursor.toNat + bytes.length) }

/-- `put_u8(v)` (40 R94). -/
def putU8 (v : BitVec 8) (e : Encoder) : Encoder := putBytes [v] e

/-- `put_u16(v)` (40 R95). -/
def putU16 (v : BitVec 16) (e : Encoder) : Encoder := putBytes (be16 v) e

/-- `put_u32(v)` (40 R96). -/
def putU32 (v : BitVec 32) (e : Encoder) : Encoder := putBytes (be32 v) e

/-- The bytes of a Color in a stream, R, G, B (20 R44, 40 R97). -/
def colorBytes (c : Color) : List Byte := [c.r, c.g, c.b]

/-- The bytes of a sequence of Colors. -/
def pixelBytes : List Color → List Byte
  | [] => []
  | c :: cs => colorBytes c ++ pixelBytes cs

/-- The whole Colors a byte string holds; one or two trailing bytes make no pixel (43 R143). -/
def pixelsOf : List Byte → List Color
  | r :: g :: b :: rest => ⟨r, g, b⟩ :: pixelsOf rest
  | _ => []

end Sys2Proof.Machine
end

