-- ==== Sys2Proof/Machine/Operands.lean ====
section
/-! DEFINITION. The operand forms: the register map of 10 R10, the pixel count, F_COLOR as a Color, and the operand
spaces PIXIN and FU_IN. -/

namespace Sys2Proof.Machine

/-- `N = width × height` of a header (10 R15, R25). -/
def Header.pixels (h : Header) : Nat := h.width.toNat * h.height.toNat

/-- A 24-bit colour word as a Color: bits 23:16 R, 15:8 G, 7:0 B (10 R28). -/
def colorOfWord (w : BitVec 24) : Color :=
  ⟨w.extractLsb' 16 8, w.extractLsb' 8 8, w.extractLsb' 0 8⟩

/-- A Color as a 24-bit word, r ++ g ++ b (10 R28). -/
def wordOfColor (c : Color) : BitVec 24 := c.r ++ c.g ++ c.b

/-- `[ PIXIN[i] for i = 0 .. n-1 ]` (46 R200); a cell the host never wrote is a fault of the run (70 R265). -/
def readPixin (s : State) (n : Nat) : Run (List Color) :=
  (Memory.readList s.pixin 0 n).mapError fun i => .fault (.unwrittenPixin i)

/-- FU_IN bytes `0 .. n-1` (42 R130 to R133); a byte the host never wrote is a fault of the run (70 R265). -/
def readFuIn (s : State) (n : Nat) : Run (List Byte) :=
  (Memory.readList s.fuIn 0 n).mapError fun a => .fault (.unwrittenFuIn a)

/-- A register read: the whole register, zero-extended to 64 bits; none for a number not in the map (10 R10). CMD reads
as 0 (10 R11). -/
def readRegister (s : State) (number : Nat) : Option (BitVec 64) :=
  match number with
  | 0x00 => some 0#64
  | 0x10 => some (s.dec.state.setWidth 64)
  | 0x11 => some (s.dec.err.setWidth 64)
  | 0x12 => some s.dec.errOffset
  | 0x13 => some ((dFlags s.dec).setWidth 64)
  | 0x14 => some (s.dec.header.frameRate.setWidth 64)
  | 0x15 => some (s.dec.header.width.setWidth 64)
  | 0x16 => some (s.dec.header.height.setWidth 64)
  | 0x17 => some (s.dec.header.hscale.setWidth 64)
  | 0x18 => some (s.dec.header.vscale.setWidth 64)
  | 0x19 => some (s.dec.header.frameCount.setWidth 64)
  | 0x1A => some s.dec.headerSize
  | 0x1B => some s.dec.fileSize
  | 0x1C => some s.dec.cursor
  | 0x1D => some s.dec.frameIdx
  | 0x1E => some (s.dec.outCount.setWidth 64)
  | 0x1F => some (s.dec.progress.setWidth 64)
  | 0x20 => some (s.enc.state.setWidth 64)
  | 0x21 => some (s.enc.err.setWidth 64)
  | 0x22 => some ((eFlags s.enc).setWidth 64)
  | 0x23 => some (s.enc.quality.setWidth 64)
  | 0x24 => some (s.enc.header.frameRate.setWidth 64)
  | 0x25 => some (s.enc.header.width.setWidth 64)
  | 0x26 => some (s.enc.header.height.setWidth 64)
  | 0x27 => some (s.enc.header.hscale.setWidth 64)
  | 0x28 => some (s.enc.header.vscale.setWidth 64)
  | 0x29 => some (s.enc.header.frameCount.setWidth 64)
  | 0x2A => some s.enc.cursor
  | 0x2B => some s.enc.frameIdx
  | 0x30 => some (s.fu.err.setWidth 64)
  | 0x31 => some (s.fu.color.setWidth 64)
  | 0x32 => some (s.fu.value.setWidth 64)
  | 0x33 => some (s.fu.inLen.setWidth 64)
  | 0x34 => some (s.fu.outLen.setWidth 64)
  | _ => none

/-- The header operands of ENC after a host write of `h`: locked unless E_STATE = Created (10 R25). -/
def writeEncHeader (s : State) (h : Header) : State :=
  if s.enc.state = 0#2 then { s with enc := { s.enc with header := h } } else s

/-- A register write: a RW register stores the low bits of the value; a write to a read-only or unmapped number has no
effect (10 R10). Number 0x00, CMD, is no storage and is not written here (10 R11). -/
def writeRegister (s : State) (number : Nat) (v : BitVec 64) : State :=
  match number with
  | 0x1F => { s with dec := { s.dec with progress := v.setWidth 32 } }
  | 0x23 => { s with enc := { s.enc with quality := v.setWidth 2 } }
  | 0x24 => writeEncHeader s { s.enc.header with frameRate := v.setWidth 8 }
  | 0x25 => writeEncHeader s { s.enc.header with width := v.setWidth 16 }
  | 0x26 => writeEncHeader s { s.enc.header with height := v.setWidth 16 }
  | 0x27 => writeEncHeader s { s.enc.header with hscale := v.setWidth 8 }
  | 0x28 => writeEncHeader s { s.enc.header with vscale := v.setWidth 8 }
  | 0x29 => writeEncHeader s { s.enc.header with frameCount := v.setWidth 32 }
  | 0x31 => { s with fu := { s.fu with color := v.setWidth 24 } }
  | 0x32 => { s with fu := { s.fu with value := v.setWidth 15 } }
  | 0x33 => { s with fu := { s.fu with inLen := v.setWidth 32 } }
  | _ => s

end Sys2Proof.Machine
end

