-- ==== Sys2Proof/Machine/Quantizer.lean ====
section
/-! DEFINITION. The colour quantizer and its four FU commands (41_quantizer.md). -/

namespace Sys2Proof.Machine

/-- BIAS7 (00 section 3, 41 R106). -/
def bias7 : BitVec 8 := 16#8

/-- BIAS15 (00 section 3, 41 R106). -/
def bias15 : BitVec 8 := 4#8

/-- `quantize7(c)` = R[7:5] ++ G[7:6] ++ B[7:6] (41 R100). -/
def quantize7 (c : Color) : BitVec 7 :=
  join7 (c.r.extractLsb' 5 3) (c.g.extractLsb' 6 2) (c.b.extractLsb' 6 2)

/-- `dequantize7(v)`: each field shifted back to the top of its byte, plus BIAS7 (41 R101). -/
def dequantize7 (v : BitVec 7) : Color :=
  { r := ((v.extractLsb' 4 3).setWidth 8 <<< 5) + bias7
    g := ((v.extractLsb' 2 2).setWidth 8 <<< 6) + bias7
    b := ((v.extractLsb' 0 2).setWidth 8 <<< 6) + bias7 }

/-- `quantize15(c)` = R[7:3] ++ G[7:3] ++ B[7:3] (41 R102). -/
def quantize15 (c : Color) : BitVec 15 :=
  join15 (c.r.extractLsb' 3 5) (c.g.extractLsb' 3 5) (c.b.extractLsb' 3 5)

/-- `dequantize15(v)`: each field shifted back to the top of its byte, plus BIAS15 (41 R103). -/
def dequantize15 (v : BitVec 15) : Color :=
  { r := ((v.extractLsb' 10 5).setWidth 8 <<< 3) + bias15
    g := ((v.extractLsb' 5 5).setWidth 8 <<< 3) + bias15
    b := ((v.extractLsb' 0 5).setWidth 8 <<< 3) + bias15 }

/-- Completion of an FU quantizer command that writes F_VALUE. -/
def setValue (v : BitVec 15) (s : State) : State :=
  { s with fu := { s.fu with value := v, err := 0#8 } }

/-- Completion of an FU quantizer command that writes F_COLOR. -/
def setColor (c : Color) (s : State) : State :=
  { s with fu := { s.fu with color := wordOfColor c, err := 0#8 } }

/-- QUANT7 (41 R110): bits 14:7 of F_VALUE are written 0. -/
def execQuant7 (s : State) : Result :=
  .next (setValue ((quantize7 (colorOfWord s.fu.color)).setWidth 15) s)

/-- DEQUANT7 (41 R111): bits 14:7 of F_VALUE are ignored. -/
def execDequant7 (s : State) : Result :=
  .next (setColor (dequantize7 (s.fu.value.extractLsb' 0 7)) s)

/-- QUANT15 (41 R112). -/
def execQuant15 (s : State) : Result :=
  .next (setValue (quantize15 (colorOfWord s.fu.color)) s)

/-- DEQUANT15 (41 R113). -/
def execDequant15 (s : State) : Result :=
  .next (setColor (dequantize15 s.fu.value) s)

end Sys2Proof.Machine
end

