-- ==== Sys2Proof/Machine/RunLength.lean ====
section
/-! DEFINITION. The run-length coder, generic in the width of a quantized value, and the packed values as instructions
(42_run_length.md R120 to R128). -/

namespace Sys2Proof.Machine

/-- `max_run` of the 8-bit width (42 R120). -/
def maxRun8 : Nat := 127

/-- `max_run` of the 16-bit width (42 R120). -/
def maxRun16 : Nat := 32767

/-! ### The encoder (42 R121) -/

/-- The pending run marker, if a run is pending: "flush". -/
def rleFlush {n : Nat} (e : RunEnc n) : List (Packed n) :=
  if 0 < e.run then [.run (BitVec.ofNat n e.run)] else []

/-- One value of the scan: absorbed into the pending run, or a flush and a new literal. -/
def rleEncodeStep {n : Nat} (maxRun : Nat) (e : RunEnc n) (v : BitVec n) : List (Packed n) × RunEnc n :=
  if e.haveLit = true ∧ v = e.lit ∧ e.run < maxRun then ([], { e with run := e.run + 1 })
  else (rleFlush e ++ [.lit v], { haveLit := true, lit := v, run := 0 })

/-- The scan of a sequence of values from encoder registers `e`, with the final flush; and the registers it leaves. -/
def rleEncodeFrom {n : Nat} (maxRun : Nat) : RunEnc n → List (BitVec n) → List (Packed n) × RunEnc n
  | e, [] => (rleFlush e, e)
  | e, v :: vs =>
    let (now, e') := rleEncodeStep maxRun e v
    let (later, last) := rleEncodeFrom maxRun e' vs
    (now ++ later, last)

/-- `rle_encode(vals, max_run, fp)` with `fp = n`. -/
def rleEncode {n : Nat} (maxRun : Nat) (vals : List (BitVec n)) : List (Packed n) :=
  (rleEncodeFrom maxRun (RunEnc.start n) vals).1

/-- The encoder registers as the 15-bit registers that hold both widths (10 R35). -/
def RunEnc.widen {n : Nat} (e : RunEnc n) : RunEnc 15 :=
  { haveLit := e.haveLit, lit := e.lit.setWidth 15, run := e.run }

/-! ### The decoder (42 R124, R125) -/

/-- `rle_decode_step` on one packed value of `width` bytes: the registers after it, or the offset of a run marker that no
literal precedes (MalformedRun). Count 0 emits nothing (42 R126). -/
def rleDecodeStep {n : Nat} (deq : BitVec n → Color) (width : Nat) (p : Packed n) (d : RunDec) : Except Nat RunDec :=
  match p with
  | .lit v =>
    .ok { d with curValid := true, cur := deq v, out := d.out ++ [deq v], offset := d.offset + width }
  | .run c =>
    if d.curValid then
      .ok { d with out := d.out ++ List.replicate c.toNat d.cur, offset := d.offset + width }
    else .error d.offset

/-- `rle_decode(pvals, fp)` from decoder registers `d`. -/
def rleDecode {n : Nat} (deq : BitVec n → Color) (width : Nat) : List (Packed n) → RunDec → Except Nat RunDec
  | [], d => .ok d
  | p :: ps, d =>
    match rleDecodeStep deq width p d with
    | .ok d' => rleDecode deq width ps d'
    | .error a => .error a

/-! ### Packed values as instructions -/

/-- The MalformedRun error of a packed value, taken by the unit whose payload is being decoded (60 R220): a DEC stream
error with the marker's offset (60 R221), or an FU error (60 R236). That D_STATE is not looked at first is a DESIGN CHOICE
(log 29): a payload is decoded only after READ_FRAME's own state check. -/
def malformedRun (offset : Nat) (s : State) : State :=
  match s.work.runDec.user with
  | .dec => streamError .malformedRun offset s
  | .fu => fuError .malformedRun s

/-- One packed value on the run-length decoder registers (42 R124), with no state check of its own (DESIGN CHOICE,
log 29). -/
def runPacked {n : Nat} (deq : BitVec n → Color) (width : Nat) (p : Packed n) (s : State) : Result :=
  match rleDecodeStep deq width p s.work.runDec with
  | .ok d => .next { s with work := { s.work with runDec := d } }
  | .error offset => .next (malformedRun offset s)

/-- LIT8 (42 R124, 30 R68). -/
def execLit8 (r : BitVec 3) (g b : BitVec 2) (s : State) : Result :=
  runPacked dequantize7 1 (.lit (join7 r g b)) s

/-- RUN8 (42 R124, 30 R68). -/
def execRun8 (c : BitVec 7) (s : State) : Result :=
  runPacked dequantize7 1 (.run c) s

/-- LIT16 (42 R124, 30 R69). -/
def execLit16 (r g b : BitVec 5) (s : State) : Result :=
  runPacked dequantize15 2 (.lit (join15 r g b)) s

/-- RUN16 (42 R124, 30 R69). -/
def execRun16 (c : BitVec 15) (s : State) : Result :=
  runPacked dequantize15 2 (.run c) s

end Sys2Proof.Machine
end

