-- ==== Sys2Proof/Machine/FunctionUnit.lean ====
section
/-! DEFINITION. The four RLE commands of FU (42_run_length.md R130 to R133). -/

namespace Sys2Proof.Machine

/-- The bytes of a sequence of PV8 values. -/
def bytesOf8 (ps : List (Packed 7)) : List Byte := ps.map pack8

/-- The bytes of a sequence of PV16 values, each big-endian. -/
def bytesOf16 : List (Packed 15) → List Byte
  | [] => []
  | p :: ps => be16 (pack16 p) ++ bytesOf16 ps

/-- The PV16 values of a byte string of even length (42 R133). -/
def packed16sOf : List Byte → List (Packed 15)
  | hi :: lo :: rest => unpack16 (ofBe16 hi lo) :: packed16sOf rest
  | _ => []

/-- The value F_OUT_LEN takes for a length: the length where it fits the 32 bits of the register; the spec states no
value where it does not (00 R7), and the value is free (log 27). -/
def outLength (len draws : Nat) : BitVec 32 :=
  if len < 2 ^ 32 then BitVec.ofNat 32 len else Config.freeLength draws

/-- The number of draws after F_OUT_LEN has taken its value. -/
def drawsAfter (len draws : Nat) : Nat := if len < 2 ^ 32 then draws else draws + 1

/-- Completion of an RLE command: FU_OUT holds just the bytes written (the rest is unspecified), F_OUT_LEN is `len`,
F_ERR is 0. -/
def storeFuOut (bytes : List Byte) (len : Nat) (work : Work) (s : State) : State :=
  { s with
    fu := { s.fu with fuOut := Memory.ofList 0 bytes, outLen := outLength len s.draws, err := 0#8 }
    work := work
    draws := drawsAfter len s.draws }

/-- The pixels of an RLE encode command with F_IN_LEN = `n`: refused when `3 × n > FU_MAX`. -/
def fuPixels (s : State) : Run (List Color) :=
  let n := s.fu.inLen.toNat
  if s.params.fuMax < 3 * n then .error (.refuse (.bufferTooLarge (3 * n)))
  else (readFuIn s (3 * n)).map pixelsOf

/-- The end of an RLE decode command: MalformedRun, a refusal where the pixels exceed FU_MAX, or the pixels stored. -/
def fuDecoded (s : State) (r : Except Nat RunDec) : Run State :=
  match r with
  | .error offset => .error (.raise .malformedRun offset)
  | .ok d =>
    if s.params.fuMax < 3 * d.out.length then .error (.refuse (.bufferTooLarge (3 * d.out.length)))
    else .ok (storeFuOut (pixelBytes d.out) d.out.length { s.work with runDec := d } s)

/-- What an FU command answers. -/
def finishFu (s : State) : Run State → Result
  | .ok t => .next t
  | .error stop => stopFu s stop

/-- RLE_ENC8 (42 R130). -/
def execRleEnc8 (s : State) : Result :=
  finishFu s do
    let px ← fuPixels s
    let (ps, e) := rleEncodeFrom maxRun8 (RunEnc.start 7) (px.map quantize7)
    let bytes := bytesOf8 ps
    return storeFuOut bytes bytes.length { s.work with runEnc := e.widen } s

/-- RLE_DEC8 (42 R131). -/
def execRleDec8 (s : State) : Result :=
  finishFu s (
    let n := s.fu.inLen.toNat
    if s.params.fuMax < n then .error (.refuse (.bufferTooLarge n))
    else do
      let bytes ← readFuIn s n
      fuDecoded s (rleDecode dequantize7 1 (bytes.map unpack8) (RunDec.start .fu 0)))

/-- RLE_ENC16 (42 R132). -/
def execRleEnc16 (s : State) : Result :=
  finishFu s do
    let px ← fuPixels s
    let (ps, e) := rleEncodeFrom maxRun16 (RunEnc.start 15) (px.map quantize15)
    let bytes := bytesOf16 ps
    return storeFuOut bytes bytes.length { s.work with runEnc := e.widen } s

/-- RLE_DEC16 (42 R133): the odd length is checked before any byte is read. -/
def execRleDec16 (s : State) : Result :=
  finishFu s (
    let n := s.fu.inLen.toNat
    if s.params.fuMax < n then .error (.refuse (.bufferTooLarge n))
    else if n % 2 = 1 then .error (.raise .payloadMismatch 0)
    else do
      let bytes ← readFuIn s n
      fuDecoded s (rleDecode dequantize15 2 (packed16sOf bytes) (RunDec.start .fu 0)))

end Sys2Proof.Machine
end

