-- ==== Sys2Proof/Machine/Codecs.lean ====
section
/-! DEFINITION. The five frame payload codecs, write and read (43_frame_codecs.md), and the frame records as
instructions: what DEC does with the record at D_CURSOR once its prefix is fetched (45_decoder.md R182 to R184). -/

namespace Sys2Proof.Machine

/-! ### Read rules -/

/-- What a read rule returns: the frame, the `short` bit, and the command-local registers it leaves (43 R140). -/
structure FrameRead where
  frame : List Color
  short : Bool
  work : Work
  deriving DecidableEq, Repr

/-- RAW read (43 R143): never TruncatedRead; fewer bytes than `3 × N` give the whole pixels there are and `short`. -/
def rawRead (s : State) (rec size N : Nat) : Run FrameRead :=
  let want := 3 * N
  if want < size then .error (.raise .payloadMismatch rec)
  else
    let k := min size (s.dlen - (rec + 5))
    (memRead s (rec + 5) (3 * (k / 3))).map fun bytes =>
      { frame := pixelsOf bytes, short := shortFlag k want, work := s.work }

/-- The palette entries `PAL[0 .. n-1]` from offset `a` on (43 R145). -/
def readPalette (s : State) : Nat → Nat → Run (List Color)
  | _, 0 => .ok []
  | a, n + 1 => do
    let c ← getColor s a
    let rest ← readPalette s (a + 3) n
    return c :: rest

/-- The pixels of `n` index bytes from offset `a` on; an index that names no palette entry is BadPaletteIndex at its own
offset (43 R145). -/
def readIndexed (s : State) (pal : List Color) : Nat → Nat → Run (List Color)
  | _, 0 => .ok []
  | a, n + 1 => do
    let idx ← getU8 s a
    match pal[idx.toNat]? with
    | none => .error (.raise .badPaletteIndex a)
    | some c =>
      let rest ← readIndexed s pal (a + 1) n
      return c :: rest

/-- COLOR_MAPPED read (43 R145). -/
def cmapRead (s : State) (rec size N : Nat) : Run FrameRead :=
  let pay := rec + 5
  if size < 1 then .error (.raise .payloadMismatch rec)
  else do
    let P ← getU8 s pay
    if size ≠ 1 + 3 * P.toNat + N then .error (.raise .payloadMismatch rec)
    else
      let pal ← readPalette s (pay + 1) P.toNat
      let frame ← readIndexed s pal (pay + 1 + 3 * P.toNat) N
      return { frame := frame, short := false, work := { s.work with pal := pal } }

/-- The loop of 43 R147 and R149 over `k` packed values fetched at the decoder's own offset: after each one, too many
pixels are PayloadMismatch. -/
def quantLoop {n : Nat} (fetchAt : Nat → Run (Packed n)) (deq : BitVec n → Color) (width rec N : Nat) :
    Nat → RunDec → Run RunDec
  | 0, d => .ok d
  | k + 1, d => do
    let p ← fetchAt d.offset
    let d' ← (rleDecodeStep deq width p d).mapError fun a => Stop.raise .malformedRun a
    if N < d'.out.length then .error (.raise .payloadMismatch rec)
    else quantLoop fetchAt deq width rec N k d'

/-- The last check of 43 R147 and R149: the pixels of the payload are exactly `N`. -/
def quantFrame (s : State) (rec N : Nat) (d : RunDec) : Run FrameRead :=
  if d.out.length ≠ N then .error (.raise .payloadMismatch rec)
  else .ok { frame := d.out, short := false, work := { s.work with runDec := d } }

/-- QUANTIZED_8 read (43 R147). -/
def q8Read (s : State) (rec size N : Nat) : Run FrameRead := do
  let d ← quantLoop (fun a => (getU8 s a).map unpack8) dequantize7 1 rec N size (RunDec.start .dec (rec + 5))
  quantFrame s rec N d

/-- QUANTIZED_16 read (43 R149): an odd size is checked before any payload byte is read. -/
def q16Read (s : State) (rec size N : Nat) : Run FrameRead :=
  if size % 2 = 1 then .error (.raise .payloadMismatch rec)
  else do
    let d ← quantLoop (fun a => (getU16 s a).map unpack16) dequantize15 2 rec N (size / 2)
      (RunDec.start .dec (rec + 5))
    quantFrame s rec N d

/-- REPEATED read (43 R151): the size is checked before LAST_VALID. -/
def repeatedRead (s : State) (rec size : Nat) : Run FrameRead :=
  if size ≠ 0 then .error (.raise .payloadMismatch rec)
  else if s.dec.lastValid = false then .error (.raise .noPreviousFrame rec)
  else .ok { frame := s.dec.lastFrame, short := false, work := s.work }

/-! ### Completion, and the records as instructions -/

/-- Completion of READ_FRAME (45 R184): the frame goes to PIXOUT and LAST_FRAME, and the cursor to the end of the record
as its own size gives it. PIXOUT cells past the frame become unspecified (10 R31). -/
def completeFrame (f : FrameRead) (rec size : Nat) (s : State) : State :=
  { s with
    dec := completeFlags f.short { s.dec with
      pixout := Memory.ofList 0 f.frame
      outCount := BitVec.ofNat 32 f.frame.length
      lastFrame := f.frame
      cursor := BitVec.ofNat 64 (rec + 5 + size)
      frameIdx := s.dec.frameIdx + 1#64
      err := 0#8 }
    work := f.work }

/-- The state check of a frame command (45 R180): ProtocolViolation outside HeaderRead. -/
def whenHeaderRead (s : State) (k : Result) : Result :=
  if s.dec.state ≠ 1#2 then .next (precheckDec .protocolViolation s) else k

/-- The state check, then the refusal of a frame that exceeds NPIX_MAX (45 R180, 00 R3). -/
def whenFrameReady (s : State) (k : Result) : Result :=
  whenHeaderRead s
    (if s.params.npixMax < s.dec.header.pixels then .refused (.frameTooLarge s.dec.header.pixels) else k)

/-- What READ_FRAME answers once the read rule has run on the record at `D_CURSOR` with `size`. -/
def finishFrame (s : State) (size : Nat) : Run FrameRead → Result
  | .ok f => .next (completeFrame f s.dec.cursor.toNat size s)
  | .error stop => stopDec s stop

/-- The read rule of a record type, chosen by the type alone (45 R182), on the record at `D_CURSOR`. -/
def readRule (ft : FrameType) (s : State) (size : Nat) : Run FrameRead :=
  let rec0 := s.dec.cursor.toNat
  let N := s.dec.header.pixels
  match ft with
  | .raw => rawRead s rec0 size N
  | .colorMapped => cmapRead s rec0 size N
  | .quantized16 => q16Read s rec0 size N
  | .quantized8 => q8Read s rec0 size N
  | .repeated => repeatedRead s rec0 size

/-- RAW record at D_CURSOR (43 R143, log 5). -/
def execRaw (size : BitVec 32) (s : State) : Result :=
  whenFrameReady s (finishFrame s size.toNat (readRule .raw s size.toNat))

/-- COLOR_MAPPED record at D_CURSOR (43 R145, log 5). -/
def execColorMapped (size : BitVec 32) (s : State) : Result :=
  whenFrameReady s (finishFrame s size.toNat (readRule .colorMapped s size.toNat))

/-- QUANTIZED_16 record at D_CURSOR (43 R149, log 5). -/
def execQuantized16 (size : BitVec 32) (s : State) : Result :=
  whenFrameReady s (finishFrame s size.toNat (readRule .quantized16 s size.toNat))

/-- QUANTIZED_8 record at D_CURSOR (43 R147, log 5). -/
def execQuantized8 (size : BitVec 32) (s : State) : Result :=
  whenFrameReady s (finishFrame s size.toNat (readRule .quantized8 s size.toNat))

/-- REPEATED record at D_CURSOR (43 R151, log 5). -/
def execRepeated (size : BitVec 32) (s : State) : Result :=
  whenFrameReady s (finishFrame s size.toNat (readRule .repeated s size.toNat))

/-! ### Write rules -/

/-- A payload a write rule returns, with the command-local registers it leaves (43 R140). -/
structure FrameWrite where
  frameType : FrameType
  payload : List Byte
  work : Work
  deriving DecidableEq, Repr

/-- The distinct Colors of a frame in first-seen order (43 R144), on from those already in `pal`. -/
def paletteFrom : List Color → List Color → List Color
  | pal, [] => pal
  | pal, c :: cs => paletteFrom (if c ∈ pal then pal else pal ++ [c]) cs

/-- The palette of a frame (43 R144). -/
def palette (px : List Color) : List Color := paletteFrom [] px

/-- RAW write (43 R142). -/
def rawWrite (px : List Color) (work : Work) : FrameWrite :=
  { frameType := .raw, payload := pixelBytes px, work := work }

/-- COLOR_MAPPED write (43 R144): palette size, palette in first-seen order, one index byte per pixel. -/
def cmapWrite (px : List Color) (work : Work) : FrameWrite :=
  let pal := palette px
  { frameType := .colorMapped
    payload := BitVec.ofNat 8 pal.length :: (pixelBytes pal ++ px.map fun c => BitVec.ofNat 8 (pal.idxOf c))
    work := { work with pal := pal } }

/-- QUANTIZED_8 write (43 R146). -/
def q8Write (px : List Color) (work : Work) : FrameWrite :=
  let (ps, e) := rleEncodeFrom maxRun8 (RunEnc.start 7) (px.map quantize7)
  { frameType := .quantized8, payload := bytesOf8 ps, work := { work with runEnc := e.widen } }

/-- QUANTIZED_16 write (43 R148). -/
def q16Write (px : List Color) (work : Work) : FrameWrite :=
  let (ps, e) := rleEncodeFrom maxRun16 (RunEnc.start 15) (px.map quantize15)
  { frameType := .quantized16, payload := bytesOf16 ps, work := { work with runEnc := e.widen } }

/-- REPEATED write (43 R150). -/
def repeatedWrite (work : Work) : FrameWrite :=
  { frameType := .repeated, payload := [], work := work }

end Sys2Proof.Machine
end

