-- ==== Sys2Proof/Machine/HeaderCodec.lean ====
section
/-! DEFINITION. The header codec: WRITE_HEADER and READ_HEADER (44_header.md). -/

namespace Sys2Proof.Machine

/-- The four bytes of MAGIC, lowest offset first. -/
def Magic.bytes (m : Magic) : List Byte := [m.b0, m.b1, m.b2, m.b3]

/-- The 15 bytes of a header, in the order WRITE_HEADER puts them (44 R170, 30 R60). -/
def headerBytes (m : Magic) (h : Header) : List Byte :=
  m.bytes ++ [h.frameRate] ++ be16 h.width ++ be16 h.height ++ [h.hscale] ++ [h.vscale] ++ be32 h.frameCount

/-- WRITE_HEADER (44 R170): the header is built whole and appended (20 R43). -/
def execWriteHeader (s : State) : Result :=
  if s.enc.state ≠ 0#2 then .next (precheckEnc .protocolViolation s)
  else .next { s with enc := { putBytes (headerBytes s.params.magic s.enc.header) s.enc with
    state := 1#2, err := 0#8 } }

/-- The magic compare of READ_HEADER: the first four bytes of DSTREAM, compared as a byte string; a stream shorter than
the magic is InvalidMagic too (44 R171). -/
def checkMagic (s : State) : Run Unit :=
  if s.dlen < 4 then .error (.raise .invalidMagic 0)
  else do
    let bytes ← memRead s 0 4
    if bytes ≠ s.params.magic.bytes then .error (.raise .invalidMagic 0) else return ()

/-- The header parse of READ_HEADER, field by field in stream order (44 R171, 30 R60). -/
def parseHeader (s : State) : Run Header := do
  checkMagic s
  let fr ← getU8 s 4
  let w ← getU16 s 5
  let h ← getU16 s 7
  let hs ← getU8 s 9
  let vs ← getU8 s 10
  let fc ← getU32 s 11
  return { frameRate := fr, width := w, height := h, hscale := hs, vscale := vs, frameCount := fc }

/-- READ_HEADER (44 R171). -/
def execReadHeader (s : State) : Result :=
  if s.dec.state ≠ 0#2 then .next (precheckDec .protocolViolation s)
  else
    match parseHeader s with
    | .error stop => stopDec s stop
    | .ok h =>
      .next { s with dec := { s.dec with
        header := h, headerSize := 15#64, fileSize := BitVec.ofNat 64 s.dlen, cursor := 15#64, frameIdx := 0#64,
        state := 1#2, err := 0#8 } }

end Sys2Proof.Machine
end

