-- ==== Sys2Proof/Machine/DecoderUnit.lean ====
section
/-! DEFINITION. The decoder unit: record fetch, READ_FRAME, SKIP_FRAME, SEEK, DCLOSE (45_decoder.md). -/

namespace Sys2Proof.Machine

/-- The record fetch at offset `a` (45 R181): tag and size are both read before the tag is judged. -/
def fetchRecord (s : State) (a : Nat) : Run (FrameType × BitVec 32) := do
  let tag ← getU8 s a
  let size ← getU32 s (a + 1)
  match frameTypeOf tag with
  | none => .error (.raise .unknownFrameType a)
  | some ft => return (ft, size)

/-- READ_FRAME (45 R183): fetch the record at D_CURSOR and run the read rule its tag selects. -/
def execReadFrame (s : State) : Result :=
  whenFrameReady s (
    match fetchRecord s s.dec.cursor.toNat with
    | .error stop => stopDec s stop
    | .ok (ft, size) => finishFrame s size.toNat (readRule ft s size.toNat))

/-- The offset after skipping `n` records from offset `a` on: `skip_one()` `n` times (45 R186, R187). -/
def skipRecords (s : State) : Nat → Nat → Run Nat
  | 0, a => .ok a
  | n + 1, a => do
    let (_, size) ← fetchRecord s a
    skipRecords s n (a + 5 + size.toNat)

/-- Completion of SKIP_FRAME and SEEK: D_CURSOR and D_FRAME_IDX move, D_ERR is 0. -/
def moveCursor (cursor frameIdx : Nat) (s : State) : State :=
  { s with dec := { s.dec with
      cursor := BitVec.ofNat 64 cursor, frameIdx := BitVec.ofNat 64 frameIdx, err := 0#8 } }

/-- SKIP_FRAME (45 R186). -/
def execSkipFrame (s : State) : Result :=
  whenHeaderRead s (
    match skipRecords s 1 s.dec.cursor.toNat with
    | .error stop => stopDec s stop
    | .ok a => .next (moveCursor a (s.dec.frameIdx.toNat + 1) s))

/-- The target of SEEK: `floor(frame_count × progress)` (45 R187). -/
def seekTarget (d : Decoder) : Nat := (d.header.frameCount.toNat * d.progress.toNat) >>> 31

/-- SEEK (45 R187): backward from the first record, else forward from the cursor; on a stream error the cursor and index
from before the SEEK stay (60 R231). -/
def execSeek (s : State) : Result :=
  whenHeaderRead s (
    let target := seekTarget s.dec
    let idx := s.dec.frameIdx.toNat
    let back := decide (target < idx)
    let idx0 := if back then 0 else idx
    let cursor0 := if back then s.dec.headerSize.toNat else s.dec.cursor.toNat
    match skipRecords s (target - idx0) cursor0 with
    | .error stop => stopDec s stop
    | .ok a => .next (moveCursor a target s))

/-- DCLOSE (45 R189). -/
def execDclose (s : State) : Result :=
  if s.dec.state = 2#2 ∨ s.dec.state = 3#2 then .next (precheckDec .protocolViolation s)
  else .next { s with dec := { s.dec with state := 2#2, err := 0#8 } }

end Sys2Proof.Machine
end

