-- ==== Sys2Proof/Machine/EncoderUnit.lean ====
section
/-! DEFINITION. The encoder unit: WRITE_FRAME and ECLOSE (46_encoder.md). -/

namespace Sys2Proof.Machine

/-- `repeats(px)` (46 R202): the previous input frame, by value, before any quantization. -/
def repeats (e : Encoder) (px : List Color) : Bool := e.prevValid && decide (e.prevFrame = px)

/-- `select_and_encode(px)` (46 R203). E_QUALITY = 3 does not reach here (46 R201). -/
def selectAndEncode (quality : BitVec 2) (px : List Color) (work : Work) : FrameWrite :=
  if (palette px).length < 256 then cmapWrite px work
  else if quality = 0#2 then q8Write px work
  else if quality = 1#2 then q16Write px work
  else rawWrite px work

/-- The bytes of a frame record: tag, `payload_size`, payload (30 R62, 46 R204). -/
def recordBytes (f : FrameWrite) : List Byte :=
  f.frameType.code :: (be32 (BitVec.ofNat 32 f.payload.length) ++ f.payload)

/-- `emit(tag, payload)` (46 R204): the record is built whole and appended at E_CURSOR (20 R43). -/
def emitRecord (f : FrameWrite) (e : Encoder) : Encoder := putBytes (recordBytes f) e

/-- The frame WRITE_FRAME writes, and how (46 R200): the repeated-frame shortcut, else the selection. -/
def chooseRecord (s : State) (px : List Color) : FrameWrite :=
  if repeats s.enc px then repeatedWrite s.work else selectAndEncode s.enc.quality px s.work

/-- The end of WRITE_FRAME (46 R200). -/
def completeWrite (px : List Color) (f : FrameWrite) (s : State) : State :=
  { s with
    enc := writtenFlags { emitRecord f s.enc with
      prevFrame := px, frameIdx := s.enc.frameIdx + 1#64, err := 0#8 }
    work := f.work }

/-- WRITE_FRAME (46 R200): the prechecks of R201 in their order, the refusal of R3, then the frame. -/
def execWriteFrame (s : State) : Result :=
  if s.enc.state ≠ 1#2 then .next (precheckEnc .protocolViolation s)
  else if s.enc.quality = 3#2 then .next (precheckEnc .unsupportedQuality s)
  else if s.params.npixMax < s.enc.header.pixels then .refused (.frameTooLarge s.enc.header.pixels)
  else
    match readPixin s s.enc.header.pixels with
    | .error stop => stopEnc s stop
    | .ok px => .next (completeWrite px (chooseRecord s px) s)

/-- ECLOSE (46 R205). -/
def execEclose (s : State) : Result :=
  if s.enc.state = 2#2 then .next (precheckEnc .protocolViolation s)
  else .next { s with enc := { s.enc with state := 2#2, err := 0#8 } }

end Sys2Proof.Machine
end

