-- ==== Sys2Proof/Machine/ResetUnit.lean ====
section
/-! DEFINITION. The reset commands (70_reset_and_hazards.md R251 to R253). -/

namespace Sys2Proof.Machine

/-- RESET (70 R251): the three units at their reset values, every buffer unspecified. PIXIN and FU_IN become unwritten
(log 12). DSTREAM, DLEN and the parameters are no state of the block and stay. -/
def execReset (s : State) : Result :=
  .next { resetFuncUnit (resetEncoder (resetDecoder s)) with pixin := [], fuIn := [], work := Work.reset }

/-- DRESET (70 R252). -/
def execDreset (s : State) : Result := .next (resetDecoder s)

/-- ERESET (70 R253). -/
def execEreset (s : State) : Result := .next (resetEncoder s)

end Sys2Proof.Machine
end

