-- ==== Sys2Proof/Machine/Dispatch.lean ====
section
/-! DEFINITION. The meaning of every instruction, one arm each. -/

namespace Sys2Proof.Machine

def exec (i : Instr) (s : State) : Host.Outcome State Fault Refusal :=
  match i with
  -- frame records (43_frame_codecs.md)
  | .raw size => Sys2Proof.Machine.execRaw size s
  | .colorMapped size => Sys2Proof.Machine.execColorMapped size s
  | .quantized16 size => Sys2Proof.Machine.execQuantized16 size s
  | .quantized8 size => Sys2Proof.Machine.execQuantized8 size s
  | .repeated size => Sys2Proof.Machine.execRepeated size s
  -- packed values (42_run_length.md)
  | .lit8 r g b => Sys2Proof.Machine.execLit8 r g b s
  | .run8 c => Sys2Proof.Machine.execRun8 c s
  | .lit16 r g b => Sys2Proof.Machine.execLit16 r g b s
  | .run16 c => Sys2Proof.Machine.execRun16 c s
  -- commands (30_encoding.md R75)
  | .reset => Sys2Proof.Machine.execReset s
  | .readHeader => Sys2Proof.Machine.execReadHeader s
  | .readFrame => Sys2Proof.Machine.execReadFrame s
  | .skipFrame => Sys2Proof.Machine.execSkipFrame s
  | .seek => Sys2Proof.Machine.execSeek s
  | .dclose => Sys2Proof.Machine.execDclose s
  | .dreset => Sys2Proof.Machine.execDreset s
  | .writeHeader => Sys2Proof.Machine.execWriteHeader s
  | .writeFrame => Sys2Proof.Machine.execWriteFrame s
  | .eclose => Sys2Proof.Machine.execEclose s
  | .ereset => Sys2Proof.Machine.execEreset s
  | .quant7 => Sys2Proof.Machine.execQuant7 s
  | .dequant7 => Sys2Proof.Machine.execDequant7 s
  | .quant15 => Sys2Proof.Machine.execQuant15 s
  | .dequant15 => Sys2Proof.Machine.execDequant15 s
  | .rleEnc8 => Sys2Proof.Machine.execRleEnc8 s
  | .rleDec8 => Sys2Proof.Machine.execRleDec8 s
  | .rleEnc16 => Sys2Proof.Machine.execRleEnc16 s
  | .rleDec16 => Sys2Proof.Machine.execRleDec16 s

end Sys2Proof.Machine
end

