-- ==== Sys2Proof/Machine/HostPort.lean ====
section
/-! DEFINITION. The host's side of the block: taking the next host move, the accesses between commands (70 R271), and
the placing of an instruction where the next step runs it. -/

namespace Sys2Proof.Machine

/-- The next host move and the state without it. -/
def takeMove (s : State) : Option (HostMove × State) :=
  match s.pending with
  | [] => none
  | m :: rest => some (m, { s with pending := rest })

/-- The command byte a host move writes to CMD: the low 8 bits of a write to register 0x00 (10 R11, log 15). -/
def commandByte : HostMove → Option Byte
  | .writeReg 0 v => some (v.setWidth 8)
  | _ => none

/-- Hand a value to the host. -/
def give (v : BitVec 64) (s : State) : State := { s with hostData := v }

/-- Hand the host a draw of an unspecified value (10, the note on "unspecified"; 93 U28 to U30, log 10). -/
def giveDraw (v : Nat → BitVec 64) (s : State) : State :=
  { s with hostData := v s.draws, draws := s.draws + 1 }

/-- A host access that is no command (70 R271). -/
def hostAccess (m : HostMove) (s : State) : Result :=
  match m with
  | .writeReg number v => .next (writeRegister s number v)
  | .readReg number =>
    match readRegister s number with
    | some v => .next (give v s)
    | none => .refused (.unmappedRegister number)
  | .writePixin i c =>
    if i < s.params.npixMax then .next { s with pixin := Memory.write s.pixin i c }
    else .fault (.noSuchCell .pixin i)
  | .readPixout i =>
    if i < s.params.npixMax then
      match (if i < s.dec.outCount.toNat then Memory.read s.dec.pixout i else none) with
      | some c => .next (give ((wordOfColor c).setWidth 64) s)
      | none => .next (giveDraw (fun k => (Config.freePixel k).setWidth 64) s)
    else .fault (.noSuchCell .pixout i)
  | .writeFuIn a b =>
    if a < s.params.fuMax then .next { s with fuIn := Memory.write s.fuIn a b }
    else .fault (.noSuchCell .fuIn a)
  | .readFuOut a =>
    if a < s.params.fuMax then
      match Memory.read s.fu.fuOut a with
      | some b => .next (give (b.setWidth 64) s)
      | none => .next (giveDraw (fun k => (Config.freeByte k).setWidth 64) s)
    else .fault (.noSuchCell .fuOut a)
  | .readEstream a =>
    match (if a < s.enc.cursor.toNat then Memory.read s.enc.estream a else none) with
    | some b => .next (give (b.setWidth 64) s)
    | none => .fault (.noSuchCell .estream a)
  | .attach bytes =>
    if s.dec.state ≠ 0#2 then .refused .streamInUse
    else if 2 ^ 63 ≤ bytes.length then .refused .streamTooLong
    else .next { s with dstream := Memory.ofList 0 bytes, dlen := bytes.length }

/-- What a step answers for a CMD byte that is no command (30 R76). -/
def refuseCode (code : Byte) : Result := .refused (.reservedCommand code)

/-! ### Placing an instruction for the next step -/

/-- The host move that issues the command of a code. -/
def issue (code : Byte) (s : State) : State :=
  { s with pending := .writeReg 0 (code.setWidth 64) :: s.pending }

/-- `s` with the bytes of an instruction of a space stored where the next step runs it (log 4): a command is the host's
next write to CMD; a record stands at D_CURSOR of a DEC in HeaderRead and READ_FRAME is issued; a packed value is the
whole FU_IN input of an issued RLE_DEC8 or RLE_DEC16. -/
def placeWord (sp : Space) (bytes : List Byte) (s : State) : State :=
  match sp with
  | .command => issue (bytes.headD 0#8) s
  | .frameRecord =>
    let at0 := s.dec.cursor.toNat
    issue 0x11#8 { s with
      dstream := Memory.writeList s.dstream at0 bytes
      dlen := max s.dlen (at0 + bytes.length)
      dec := { s.dec with state := 1#2 } }
  | .packed8 =>
    issue 0x35#8 { s with
      fuIn := Memory.writeList s.fuIn 0 (bytes.take 1), fu := { s.fu with inLen := 1#32 } }
  | .packed16 =>
    issue 0x37#8 { s with
      fuIn := Memory.writeList s.fuIn 0 (bytes.take 2), fu := { s.fu with inLen := 2#32 } }

end Sys2Proof.Machine
end

