-- ==== Sys2Proof/Machine/Step.lean ====
section
/-! DEFINITION. One step: the host's next move, a command or an access (70 R271). -/

namespace Sys2Proof.Machine

/-- One step. The host's next move is taken; a write to CMD runs the command it names as one transition (10 R11), a
reserved code is refused (30 R76), any other move is an access between commands. With no move left the block is idle and
nothing changes (70 R272). -/
def step (s : State) : Host.Outcome State Fault Refusal :=
  match takeMove s with
  | none => .next s
  | some (m, t) =>
    match commandByte m with
    | none => hostAccess m t
    | some code =>
      match decodeCommand code with
      | .ok i => exec i t
      | .error _ => refuseCode code

/-- `s` with the table word `w` of `nbits` bits stored where the next step runs it (log 4). -/
def State.withFetchWord (s : State) (nbits w : Nat) : State :=
  placeWord (tableSpace nbits w) (tableBytes nbits w) s

end Sys2Proof.Machine
end

