-- ==== Sys2Proof/Safety.lean ====
section
/-! DEFINITION. The terms the claims use: what a space holds, where a record stands, the invariant every step keeps, and
how a decode session ended (70_reset_and_hazards.md R272). -/

namespace Sys2Proof.Machine

/-! ### Contents of the spaces -/

/-- The cells of `m` from address `a` on are exactly `xs`. -/
def Memory.Holds {α : Type} (m : Memory α) (a : Nat) (xs : List α) : Prop :=
  ∀ i < xs.length, Memory.read m (a + i) = xs[i]?

/-- `m` reads the same as `m'` at every address outside the `n` cells from `a` on. -/
def Memory.SameOutside {α : Type} (m m' : Memory α) (a n : Nat) : Prop :=
  ∀ k, (k < a ∨ a + n ≤ k) → Memory.read m' k = Memory.read m k

/-- DSTREAM holds `bytes` at offset `a`, all of them below DLEN (20 R42). -/
abbrev StreamAt (s : State) (a : Nat) (bytes : List Byte) : Prop :=
  Memory.Holds s.dstream a bytes ∧ a + bytes.length ≤ s.dlen

/-- A well-formed record prefix stands at offset `a`: a tag of 30 R63 and a size field (30 R62). -/
abbrev PrefixAt (s : State) (a : Nat) (ft : FrameType) (size : BitVec 32) : Prop :=
  StreamAt s a (ft.code :: be32 size)

/-- Record `k` of DSTREAM starts at offset `a`: record 0 at 15, record `k + 1` where record `k` ends (20 R47). -/
inductive RecordAt (s : State) : Nat → Nat → Prop where
  | first : RecordAt s 0 15
  | next {k a : Nat} {ft : FrameType} {size : BitVec 32} :
      RecordAt s k a → PrefixAt s a ft size → RecordAt s (k + 1) (a + 5 + size.toNat)

/-! ### When a unit is ready -/

/-- DEC may read a frame: HeaderRead, and the frame fits NPIX_MAX (45 R180). -/
abbrev FrameReady (s : State) : Prop :=
  s.dec.state = 1#2 ∧ s.dec.header.pixels ≤ s.params.npixMax

/-- ENC may write the frame `px`: the prechecks of 46 R201 pass, the frame fits NPIX_MAX, and PIXIN holds it (70 R265). -/
abbrev WriteReady (s : State) (px : List Color) : Prop :=
  s.enc.state = 1#2 ∧ s.enc.quality ≠ 3#2 ∧ s.enc.header.pixels ≤ s.params.npixMax ∧
    px.length = s.enc.header.pixels ∧ Memory.Holds s.pixin 0 px

/-- DEC after a READ_FRAME that completes with a frame (45 R184), `last` being the record's size. -/
def Decoder.delivered (d : Decoder) (frame : List Color) (short : Bool) (size : Nat) : Decoder :=
  { d with
    pixout := Memory.ofList 0 frame
    outCount := BitVec.ofNat 32 frame.length
    lastFrame := frame
    short := short
    lastValid := true
    cursor := BitVec.ofNat 64 (d.cursor.toNat + 5 + size)
    frameIdx := d.frameIdx + 1#64
    err := 0#8 }

/-- DEC after a stream error (60 R231). -/
def Decoder.faulted (d : Decoder) (code : BitVec 8) (offset : Nat) : Decoder :=
  { d with
    err := code, errOffset := BitVec.ofNat 64 offset, state := 3#2, outCount := 0#32, pixout := [] }

/-! ### Outcomes -/

/-- The next state of an outcome, if it is one. -/
def nextState : Result → Option State
  | .next t => some t
  | .fault _ => none
  | .refused _ => none

/-- The outcome is no refusal. -/
def NotRefused (r : Result) : Prop := ∀ why, r ≠ .refused why

/-- A run of instructions one after the other, up to the first that stops. -/
def runAll : List Instr → State → Result
  | [], s => .next s
  | i :: is, s =>
    match exec i s with
    | .next t => runAll is t
    | .fault f => .fault f
    | .refused r => .refused r

/-! ### The invariant -/

/-- What holds of every reachable state: the parameters are admissible (00 section 3), the memories keep their canonical
form and their size, DSTREAM is a whole byte string, the error and state registers hold only values the rules give, and
the registers that the rules tie together agree. -/
structure State.Inv (s : State) : Prop where
  npix_pos : 1 ≤ s.params.npixMax
  npix_le : s.params.npixMax ≤ 1431655765
  fu_ge : 3 ≤ s.params.fuMax
  /-- DLEN < 2^63 (20 R41). -/
  dlen_lt : s.dlen < 2 ^ 63
  dstream_wf : Memory.wf s.dstream = true
  dstream_full : ∀ a < s.dlen, (Memory.read s.dstream a).isSome = true
  pixin_wf : Memory.wf s.pixin = true
  pixin_range : ∀ x ∈ s.pixin, x.1 < s.params.npixMax
  fuIn_wf : Memory.wf s.fuIn = true
  fuIn_range : ∀ x ∈ s.fuIn, x.1 < s.params.fuMax
  fuOut_wf : Memory.wf s.fu.fuOut = true
  fuOut_range : ∀ x ∈ s.fu.fuOut, x.1 < s.params.fuMax
  estream_wf : Memory.wf s.enc.estream = true
  /-- PIXOUT lists exactly its valid cells (10 R19, R31). -/
  pixout_cells : s.dec.pixout.map Prod.fst = List.range s.dec.outCount.toNat
  pixout_size : s.dec.outCount.toNat ≤ s.params.npixMax
  last_size : s.dec.lastFrame.length ≤ s.params.npixMax
  last_none : s.dec.lastValid = false → s.dec.lastFrame = []
  prev_size : s.enc.prevFrame.length ≤ s.params.npixMax
  prev_none : s.enc.prevValid = false → s.enc.prevFrame = []
  /-- PREV_COUNT is the locked resolution once a frame was written (46 R202). -/
  prev_count : s.enc.prevValid = true → s.enc.prevFrame.length = s.enc.header.pixels
  /-- No other code is ever written to an ERR register (60 R220, R223). -/
  dec_err : s.dec.err ∈ [0#8, 1#8, 2#8, 3#8, 4#8, 5#8, 6#8, 9#8, 10#8]
  enc_err : s.enc.err ∈ [0#8, 3#8, 7#8]
  fu_err : s.fu.err ∈ [0#8, 5#8, 9#8]
  /-- E_STATE is never 3 (10 R21). -/
  enc_state : s.enc.state ≠ 3#2
  /-- In Created nothing has been parsed (10 R12, R17). -/
  dec_created : s.dec.state = 0#2 → s.dec.cursor = 0#64 ∧ s.dec.frameIdx = 0#64 ∧ s.dec.lastValid = false ∧
    s.dec.header = Header.reset ∧ s.dec.headerSize = 0#64
  /-- In HeaderRead the derived fields stand and the cursor is past the header (10 R16, R17). -/
  dec_header : s.dec.state = 1#2 → s.dec.headerSize = 15#64 ∧ s.dec.fileSize = BitVec.ofNat 64 s.dlen ∧
    15 ≤ s.dec.cursor.toNat
  /-- In Created nothing has been written (44 R170). -/
  enc_created : s.enc.state = 0#2 → s.enc.cursor = 0#64 ∧ s.enc.frameIdx = 0#64 ∧ s.enc.estream = [] ∧
    s.enc.prevValid = false
  /-- psz is at most PAL_MAX (10 R34). -/
  pal_size : s.work.pal.length ≤ 255
  /-- The pending run count is at most `max_run` (10 R35). -/
  run_size : s.work.runEnc.run ≤ 32767

/-! ### Sessions (70 R272) -/

/-- A decode session stands clean: HeaderRead or Closed. -/
abbrev State.DecodeClean (s : State) : Prop := s.dec.state = 1#2 ∨ s.dec.state = 2#2

/-- A decode session stands faulted. -/
abbrev State.DecodeFaulted (s : State) : Prop := s.dec.state = 3#2

end Sys2Proof.Machine
end

