-- ==== Sys2Proof/Certificates/Slice0/Obligations.lean ====
section
/-! DEFINITION. The statements about this model, one `def Obligations.<Name> : Prop` each. A reference such as "42 R122"
names the file of spec/ and the rule. Where a statement rests on a choice of the model, its docstring names the log
entry. -/

open Sys2Proof Sys2Proof.Machine

/-! ### Encodings and the step -/

/-- Decoding an encoded instruction in its own space gives it back, with every operand, and leaves the bytes after it
(30 R62, R63, R68, R69, R71, R75). -/
def Obligations.DecodeReadsBackEncode : Prop :=
  ∀ (i : Instr) (rest : List Byte), decode i.space (encode i ++ rest) = .ok (i, rest)

/-- Every byte string that decodes is the encoding of what it decodes to: no two encodings share a meaning and no bit of
an encoding is dropped (30 R61 to R75). -/
def Obligations.EncodeWritesBackDecode : Prop :=
  ∀ (sp : Space) (bytes : List Byte) (i : Instr) (rest : List Byte),
    decode sp bytes = .ok (i, rest) → i.space = sp ∧ encode i ++ rest = bytes

/-- A few words written out from the spec's encodings decode to the instructions they stand for (30 R62, R68, R69, R70,
R75). -/
def Obligations.SpecWordsDecode : Prop :=
  decode .frameRecord [0x01#8, 0x00#8, 0x00#8, 0x00#8, 0x06#8] = .ok (.raw 6#32, []) ∧
  decode .frameRecord [0x05#8, 0x00#8, 0x00#8, 0x00#8, 0x00#8] = .ok (.repeated 0#32, []) ∧
  decode .packed8 [0b01100100#8] = .ok (.lit8 6#3 1#2 0#2, []) ∧
  decode .packed8 [0b11100011#8] = .ok (.run8 99#7, []) ∧
  decode .packed16 [0b01100101#8, 0b10000110#8] = .ok (.lit16 25#5 12#5 6#5, []) ∧
  decode .packed16 [0b10000000#8, 0b01100011#8] = .ok (.run16 99#15, []) ∧
  decode .command [0x11#8] = .ok (.readFrame, []) ∧
  decode .command [0x37#8] = .ok (.rleDec16, [])

/-- A step whose next host move writes to CMD runs the instruction that the low byte of the value decodes to, on the state
without that move (10 R11). That the low byte counts is the model's reading (log 15). -/
def Obligations.StepRunsTheDecodedCommand : Prop :=
  ∀ (s : State) (v : BitVec 64) (rest : List HostMove) (i : Instr),
    s.pending = .writeReg 0 v :: rest → decode .command [v.setWidth 8] = .ok (i, []) →
      step s = exec i { s with pending := rest }

/-- A write of a reserved code to CMD is refused (30 R76). -/
def Obligations.ReservedCommandIsRefused : Prop :=
  ∀ (s : State) (v : BitVec 64) (rest : List HostMove),
    s.pending = .writeReg 0 v :: rest →
    (v.toNat % 256 = 0x00 ∨ (0x02 ≤ v.toNat % 256 ∧ v.toNat % 256 ≤ 0x0F) ∨
      (0x15 ≤ v.toNat % 256 ∧ v.toNat % 256 ≤ 0x1E) ∨ (0x23 ≤ v.toNat % 256 ∧ v.toNat % 256 ≤ 0x2E) ∨
      0x38 ≤ v.toNat % 256) →
      step s = .refused (.reservedCommand (v.setWidth 8))

/-- READ_FRAME runs the frame record that the bytes at D_CURSOR decode to (45 R181, R182). That a record on its own has
the state check of READ_FRAME is the model's choice (log 5). -/
def Obligations.ReadFrameRunsTheFetchedRecord : Prop :=
  ∀ (s : State) (bytes : List Byte) (i : Instr),
    StreamAt s s.dec.cursor.toNat bytes → decode .frameRecord bytes = .ok (i, []) →
      exec .readFrame s = exec i s

/-- RLE_DEC8 and RLE_DEC16 run the packed values of their input one after the other, from fresh run-length registers
(42 R124, R125, R131, R133). The registers a packed value works on as an instruction are the model's (log 6), and so
are those left after the command (log 7) and the form of unspecified FU_OUT bytes (log 10, log 11). -/
def Obligations.RleDecodeRunsThePackedValues : Prop :=
  (∀ (s t : State) (ps : List Byte),
    ps.length = s.fu.inLen.toNat → ps.length ≤ s.params.fuMax → Memory.Holds s.fuIn 0 ps →
    (∀ p ∈ ps.head?, p.toNat < 128) →
    runAll (ps.map decodePacked8) { s with work := { s.work with runDec := RunDec.start .fu 0 } } = .next t →
    3 * t.work.runDec.out.length ≤ s.params.fuMax →
      ∃ u, exec .rleDec8 s = .next u ∧ u.fu.fuOut = Memory.ofList 0 (pixelBytes t.work.runDec.out) ∧
        u.fu.err = 0#8 ∧ u.work = t.work) ∧
  (∀ (s t : State) (ps : List (BitVec 16)),
    2 * ps.length = s.fu.inLen.toNat → 2 * ps.length ≤ s.params.fuMax → Memory.Holds s.fuIn 0 (ps.flatMap be16) →
    (∀ p ∈ ps.head?, p.toNat < 32768) →
    runAll (ps.map decodePacked16) { s with work := { s.work with runDec := RunDec.start .fu 0 } } = .next t →
    3 * t.work.runDec.out.length ≤ s.params.fuMax →
      ∃ u, exec .rleDec16 s = .next u ∧ u.fu.fuOut = Memory.ofList 0 (pixelBytes t.work.runDec.out) ∧
        u.fu.err = 0#8 ∧ u.work = t.work)

/-! ### Quantizer -/

/-- QUANT7, with its code, in every state: F_VALUE takes the top 3, 2 and 2 bits of the channels of F_COLOR, F_ERR is 0, nothing else
changes (41 R110). -/
def Obligations.Quant7PacksTopBits : Prop :=
  decode .command [0x30#8] = .ok (.quant7, []) ∧
  ∀ s : State, exec .quant7 s = .next { s with fu := { s.fu with
    value := BitVec.ofNat 15 (s.fu.color.toNat / 65536 / 32 * 16 + s.fu.color.toNat / 256 % 256 / 64 * 4 +
      s.fu.color.toNat % 256 / 64)
    err := 0#8 } }

/-- DEQUANT7, with its code, in every state: F_COLOR takes the three fields of F_VALUE[6:0] shifted back plus 16 each, F_ERR is 0, nothing
else changes (41 R111). -/
def Obligations.Dequant7RebuildsColor : Prop :=
  decode .command [0x31#8] = .ok (.dequant7, []) ∧
  ∀ s : State, exec .dequant7 s = .next { s with fu := { s.fu with
    color := BitVec.ofNat 24 ((s.fu.value.toNat / 16 % 8 * 32 + 16) * 65536 +
      (s.fu.value.toNat / 4 % 4 * 64 + 16) * 256 + (s.fu.value.toNat % 4 * 64 + 16))
    err := 0#8 } }

/-- QUANT15, with its code, in every state: F_VALUE takes the top 5 bits of each channel of F_COLOR, F_ERR is 0, nothing else changes
(41 R112). -/
def Obligations.Quant15PacksTopBits : Prop :=
  decode .command [0x32#8] = .ok (.quant15, []) ∧
  ∀ s : State, exec .quant15 s = .next { s with fu := { s.fu with
    value := BitVec.ofNat 15 (s.fu.color.toNat / 65536 / 8 * 1024 + s.fu.color.toNat / 256 % 256 / 8 * 32 +
      s.fu.color.toNat % 256 / 8)
    err := 0#8 } }

/-- DEQUANT15, with its code, in every state: F_COLOR takes the three fields of F_VALUE shifted back plus 4 each, F_ERR is 0, nothing else
changes (41 R113). -/
def Obligations.Dequant15RebuildsColor : Prop :=
  decode .command [0x33#8] = .ok (.dequant15, []) ∧
  ∀ s : State, exec .dequant15 s = .next { s with fu := { s.fu with
    color := BitVec.ofNat 24 ((s.fu.value.toNat / 1024 * 8 + 4) * 65536 +
      (s.fu.value.toNat / 32 % 32 * 8 + 4) * 256 + (s.fu.value.toNat % 32 * 8 + 4))
    err := 0#8 } }

/-- Quantizing a dequantized value gives it back, in both schemes, so the round trip of a colour is idempotent on the
quantized domain and stable on colours (41 R104, R107). -/
def Obligations.QuantizerIsIdempotent : Prop :=
  (∀ v : BitVec 7, quantize7 (dequantize7 v) = v) ∧
  (∀ v : BitVec 15, quantize15 (dequantize15 v) = v) ∧
  (∀ c : Color, quantize7 (dequantize7 (quantize7 c)) = quantize7 c) ∧
  (∀ c : Color, quantize15 (dequantize15 (quantize15 c)) = quantize15 c) ∧
  (∀ c : Color, dequantize7 (quantize7 (dequantize7 (quantize7 c))) = dequantize7 (quantize7 c)) ∧
  (∀ c : Color, dequantize15 (quantize15 (dequantize15 (quantize15 c))) = dequantize15 (quantize15 c))

/-- Two colours quantize alike exactly when they agree in the kept bits (41 R108). -/
def Obligations.QuantizeMergesExactly : Prop :=
  ∀ c c' : Color,
    (quantize7 c = quantize7 c' ↔ c.r.toNat / 32 = c'.r.toNat / 32 ∧ c.g.toNat / 64 = c'.g.toNat / 64 ∧
      c.b.toNat / 64 = c'.b.toNat / 64) ∧
    (quantize15 c = quantize15 c' ↔ c.r.toNat / 8 = c'.r.toNat / 8 ∧ c.g.toNat / 8 = c'.g.toNat / 8 ∧
      c.b.toNat / 8 = c'.b.toNat / 8)

/-- The error of the round trip, and the colours it leaves alone (41 R105). -/
def Obligations.QuantizerErrorIsBounded : Prop :=
  ∀ c : Color,
    (-15 ≤ ((dequantize7 (quantize7 c)).r.toNat : Int) - c.r.toNat ∧
      ((dequantize7 (quantize7 c)).r.toNat : Int) - c.r.toNat ≤ 16) ∧
    (-47 ≤ ((dequantize7 (quantize7 c)).g.toNat : Int) - c.g.toNat ∧
      ((dequantize7 (quantize7 c)).g.toNat : Int) - c.g.toNat ≤ 16) ∧
    (-47 ≤ ((dequantize7 (quantize7 c)).b.toNat : Int) - c.b.toNat ∧
      ((dequantize7 (quantize7 c)).b.toNat : Int) - c.b.toNat ≤ 16) ∧
    (-3 ≤ ((dequantize15 (quantize15 c)).r.toNat : Int) - c.r.toNat ∧
      ((dequantize15 (quantize15 c)).r.toNat : Int) - c.r.toNat ≤ 4) ∧
    (-3 ≤ ((dequantize15 (quantize15 c)).g.toNat : Int) - c.g.toNat ∧
      ((dequantize15 (quantize15 c)).g.toNat : Int) - c.g.toNat ≤ 4) ∧
    (-3 ≤ ((dequantize15 (quantize15 c)).b.toNat : Int) - c.b.toNat ∧
      ((dequantize15 (quantize15 c)).b.toNat : Int) - c.b.toNat ≤ 4) ∧
    (dequantize7 (quantize7 c) = c ↔ c.r.toNat % 32 = 16 ∧ c.g.toNat % 64 = 16 ∧ c.b.toNat % 64 = 16) ∧
    (dequantize15 (quantize15 c) = c ↔ c.r.toNat % 8 = 4 ∧ c.g.toNat % 8 = 4 ∧ c.b.toNat % 8 = 4)

/-! ### Run-length coder -/

/-- Decoding what the run-length encoder writes gives the dequantized values back, pixel for pixel, in both widths; so the
payload of a frame decodes to the frame's round trip through the quantizer (42 R127). -/
def Obligations.RleDecodeInvertsEncode : Prop :=
  (∀ (vals : List (BitVec 7)) (user : RunUser) (a : Nat),
    ∃ d, rleDecode dequantize7 1 (rleEncode 127 vals) (RunDec.start user a) = .ok d ∧ d.out = vals.map dequantize7) ∧
  (∀ (vals : List (BitVec 15)) (user : RunUser) (a : Nat),
    ∃ d, rleDecode dequantize15 2 (rleEncode 32767 vals) (RunDec.start user a) = .ok d ∧
      d.out = vals.map dequantize15) ∧
  (∀ (px : List Color) (user : RunUser) (a : Nat),
    ∃ d, rleDecode dequantize7 1 ((bytesOf8 (rleEncode 127 (px.map quantize7))).map unpack8) (RunDec.start user a) =
      .ok d ∧ d.out = px.map fun c => dequantize7 (quantize7 c)) ∧
  (∀ (px : List Color) (user : RunUser) (a : Nat),
    ∃ d, rleDecode dequantize15 2 (packed16sOf (bytesOf16 (rleEncode 32767 (px.map quantize15)))) (RunDec.start user a) =
      .ok d ∧ d.out = px.map fun c => dequantize15 (quantize15 c))

/-- What 42 R122 says of the encoder's output, (a) to (f), for the width of `n` bits and its `max_run`, the packed values
in their `n + 1` bits being `bits`. -/
def RleOutputShape (n maxRun : Nat) (bits : Packed n → Nat) : Prop :=
  ∀ vals : List (BitVec n),
    (vals ≠ [] → ∃ v, (rleEncode maxRun vals)[0]? = some (.lit v)) ∧
    (∀ c, .run c ∈ rleEncode maxRun vals → 1 ≤ c.toNat ∧ c.toNat ≤ maxRun) ∧
    (∀ i c, (rleEncode maxRun vals)[i]? = some (.run c) →
      ∃ j v, i = j + 1 ∧ (rleEncode maxRun vals)[j]? = some (.lit v)) ∧
    (∀ i v w, (rleEncode maxRun vals)[i]? = some (.lit v) → (rleEncode maxRun vals)[i + 1]? = some (.lit w) → v ≠ w) ∧
    (∀ i v c, (rleEncode maxRun vals)[i]? = some (.lit v) → (rleEncode maxRun vals)[i + 1]? = some (.run c) →
      (rleEncode maxRun vals)[i + 2]? = some (.lit v) → c.toNat = maxRun) ∧
    (∀ p ∈ rleEncode maxRun vals, bits p < 2 ^ (n + 1)) ∧
    (rleEncode maxRun vals).length ≤ vals.length

/-- The encoder's output in both widths: a literal first, counts 1 to max_run, a literal before every marker, no equal
adjacent literals, a repeated literal only after a full run, and no expansion (42 R122). -/
def Obligations.RleEncodeOutputShape : Prop :=
  RleOutputShape 7 127 (fun p => (pack8 p).toNat) ∧ RleOutputShape 15 32767 (fun p => (pack16 p).toNat)

/-- The encoding of `k` equal values: `q` full pairs, a literal, and a last run marker where a rest is left (42 R123). -/
def rleBlock {n : Nat} (maxRun : Nat) (v : BitVec n) (k : Nat) : List (Packed n) :=
  (List.replicate ((k - 1) / (maxRun + 1)) [Packed.lit v, Packed.run (BitVec.ofNat n maxRun)]).flatten ++
    (Packed.lit v :: if 0 < (k - 1) % (maxRun + 1) then [Packed.run (BitVec.ofNat n ((k - 1) % (maxRun + 1)))] else [])

/-- A block of `k ≥ 1` equal values with a different value, or nothing, on each side encodes as 42 R123 says, wherever it
stands. -/
def Obligations.RleEncodeOfABlock : Prop :=
  (∀ (v : BitVec 7) (k : Nat) (before after : List (BitVec 7)), 1 ≤ k → before.getLast? ≠ some v → after.head? ≠ some v →
    rleEncode 127 (before ++ List.replicate k v ++ after) =
      rleEncode 127 before ++ rleBlock 127 v k ++ rleEncode 127 after) ∧
  (∀ (v : BitVec 15) (k : Nat) (before after : List (BitVec 15)), 1 ≤ k → before.getLast? ≠ some v →
    after.head? ≠ some v →
    rleEncode 32767 (before ++ List.replicate k v ++ after) =
      rleEncode 32767 before ++ rleBlock 32767 v k ++ rleEncode 32767 after)

/-- Only one thing is malformed for the run-length decoder: a run marker before the first literal. It is reported with the
marker's own offset (42 R128, R124). -/
def Obligations.OnlyALeadingRunIsMalformed : Prop :=
  ∀ (n : Nat) (deq : BitVec n → Color) (width : Nat) (ps : List (Packed n)) (user : RunUser) (a : Nat),
    ((∃ e, rleDecode deq width ps (RunDec.start user a) = .error e) ↔ ∃ c rest, ps = .run c :: rest) ∧
    (∀ e, rleDecode deq width ps (RunDec.start user a) = .error e → e = a)

/-- LIT8, LIT16, and RUN8, RUN16 after a literal, in every state: the literal's dequantized colour is emitted and becomes
the current colour; a run emits the current colour count times, none for count 0 (42 R124, R126). The registers that hold
this between packed values are the model's (log 6). -/
def Obligations.PackedValuesEmitPixels : Prop :=
  (∀ (s : State) (r : BitVec 3) (g b : BitVec 2), exec (.lit8 r g b) s = .next { s with work := { s.work with
    runDec := { s.work.runDec with
      curValid := true
      cur := ⟨BitVec.ofNat 8 (r.toNat * 32 + 16), BitVec.ofNat 8 (g.toNat * 64 + 16), BitVec.ofNat 8 (b.toNat * 64 + 16)⟩
      out := s.work.runDec.out ++
        [⟨BitVec.ofNat 8 (r.toNat * 32 + 16), BitVec.ofNat 8 (g.toNat * 64 + 16), BitVec.ofNat 8 (b.toNat * 64 + 16)⟩]
      offset := s.work.runDec.offset + 1 } } }) ∧
  (∀ (s : State) (r g b : BitVec 5), exec (.lit16 r g b) s = .next { s with work := { s.work with
    runDec := { s.work.runDec with
      curValid := true
      cur := ⟨BitVec.ofNat 8 (r.toNat * 8 + 4), BitVec.ofNat 8 (g.toNat * 8 + 4), BitVec.ofNat 8 (b.toNat * 8 + 4)⟩
      out := s.work.runDec.out ++
        [⟨BitVec.ofNat 8 (r.toNat * 8 + 4), BitVec.ofNat 8 (g.toNat * 8 + 4), BitVec.ofNat 8 (b.toNat * 8 + 4)⟩]
      offset := s.work.runDec.offset + 2 } } }) ∧
  (∀ (s : State) (c : BitVec 7), s.work.runDec.curValid = true →
    exec (.run8 c) s = .next { s with work := { s.work with runDec := { s.work.runDec with
      out := s.work.runDec.out ++ List.replicate c.toNat s.work.runDec.cur
      offset := s.work.runDec.offset + 1 } } }) ∧
  (∀ (s : State) (c : BitVec 15), s.work.runDec.curValid = true →
    exec (.run16 c) s = .next { s with work := { s.work with runDec := { s.work.runDec with
      out := s.work.runDec.out ++ List.replicate c.toNat s.work.runDec.cur
      offset := s.work.runDec.offset + 2 } } })

/-- RUN8 and RUN16 with no literal before them are MalformedRun, whatever their count: an FU error or a DEC stream error
at the marker's offset, by the unit whose payload is decoded (42 R124, R126, 60 R231, R236). Which unit that is, a packed
value as an instruction reads from the model's registers (log 6), and that it does so in every D_STATE is the model's choice
(log 29); that no cell of FU_OUT or PIXOUT is listed after the error is the model's form of 'unspecified' (log 10). -/
def Obligations.RunBeforeLiteralIsMalformed : Prop :=
  ∀ s : State, s.work.runDec.curValid = false →
    (s.work.runDec.user = .fu →
      (∀ c, exec (.run8 c) s = .next { s with fu := { s.fu with err := 5#8, outLen := 0#32, fuOut := [] } }) ∧
      (∀ c, exec (.run16 c) s = .next { s with fu := { s.fu with err := 5#8, outLen := 0#32, fuOut := [] } })) ∧
    (s.work.runDec.user = .dec →
      (∀ c, exec (.run8 c) s = .next { s with dec := s.dec.faulted 5#8 s.work.runDec.offset }) ∧
      (∀ c, exec (.run16 c) s = .next { s with dec := s.dec.faulted 5#8 s.work.runDec.offset }))

/-- RLE_ENC8: FU_OUT is the run-length code of the quantized pixels, one byte a value, F_OUT_LEN its length, which
is at most the number of pixels, F_ERR 0; refused when the input exceeds FU_MAX (42 R130). That the bytes past the output
are dropped, since they are unspecified, is the model's form of it (log 10, log 11). -/
def Obligations.RleEnc8Result : Prop :=
  decode .command [0x34#8] = .ok (.rleEnc8, []) ∧
  ∀ (s : State) (px : List Color), px.length = s.fu.inLen.toNat →
    (s.params.fuMax < 3 * px.length → exec .rleEnc8 s = .refused (.bufferTooLarge (3 * px.length))) ∧
    (3 * px.length ≤ s.params.fuMax → Memory.Holds s.fuIn 0 (pixelBytes px) →
      ∃ t, exec .rleEnc8 s = .next t ∧
        t.fu = { s.fu with
          fuOut := Memory.ofList 0 (bytesOf8 (rleEncode 127 (px.map quantize7)))
          outLen := BitVec.ofNat 32 (rleEncode 127 (px.map quantize7)).length
          err := 0#8 } ∧
        (rleEncode 127 (px.map quantize7)).length ≤ px.length ∧
        t = { s with fu := t.fu, work := t.work })

/-- RLE_ENC16: FU_OUT is the run-length code of the quantized pixels, two bytes a value big-endian, F_OUT_LEN twice the
count of values where it fits the register (log 27), F_ERR 0; refused when the input exceeds FU_MAX (42 R132). That FU_OUT
keeps no byte past the output is the model's form of 'unspecified' (log 10, log 11). -/
def Obligations.RleEnc16Result : Prop :=
  decode .command [0x36#8] = .ok (.rleEnc16, []) ∧
  ∀ (s : State) (px : List Color), px.length = s.fu.inLen.toNat →
    (s.params.fuMax < 3 * px.length → exec .rleEnc16 s = .refused (.bufferTooLarge (3 * px.length))) ∧
    (3 * px.length ≤ s.params.fuMax → Memory.Holds s.fuIn 0 (pixelBytes px) →
      ∃ t, exec .rleEnc16 s = .next t ∧
        t.fu = { s.fu with
          fuOut := Memory.ofList 0 ((rleEncode 32767 (px.map quantize15)).flatMap fun p => be16 (pack16 p))
          outLen := t.fu.outLen
          err := 0#8 } ∧
        (2 * (rleEncode 32767 (px.map quantize15)).length < 2 ^ 32 →
          t.fu.outLen = BitVec.ofNat 32 (2 * (rleEncode 32767 (px.map quantize15)).length) ∧ t.draws = s.draws) ∧
        t = { s with fu := t.fu, work := t.work, draws := t.draws })

/-- RLE_DEC8: a leading run marker is MalformedRun; else FU_OUT is the decoded pixels, F_OUT_LEN their count where it fits
the register (log 27); refused when input or output exceeds FU_MAX (42 R131). That FU_OUT keeps no byte past the output,
and none after an error, is the model's form of 'unspecified' (log 10, log 11). -/
def Obligations.RleDec8Result : Prop :=
  decode .command [0x35#8] = .ok (.rleDec8, []) ∧
  ∀ (s : State) (ps : List Byte), ps.length = s.fu.inLen.toNat →
    (s.params.fuMax < ps.length → exec .rleDec8 s = .refused (.bufferTooLarge ps.length)) ∧
    (ps.length ≤ s.params.fuMax → Memory.Holds s.fuIn 0 ps →
      (∀ a, rleDecode dequantize7 1 (ps.map unpack8) (RunDec.start .fu 0) = .error a →
        exec .rleDec8 s = .next { s with fu := { s.fu with err := 5#8, outLen := 0#32, fuOut := [] } }) ∧
      (∀ d, rleDecode dequantize7 1 (ps.map unpack8) (RunDec.start .fu 0) = .ok d →
        (s.params.fuMax < 3 * d.out.length → exec .rleDec8 s = .refused (.bufferTooLarge (3 * d.out.length))) ∧
        (3 * d.out.length ≤ s.params.fuMax →
          ∃ t, exec .rleDec8 s = .next t ∧
            t.fu = { s.fu with fuOut := Memory.ofList 0 (pixelBytes d.out), outLen := t.fu.outLen, err := 0#8 } ∧
            (d.out.length < 2 ^ 32 → t.fu.outLen = BitVec.ofNat 32 d.out.length ∧ t.draws = s.draws) ∧
            t = { s with fu := t.fu, work := t.work, draws := t.draws })))

/-- RLE_DEC16: an odd length is PayloadMismatch, whatever the bytes; a leading run marker is MalformedRun; else FU_OUT is
the decoded pixels, F_OUT_LEN their count where it fits the register (log 27); refused when input or output exceeds FU_MAX
(42 R133). That FU_OUT keeps no byte past the output, and none after an error, is the model's form of 'unspecified'
(log 10, log 11). -/
def Obligations.RleDec16Result : Prop :=
  decode .command [0x37#8] = .ok (.rleDec16, []) ∧
  ∀ s : State,
    (s.params.fuMax < s.fu.inLen.toNat → exec .rleDec16 s = .refused (.bufferTooLarge s.fu.inLen.toNat)) ∧
    (s.fu.inLen.toNat ≤ s.params.fuMax → s.fu.inLen.toNat % 2 = 1 →
      exec .rleDec16 s = .next { s with fu := { s.fu with err := 9#8, outLen := 0#32, fuOut := [] } }) ∧
    (∀ ps : List (BitVec 16), 2 * ps.length = s.fu.inLen.toNat → 2 * ps.length ≤ s.params.fuMax →
      Memory.Holds s.fuIn 0 (ps.flatMap be16) →
      (∀ a, rleDecode dequantize15 2 (ps.map unpack16) (RunDec.start .fu 0) = .error a →
        exec .rleDec16 s = .next { s with fu := { s.fu with err := 5#8, outLen := 0#32, fuOut := [] } }) ∧
      (∀ d, rleDecode dequantize15 2 (ps.map unpack16) (RunDec.start .fu 0) = .ok d →
        (s.params.fuMax < 3 * d.out.length → exec .rleDec16 s = .refused (.bufferTooLarge (3 * d.out.length))) ∧
        (3 * d.out.length ≤ s.params.fuMax →
          ∃ t, exec .rleDec16 s = .next t ∧
            t.fu = { s.fu with fuOut := Memory.ofList 0 (pixelBytes d.out), outLen := t.fu.outLen, err := 0#8 } ∧
            (d.out.length < 2 ^ 32 → t.fu.outLen = BitVec.ofNat 32 d.out.length ∧ t.draws = s.draws) ∧
            t = { s with fu := t.fu, work := t.work, draws := t.draws })))

/-! ### Header -/

/-- WRITE_HEADER: in Created, the 15 bytes MAGIC, frame_rate, width, height, scales, frame_count (big-endian) are stored
from E_CURSOR on, no other byte of ESTREAM changes, E_CURSOR moves by 15, E_STATE is HeaderWritten, and nothing else
changes; in any other state nothing but E_ERR changes (44 R170). -/
def Obligations.WriteHeaderResult : Prop :=
  ∀ s : State,
    (s.enc.state ≠ 0#2 → exec .writeHeader s = .next { s with enc := { s.enc with err := 3#8 } }) ∧
    (s.enc.state = 0#2 →
      ∃ t, exec .writeHeader s = .next t ∧
        Memory.Holds t.enc.estream s.enc.cursor.toNat
          ([s.params.magic.b0, s.params.magic.b1, s.params.magic.b2, s.params.magic.b3, s.enc.header.frameRate] ++
            be16 s.enc.header.width ++ be16 s.enc.header.height ++ [s.enc.header.hscale, s.enc.header.vscale] ++
            be32 s.enc.header.frameCount) ∧
        Memory.SameOutside s.enc.estream t.enc.estream s.enc.cursor.toNat 15 ∧
        t = { s with enc := { s.enc with
          estream := t.enc.estream, cursor := s.enc.cursor + 15#64, state := 1#2, err := 0#8 } })

/-- READ_HEADER in Created on a stream that starts with MAGIC and eleven header bytes: the six fields, the derived fields,
cursor 15, index 0, HeaderRead; nothing else changes (44 R171, 30 R61). -/
def Obligations.ReadHeaderParses : Prop :=
  ∀ (s : State) (fr w1 w0 h1 h0 hs vs c3 c2 c1 c0 : Byte), s.dec.state = 0#2 →
    StreamAt s 0 [s.params.magic.b0, s.params.magic.b1, s.params.magic.b2, s.params.magic.b3, fr, w1, w0, h1, h0, hs, vs,
      c3, c2, c1, c0] →
      exec .readHeader s = .next { s with dec := { s.dec with
        header := {
          frameRate := fr
          width := BitVec.ofNat 16 (w1.toNat * 256 + w0.toNat)
          height := BitVec.ofNat 16 (h1.toNat * 256 + h0.toNat)
          hscale := hs
          vscale := vs
          frameCount := BitVec.ofNat 32 (c3.toNat * 16777216 + c2.toNat * 65536 + c1.toNat * 256 + c0.toNat) }
        headerSize := 15#64
        fileSize := BitVec.ofNat 64 s.dlen
        cursor := 15#64
        frameIdx := 0#64
        state := 1#2
        err := 0#8 } }

/-- READ_HEADER outside Created is a ProtocolViolation that changes nothing but D_ERR. In Created, on a stream that is not a
header: InvalidMagic at 0 when the stream is shorter than the magic or differs from it, TruncatedRead at the first field
that does not fit when the magic matches (44 R171, 60 R231, 92 D18). That PIXOUT lists no cell after a stream error is the
model's form of 'unspecified' (log 10). -/
def Obligations.ReadHeaderErrors : Prop :=
  ∀ s : State,
    (s.dec.state ≠ 0#2 → exec .readHeader s = .next { s with dec := { s.dec with err := 3#8 } }) ∧
    (s.dec.state = 0#2 → (∀ a < s.dlen, (Memory.read s.dstream a).isSome = true) →
      (s.dlen < 4 → exec .readHeader s = .next { s with dec := s.dec.faulted 2#8 0 }) ∧
      (4 ≤ s.dlen →
        ¬ Memory.Holds s.dstream 0 [s.params.magic.b0, s.params.magic.b1, s.params.magic.b2, s.params.magic.b3] →
          exec .readHeader s = .next { s with dec := s.dec.faulted 2#8 0 }) ∧
      (4 ≤ s.dlen → s.dlen < 15 →
        Memory.Holds s.dstream 0 [s.params.magic.b0, s.params.magic.b1, s.params.magic.b2, s.params.magic.b3] →
          exec .readHeader s = .next { s with dec := (s.dec.faulted 1#8
            (if s.dlen < 5 then 4 else if s.dlen < 7 then 5 else if s.dlen < 9 then 7 else if s.dlen < 10 then 9
              else if s.dlen < 11 then 10 else 11)) }))

/-- A header that WRITE_HEADER wrote, placed at the start of DSTREAM, makes READ_HEADER return the six values that were
written (44 R173). -/
def Obligations.HeaderRoundTrips : Prop :=
  ∀ s t d : State, s.enc.state = 0#2 → s.enc.cursor = 0#64 → exec .writeHeader s = .next t →
    d.params.magic = s.params.magic → d.dec.state = 0#2 → 15 ≤ d.dlen →
    (∀ a < 15, Memory.read d.dstream a = Memory.read t.enc.estream a) →
      ∃ u, exec .readHeader d = .next u ∧ u.dec.header = s.enc.header ∧ u.dec.state = 1#2 ∧ u.dec.err = 0#8

/-! ### Frame records -/

/-- A RAW record at D_CURSOR: more than a full frame is PayloadMismatch; else, its prefix lying inside the stream as every
fetch gives it, the whole pixels among the payload bytes that exist are delivered, SHORT says whether bytes were missing,
and the cursor moves by the record's own size (43 R143, 45 R184, 60 R231). That a record runs as an instruction, its prefix
taken as fetched, is the model's choice (log 5), and so is the form of unspecified PIXOUT cells (log 10, log 11). -/
def Obligations.RawRecordDelivers : Prop :=
  ∀ (s : State) (size : BitVec 32) (px : List Color) (tail : List Byte), FrameReady s →
    (3 * s.dec.header.pixels < size.toNat →
      exec (.raw size) s = .next { s with dec := s.dec.faulted 9#8 s.dec.cursor.toNat }) ∧
    (size.toNat ≤ 3 * s.dec.header.pixels → s.dec.cursor.toNat + 5 ≤ s.dlen →
      Memory.Holds s.dstream (s.dec.cursor.toNat + 5) (pixelBytes px ++ tail) → tail.length < 3 →
      3 * px.length + tail.length = min size.toNat (s.dlen - (s.dec.cursor.toNat + 5)) →
        exec (.raw size) s = .next { s with dec := (s.dec.delivered px
          (decide (3 * px.length + tail.length < 3 * s.dec.header.pixels)) size.toNat) })

/-- READ_FRAME on a RAW record: a whole payload delivers its pixels with SHORT clear (45 R183, R184,
43 R143). The form of unspecified PIXOUT cells is the model's (log 10, log 11). -/
def Obligations.ReadFrameDeliversRawRecord : Prop :=
  ∀ (s : State) (size : BitVec 32) (px : List Color), FrameReady s →
    size.toNat = 3 * px.length → px.length = s.dec.header.pixels →
    StreamAt s s.dec.cursor.toNat (0x01#8 :: be32 size ++ pixelBytes px) →
      exec .readFrame s = .next { s with dec := s.dec.delivered px false size.toNat }

/-- A COLOR_MAPPED record at D_CURSOR, with a payload of palette size `P`, palette `pal` and indices `idx`: the frame of
the palette's colours; and each way it fails, in the order of the rule (43 R145, 45 R184, 60 R231). That a record runs as an
instruction, its prefix taken as fetched, is the model's choice (log 5), and so are the palette left in a command-local
register (log 7) and the form of unspecified PIXOUT cells (log 10, log 11). -/
def Obligations.ColorMappedRecordDelivers : Prop :=
  ∀ (s : State) (size : BitVec 32), FrameReady s →
    (size = 0#32 → exec (.colorMapped size) s = .next { s with dec := s.dec.faulted 9#8 s.dec.cursor.toNat }) ∧
    (size ≠ 0#32 → s.dlen ≤ s.dec.cursor.toNat + 5 →
      exec (.colorMapped size) s = .next { s with dec := s.dec.faulted 1#8 (s.dec.cursor.toNat + 5) }) ∧
    (∀ P : Byte, size ≠ 0#32 → StreamAt s (s.dec.cursor.toNat + 5) [P] →
      size.toNat ≠ 1 + 3 * P.toNat + s.dec.header.pixels →
        exec (.colorMapped size) s = .next { s with dec := s.dec.faulted 9#8 s.dec.cursor.toNat }) ∧
    (∀ (P : Byte) (pal : List Color), size.toNat = 1 + 3 * P.toNat + s.dec.header.pixels →
      pal.length < P.toNat → StreamAt s (s.dec.cursor.toNat + 5) (P :: pixelBytes pal) →
      s.dlen < s.dec.cursor.toNat + 5 + 1 + 3 * pal.length + 3 →
        exec (.colorMapped size) s =
          .next { s with dec := s.dec.faulted 1#8 (s.dec.cursor.toNat + 5 + 1 + 3 * pal.length) }) ∧
    (∀ (P : Byte) (pal : List Color) (idx : List Byte), size.toNat = 1 + 3 * P.toNat + s.dec.header.pixels →
      pal.length = P.toNat → (∀ k ∈ idx, k.toNat < pal.length) →
      StreamAt s (s.dec.cursor.toNat + 5) (P :: pixelBytes pal ++ idx) →
      (idx.length < s.dec.header.pixels → s.dlen = s.dec.cursor.toNat + 5 + 1 + 3 * pal.length + idx.length →
        exec (.colorMapped size) s =
          .next { s with dec := s.dec.faulted 1#8 (s.dec.cursor.toNat + 5 + 1 + 3 * pal.length + idx.length) }) ∧
      (∀ bad : Byte, idx.length < s.dec.header.pixels → pal.length ≤ bad.toNat →
        StreamAt s (s.dec.cursor.toNat + 5 + 1 + 3 * pal.length + idx.length) [bad] →
        exec (.colorMapped size) s =
          .next { s with dec := s.dec.faulted 10#8 (s.dec.cursor.toNat + 5 + 1 + 3 * pal.length + idx.length) }) ∧
      (∀ frame : List Color, idx.length = s.dec.header.pixels → idx.map (fun k => pal[k.toNat]?) = frame.map some →
        exec (.colorMapped size) s = .next { s with
          dec := s.dec.delivered frame false size.toNat, work := { s.work with pal := pal } }))

/-- A QUANTIZED_8 record at D_CURSOR, with the packed values `ps` that the stream holds of it: the decoded pixels when they
are exactly a frame; MalformedRun, PayloadMismatch and TruncatedRead as the rule gives them (43 R147, 45 R184, 60 R231).
That a record runs as an instruction, its prefix taken as fetched, is the model's choice (log 5), and so are the run-length
registers left after it (log 7) and the form of unspecified PIXOUT cells (log 10, log 11). -/
def Obligations.Quantized8RecordDelivers : Prop :=
  ∀ (s : State) (size : BitVec 32) (ps : List Byte), FrameReady s →
    StreamAt s (s.dec.cursor.toNat + 5) ps → ps.length ≤ size.toNat →
    (∀ a, rleDecode dequantize7 1 (ps.map unpack8) (RunDec.start .dec (s.dec.cursor.toNat + 5)) = .error a →
      exec (.quantized8 size) s = .next { s with dec := s.dec.faulted 5#8 a }) ∧
    (∀ d, rleDecode dequantize7 1 (ps.map unpack8) (RunDec.start .dec (s.dec.cursor.toNat + 5)) = .ok d →
      (s.dec.header.pixels < d.out.length →
        exec (.quantized8 size) s = .next { s with dec := s.dec.faulted 9#8 s.dec.cursor.toNat }) ∧
      (d.out.length ≤ s.dec.header.pixels → ps.length < size.toNat → s.dlen = s.dec.cursor.toNat + 5 + ps.length →
        exec (.quantized8 size) s = .next { s with dec := s.dec.faulted 1#8 s.dlen }) ∧
      (ps.length = size.toNat → d.out.length < s.dec.header.pixels →
        exec (.quantized8 size) s = .next { s with dec := s.dec.faulted 9#8 s.dec.cursor.toNat }) ∧
      (ps.length = size.toNat → d.out.length = s.dec.header.pixels →
        exec (.quantized8 size) s = .next { s with
          dec := s.dec.delivered d.out false size.toNat, work := { s.work with runDec := d } }))

/-- A QUANTIZED_16 record at D_CURSOR: an odd size is PayloadMismatch before any byte is read; else, with the packed values
`ps` that the stream holds of it, as QUANTIZED_8 in the 16-bit width (43 R149, 45 R184, 60 R231). That a record runs as an
instruction, its prefix taken as fetched, is the model's choice (log 5), and so are the run-length registers left after it
(log 7) and the form of unspecified PIXOUT cells (log 10, log 11). -/
def Obligations.Quantized16RecordDelivers : Prop :=
  ∀ (s : State) (size : BitVec 32), FrameReady s →
    (size.toNat % 2 = 1 →
      exec (.quantized16 size) s = .next { s with dec := s.dec.faulted 9#8 s.dec.cursor.toNat }) ∧
    (∀ ps : List (BitVec 16), size.toNat % 2 = 0 → StreamAt s (s.dec.cursor.toNat + 5) (ps.flatMap be16) →
      2 * ps.length ≤ size.toNat →
      (∀ a, rleDecode dequantize15 2 (ps.map unpack16) (RunDec.start .dec (s.dec.cursor.toNat + 5)) = .error a →
        exec (.quantized16 size) s = .next { s with dec := s.dec.faulted 5#8 a }) ∧
      (∀ d, rleDecode dequantize15 2 (ps.map unpack16) (RunDec.start .dec (s.dec.cursor.toNat + 5)) = .ok d →
        (s.dec.header.pixels < d.out.length →
          exec (.quantized16 size) s = .next { s with dec := s.dec.faulted 9#8 s.dec.cursor.toNat }) ∧
        (d.out.length ≤ s.dec.header.pixels → 2 * ps.length < size.toNat →
          s.dlen < s.dec.cursor.toNat + 5 + 2 * ps.length + 2 →
          exec (.quantized16 size) s =
            .next { s with dec := s.dec.faulted 1#8 (s.dec.cursor.toNat + 5 + 2 * ps.length) }) ∧
        (2 * ps.length = size.toNat → d.out.length < s.dec.header.pixels →
          exec (.quantized16 size) s = .next { s with dec := s.dec.faulted 9#8 s.dec.cursor.toNat }) ∧
        (2 * ps.length = size.toNat → d.out.length = s.dec.header.pixels →
          exec (.quantized16 size) s = .next { s with
            dec := s.dec.delivered d.out false size.toNat, work := { s.work with runDec := d } })))

/-- A REPEATED record at D_CURSOR: with a payload PayloadMismatch, with nothing decoded yet NoPreviousFrame, else the last
decoded frame again, SHORT clear even when it is a partial one (43 R151, 45 R184, 60 R231). That a record runs as an
instruction, and needs no prefix at D_CURSOR, is the model's choice (log 5), and so is the form of unspecified PIXOUT cells
(log 10, log 11). -/
def Obligations.RepeatedRecordDelivers : Prop :=
  ∀ (s : State) (size : BitVec 32), FrameReady s →
    (size ≠ 0#32 → exec (.repeated size) s = .next { s with dec := s.dec.faulted 9#8 s.dec.cursor.toNat }) ∧
    (size = 0#32 → s.dec.lastValid = false →
      exec (.repeated size) s = .next { s with dec := s.dec.faulted 6#8 s.dec.cursor.toNat }) ∧
    (size = 0#32 → s.dec.lastValid = true →
      exec (.repeated size) s = .next { s with dec := s.dec.delivered s.dec.lastFrame false 0 })

/-! ### DEC commands -/

/-- The state check of the frame commands: outside HeaderRead nothing but D_ERR changes, and it is ProtocolViolation; in
HeaderRead a resolution above NPIX_MAX makes READ_FRAME refused; SKIP_FRAME and SEEK are never refused (45 R180). -/
def Obligations.FrameCommandStateCheck : Prop :=
  ∀ s : State,
    (s.dec.state ≠ 1#2 → ∀ i ∈ [Instr.readFrame, Instr.skipFrame, Instr.seek],
      exec i s = .next { s with dec := { s.dec with err := 3#8 } }) ∧
    (s.dec.state = 1#2 → s.params.npixMax < s.dec.header.pixels →
      exec .readFrame s = .refused (.frameTooLarge s.dec.header.pixels)) ∧
    NotRefused (exec .skipFrame s) ∧ NotRefused (exec .seek s)

/-- Instruction `i` comes to fetch the record at offset `a`: SKIP_FRAME and READ_FRAME at D_CURSOR; SEEK at the offset of a
record before its target, from record 0 when the target lies behind D_FRAME_IDX and else from D_FRAME_IDX on (45 R183, R186,
R187). -/
def ComesToFetch (s : State) (i : Instr) (a : Nat) : Prop :=
  (i = .skipFrame ∧ a = s.dec.cursor.toNat) ∨
  (i = .readFrame ∧ s.dec.header.pixels ≤ s.params.npixMax ∧ a = s.dec.cursor.toNat) ∨
  (i = .seek ∧ ∃ k, RecordAt s k a ∧ k < s.dec.header.frameCount.toNat * s.dec.progress.toNat / 2 ^ 31 ∧
    ((s.dec.header.frameCount.toNat * s.dec.progress.toNat / 2 ^ 31 < s.dec.frameIdx.toNat ∧
        s.dec.headerSize = 15#64) ∨
      (s.dec.frameIdx.toNat ≤ k ∧ RecordAt s s.dec.frameIdx.toNat s.dec.cursor.toNat)))

/-- The errors of a record fetch, in READ_FRAME, in SKIP_FRAME and in every skip of a SEEK: no tag byte, no whole size field
(whatever the tag), and a tag outside 1 to 5, which reports UnknownFrameType at the tag and faults DEC. The offset is that of
the failing record or field; D_CURSOR and D_FRAME_IDX keep their values from before the command, a SEEK that skipped records
included (45 R181, R185, R187, 60 R221, R231). That PIXOUT lists no cell after a stream error is the model's form of
'unspecified' (log 10). -/
def Obligations.RecordFetchErrors : Prop :=
  ∀ (s : State) (i : Instr) (a : Nat), s.dec.state = 1#2 → ComesToFetch s i a →
    (s.dlen ≤ a → exec i s = .next { s with dec := s.dec.faulted 1#8 a }) ∧
    (∀ tag : Byte, StreamAt s a [tag] → s.dlen < a + 5 →
      exec i s = .next { s with dec := s.dec.faulted 1#8 (a + 1) }) ∧
    (∀ tag b3 b2 b1 b0 : Byte, StreamAt s a [tag, b3, b2, b1, b0] → (tag.toNat = 0 ∨ 5 < tag.toNat) →
      exec i s = .next { s with dec := s.dec.faulted 4#8 a })

/-- SKIP_FRAME over a record with a valid prefix: the cursor moves by 5 plus the size, the index by one, whatever the
payload is and whether or not its bytes exist; nothing else changes (45 R186). -/
def Obligations.SkipFrameMovesPastRecord : Prop :=
  ∀ (s : State) (ft : FrameType) (size : BitVec 32), s.dec.state = 1#2 → PrefixAt s s.dec.cursor.toNat ft size →
    exec .skipFrame s = .next { s with dec := { s.dec with
      cursor := BitVec.ofNat 64 (s.dec.cursor.toNat + 5 + size.toNat)
      frameIdx := s.dec.frameIdx + 1#64
      err := 0#8 } }

/-- SEEK from any record to any record of well-formed prefixes: D_FRAME_IDX is floor(frame_count × progress) and D_CURSOR
is the offset of that record, whatever the position before; nothing else changes (45 R187, R188). -/
def Obligations.SeekReachesTheTarget : Prop :=
  ∀ (s : State) (off : Nat), s.dec.state = 1#2 → s.dec.headerSize = 15#64 →
    RecordAt s s.dec.frameIdx.toNat s.dec.cursor.toNat →
    RecordAt s (s.dec.header.frameCount.toNat * s.dec.progress.toNat / 2 ^ 31) off →
      exec .seek s = .next { s with dec := { s.dec with
        cursor := BitVec.ofNat 64 off
        frameIdx := BitVec.ofNat 64 (s.dec.header.frameCount.toNat * s.dec.progress.toNat / 2 ^ 31)
        err := 0#8 } }

/-- A stream error is precise: an instruction that faults DEC changes the error code, the error offset, D_STATE, D_OUT_COUNT
and PIXOUT, and nothing else at all, and the code is one of the stream errors (60 R231). It covers a SEEK that fails after
several skips. That PIXOUT lists no cell then is the model's form of 'unspecified' (log 10). -/
def Obligations.StreamErrorIsPrecise : Prop :=
  ∀ (i : Instr) (s t : State), exec i s = .next t → s.dec.state ≠ 3#2 → t.dec.state = 3#2 →
    ∃ code offset, t = { s with dec := s.dec.faulted code offset } ∧
      code ∈ [1#8, 2#8, 4#8, 5#8, 6#8, 9#8, 10#8]

/-- Closed and Faulted are left only by RESET and DRESET: any other step keeps D_STATE and D_ERR_OFFSET, and every DEC
command but those two is a ProtocolViolation (60 R232, R233). That the low byte of the value written to CMD is the command is
the model's choice (log 15). -/
def Obligations.FaultedUntilReset : Prop :=
  ∀ s t : State, (s.dec.state = 2#2 ∨ s.dec.state = 3#2) → step s = .next t →
    (∀ v rest, s.pending = .writeReg 0 v :: rest → v.toNat % 256 ≠ 0x01 ∧ v.toNat % 256 ≠ 0x1F) →
      t.dec.state = s.dec.state ∧ t.dec.errOffset = s.dec.errOffset ∧
      (∀ v rest, s.pending = .writeReg 0 v :: rest → 0x10 ≤ v.toNat % 256 → v.toNat % 256 ≤ 0x14 →
        t = { s with pending := rest, dec := { s.dec with err := 3#8 } })

/-- DCLOSE and ECLOSE: to Closed from Created or HeaderRead (HeaderWritten), changing nothing but the state and ERR = 0; a
ProtocolViolation that changes nothing but ERR from Closed, and for DCLOSE from Faulted (45 R189, 46 R205). -/
def Obligations.CloseCommands : Prop :=
  ∀ s : State,
    ((s.dec.state = 2#2 ∨ s.dec.state = 3#2) →
      exec .dclose s = .next { s with dec := { s.dec with err := 3#8 } }) ∧
    (s.dec.state ≠ 2#2 → s.dec.state ≠ 3#2 →
      exec .dclose s = .next { s with dec := { s.dec with state := 2#2, err := 0#8 } }) ∧
    (s.enc.state = 2#2 → exec .eclose s = .next { s with enc := { s.enc with err := 3#8 } }) ∧
    (s.enc.state ≠ 2#2 → exec .eclose s = .next { s with enc := { s.enc with state := 2#2, err := 0#8 } })

/-- DRESET, ERESET and RESET in every state: every row of the reset table of the unit to its reset value, the other units
untouched by a unit's own reset, DSTREAM, DLEN and the parameters kept (70 R251, R252, R253). An empty list of cells says
that the contents are unspecified (log 10, log 12). -/
def Obligations.ResetCommands : Prop :=
  let header : Header := ⟨0#8, 0#16, 0#16, 0#8, 0#8, 0#32⟩
  let dec : Decoder := ⟨0#2, 0#8, 0#64, false, false, header, 0#64, 0#64, 0#64, 0#64, 0#32, 0#32, [], []⟩
  let enc : Encoder := ⟨0#2, 0#8, false, 0#2, header, 0#64, 0#64, [], []⟩
  let fu : FuncUnit := ⟨0#8, 0#24, 0#15, 0#32, 0#32, []⟩
  ∀ s : State,
    exec .dreset s = .next { s with dec := dec } ∧
    exec .ereset s = .next { s with enc := enc } ∧
    ∃ t, exec .reset s = .next t ∧ t.dec = dec ∧ t.enc = enc ∧ t.fu = fu ∧ t.dstream = s.dstream ∧ t.dlen = s.dlen ∧
      t.params = s.params ∧ t.pending = s.pending ∧ t.hostData = s.hostData ∧ t.draws = s.draws

/-! ### ENC commands -/

/-- `t` is `s` after ENC appended the record of `tag` and `payload` and took `px` as the previous frame: the bytes stand at
E_CURSOR, every other byte of ESTREAM is as before, and nothing else changes but command-local registers (46 R200,
R204). -/
def WroteRecord (s t : State) (tag : Byte) (payload : List Byte) (px : List Color) : Prop :=
  Memory.Holds t.enc.estream s.enc.cursor.toNat (tag :: be32 (BitVec.ofNat 32 payload.length) ++ payload) ∧
  Memory.SameOutside s.enc.estream t.enc.estream s.enc.cursor.toNat (5 + payload.length) ∧
  t = { s with
    enc := { s.enc with
      estream := t.enc.estream
      cursor := BitVec.ofNat 64 (s.enc.cursor.toNat + 5 + payload.length)
      frameIdx := s.enc.frameIdx + 1#64
      prevFrame := px
      prevValid := true
      err := 0#8 }
    work := t.work }

/-- The payload of a COLOR_MAPPED record of `px`, said without the encoder: a palette without repeats of exactly the
frame's colours in first-seen order, and the index of each pixel's colour (43 R144). -/
def ColorMappedPayload (px : List Color) (payload : List Byte) : Prop :=
  ∃ (pal : List Color) (idx : List Byte),
    payload = BitVec.ofNat 8 pal.length :: pixelBytes pal ++ idx ∧ pal.length ≤ 255 ∧ pal.Nodup ∧
    (∀ c, c ∈ pal ↔ c ∈ px) ∧ pal.Pairwise (fun c c' => px.idxOf c < px.idxOf c') ∧
    idx.map (fun k => pal[k.toNat]?) = px.map some

/-- The prechecks of WRITE_FRAME, in their order: the state before the quality, the quality whatever the frame; nothing but
E_ERR changes (46 R201). -/
def Obligations.WriteFramePrechecks : Prop :=
  ∀ s : State,
    (s.enc.state ≠ 1#2 → exec .writeFrame s = .next { s with enc := { s.enc with err := 3#8 } }) ∧
    (s.enc.state = 1#2 → s.enc.quality = 3#2 → exec .writeFrame s = .next { s with enc := { s.enc with err := 7#8 } })

/-- WRITE_FRAME of a frame equal to the previous one: the record 05 00 00 00 00, whatever the quality (46 R202,
43 R150). -/
def Obligations.EqualFrameIsRepeated : Prop :=
  ∀ (s : State) (px : List Color), WriteReady s px → s.enc.prevValid = true → s.enc.prevFrame = px →
    ∃ t, exec .writeFrame s = .next t ∧ WroteRecord s t 0x05#8 [] px

/-- WRITE_FRAME of a frame that is no repeat: fewer than 256 distinct colours give COLOR_MAPPED, else the quality level
chooses QUANTIZED_8, QUANTIZED_16 or RAW (46 R203, 43 R142, R144, R146, R148). -/
def Obligations.WriteFrameSelectsRecord : Prop :=
  ∀ (s : State) (px : List Color), WriteReady s px → ¬ (s.enc.prevValid = true ∧ s.enc.prevFrame = px) →
    ∃ t, exec .writeFrame s = .next t ∧
      (px.toFinset.card < 256 → ∃ payload, ColorMappedPayload px payload ∧ WroteRecord s t 0x02#8 payload px) ∧
      (256 ≤ px.toFinset.card → s.enc.quality = 0#2 →
        WroteRecord s t 0x04#8 ((rleEncode 127 (px.map quantize7)).map pack8) px) ∧
      (256 ≤ px.toFinset.card → s.enc.quality = 1#2 →
        WroteRecord s t 0x03#8 ((rleEncode 32767 (px.map quantize15)).flatMap fun p => be16 (pack16 p)) px) ∧
      (256 ≤ px.toFinset.card → s.enc.quality = 2#2 →
        WroteRecord s t 0x01#8 (px.flatMap fun c => [c.r, c.g, c.b]) px)

/-- The payload sizes of a frame of `N` pixels: 3N, 1 + 3P + N with P at most N and 255, at most N, at most 2N, and 0; every
one fits the 4-byte size field where N is at most NPIX_MAX's bound, and RAW is the largest from 383 pixels on (43 R141). -/
def Obligations.PayloadSizesFit : Prop :=
  ∀ (px : List Color) (work : Work),
    (rawWrite px work).payload.length = 3 * px.length ∧
    (cmapWrite px work).payload.length = 1 + 3 * (palette px).length + px.length ∧
    (palette px).length ≤ px.length ∧
    (px.toFinset.card < 256 → (palette px).length ≤ 255) ∧
    (q8Write px work).payload.length ≤ px.length ∧
    (q16Write px work).payload.length ≤ 2 * px.length ∧
    (repeatedWrite work).payload.length = 0 ∧
    (∀ q : BitVec 2, px.length ≤ 1431655765 → (selectAndEncode q px work).payload.length < 2 ^ 32) ∧
    (∀ q : BitVec 2, 383 ≤ px.length →
      (selectAndEncode q px work).payload.length ≤ (rawWrite px work).payload.length)

/-- What a frame comes back as through a record type: itself, or its round trip through a quantizer (46 R206). -/
def viewOf (ft : FrameType) (px : List Color) : List Color :=
  match ft with
  | .quantized8 => px.map fun c => dequantize7 (quantize7 c)
  | .quantized16 => px.map fun c => dequantize15 (quantize15 c)
  | .raw | .colorMapped | .repeated => px

/-- The record that WRITE_FRAME selects for any frame at any supported quality, placed whole at D_CURSOR of a decoder of the
same resolution, makes READ_FRAME complete with the frame's view, SHORT clear, the cursor at the end of the record
(43 R152, 46 R206). The form of unspecified PIXOUT cells is the model's (log 10,
log 11). -/
def Obligations.WrittenRecordReadsBack : Prop :=
  ∀ (s : State) (px : List Color) (q : BitVec 2) (work : Work), FrameReady s → px.length = s.dec.header.pixels →
    px.length ≤ 1431655765 → StreamAt s s.dec.cursor.toNat (recordBytes (selectAndEncode q px work)) →
      ∃ t, exec .readFrame s = .next t ∧
        t = { s with
          dec := s.dec.delivered (viewOf (selectAndEncode q px work).frameType px) false
            (selectAndEncode q px work).payload.length
          work := t.work }

/-- No instruction but RESET and ERESET changes a byte of ESTREAM below E_CURSOR: the stream only grows by appending
(20 R43). -/
def Obligations.WrittenBytesAreNeverRewritten : Prop :=
  ∀ (i : Instr) (s t : State), exec i s = .next t → i ≠ .reset → i ≠ .ereset →
    ∀ a < s.enc.cursor.toNat, Memory.read t.enc.estream a = Memory.read s.enc.estream a

/-- ESTREAM has exactly the bytes below E_CURSOR, and every instruction keeps it so while E_CURSOR stays clear of the end
of its 64 bits (10 R26, 20 R43). -/
def Obligations.CursorIsStreamLength : Prop :=
  ∀ (i : Instr) (s t : State), exec i s = .next t → s.params.npixMax ≤ 1431655765 →
    s.enc.cursor.toNat + 2 ^ 33 ≤ 2 ^ 64 →
    (∀ a, (Memory.read s.enc.estream a).isSome = true ↔ a < s.enc.cursor.toNat) →
      ∀ a, (Memory.read t.enc.estream a).isSome = true ↔ a < t.enc.cursor.toNat

/-! ### Whole-machine rules -/

/-- The units share no state: a DEC command or a record leaves ENC and FU alone, an ENC command DEC and FU, an FU command
DEC and ENC; and only RESET changes the host's PIXIN and FU_IN (00 R1, 20 R40). -/
def Obligations.UnitsAreIsolated : Prop :=
  ∀ (i : Instr) (s t : State), exec i s = .next t →
    ((i.space = .frameRecord ∨ i ∈ [Instr.readHeader, .readFrame, .skipFrame, .seek, .dclose, .dreset]) →
      t.enc = s.enc ∧ t.fu = s.fu) ∧
    (i ∈ [Instr.writeHeader, .writeFrame, .eclose, .ereset] → t.dec = s.dec ∧ t.fu = s.fu) ∧
    (i ∈ [Instr.quant7, .dequant7, .quant15, .dequant15, .rleEnc8, .rleDec8, .rleEnc16, .rleDec16] →
      t.dec = s.dec ∧ t.enc = s.enc) ∧
    (i ≠ .reset → t.pixin = s.pixin ∧ t.fuIn = s.fuIn) ∧
    t.params = s.params ∧ t.dstream = s.dstream ∧ t.dlen = s.dlen ∧ t.pending = s.pending

/-- A frame that exceeds NPIX_MAX is refused by READ_FRAME once the state check passes, and by WRITE_FRAME once its
prechecks pass; it is neither an error nor computed (00 R3). -/
def Obligations.OversizeFramesAreRefused : Prop :=
  ∀ s : State,
    (s.dec.state = 1#2 → s.params.npixMax < s.dec.header.pixels →
      exec .readFrame s = .refused (.frameTooLarge s.dec.header.pixels)) ∧
    (s.enc.state = 1#2 → s.enc.quality ≠ 3#2 → s.params.npixMax < s.enc.header.pixels →
      exec .writeFrame s = .refused (.frameTooLarge s.enc.header.pixels))

/-- A command that would read an input cell the host never wrote is a fault of the run, naming such a cell: WRITE_FRAME for
PIXIN; RLE_ENC8, RLE_ENC16, RLE_DEC8 and RLE_DEC16 for FU_IN up to the length they read (70 R265). That the fault stops the
run, comes after the checks of states and sizes, and names the lowest such cell, is the model's form of it (log 8, log 24).
-/
def Obligations.UnwrittenInputFaults : Prop :=
  (∀ (s : State) (i : Nat), s.enc.state = 1#2 → s.enc.quality ≠ 3#2 → s.enc.header.pixels ≤ s.params.npixMax →
    i < s.enc.header.pixels → Memory.read s.pixin i = none →
      ∃ j, exec .writeFrame s = .fault (.unwrittenPixin j) ∧ Memory.read s.pixin j = none ∧ j ≤ i) ∧
  (∀ (s : State) (i : Instr) (a : Nat), i ∈ [Instr.rleEnc8, .rleEnc16] → 3 * s.fu.inLen.toNat ≤ s.params.fuMax →
    a < 3 * s.fu.inLen.toNat → Memory.read s.fuIn a = none →
      ∃ j, exec i s = .fault (.unwrittenFuIn j) ∧ Memory.read s.fuIn j = none ∧ j ≤ a) ∧
  (∀ (s : State) (i : Instr) (a : Nat), (i = .rleDec8 ∨ (i = .rleDec16 ∧ s.fu.inLen.toNat % 2 = 0)) →
    s.fu.inLen.toNat ≤ s.params.fuMax → a < s.fu.inLen.toNat → Memory.read s.fuIn a = none →
      ∃ j, exec i s = .fault (.unwrittenFuIn j) ∧ Memory.read s.fuIn j = none ∧ j ≤ a)

/-- The header operands of ENC after a host write that gives `h`: locked unless E_STATE is Created (10 R25). -/
def lockedHeader (e : Encoder) (h : Header) : Header := if e.state = 0#2 then h else e.header

/-- A host write of a register other than CMD always completes and changes nothing but that register, in the whole state: a
writable register takes the low bits of the value, the header operands only while E_STATE is Created, and any other number
nothing. Every other register reads as before, and the written one reads back (10 R10, R25). -/
def Obligations.HostWritesRegisters : Prop :=
  ∀ (s : State) (n : Nat) (v : BitVec 64) (rest : List HostMove), n ≠ 0 → s.pending = .writeReg n v :: rest →
    ∃ t, step s = .next t ∧
      (n = 0x1F → t = { s with pending := rest, dec := { s.dec with progress := BitVec.ofNat 32 v.toNat } }) ∧
      (n = 0x23 → t = { s with pending := rest, enc := { s.enc with quality := BitVec.ofNat 2 v.toNat } }) ∧
      (n = 0x24 → t = { s with pending := rest, enc := { s.enc with
        header := lockedHeader s.enc { s.enc.header with frameRate := BitVec.ofNat 8 v.toNat } } }) ∧
      (n = 0x25 → t = { s with pending := rest, enc := { s.enc with
        header := lockedHeader s.enc { s.enc.header with width := BitVec.ofNat 16 v.toNat } } }) ∧
      (n = 0x26 → t = { s with pending := rest, enc := { s.enc with
        header := lockedHeader s.enc { s.enc.header with height := BitVec.ofNat 16 v.toNat } } }) ∧
      (n = 0x27 → t = { s with pending := rest, enc := { s.enc with
        header := lockedHeader s.enc { s.enc.header with hscale := BitVec.ofNat 8 v.toNat } } }) ∧
      (n = 0x28 → t = { s with pending := rest, enc := { s.enc with
        header := lockedHeader s.enc { s.enc.header with vscale := BitVec.ofNat 8 v.toNat } } }) ∧
      (n = 0x29 → t = { s with pending := rest, enc := { s.enc with
        header := lockedHeader s.enc { s.enc.header with frameCount := BitVec.ofNat 32 v.toNat } } }) ∧
      (n = 0x31 → t = { s with pending := rest, fu := { s.fu with color := BitVec.ofNat 24 v.toNat } }) ∧
      (n = 0x32 → t = { s with pending := rest, fu := { s.fu with value := BitVec.ofNat 15 v.toNat } }) ∧
      (n = 0x33 → t = { s with pending := rest, fu := { s.fu with inLen := BitVec.ofNat 32 v.toNat } }) ∧
      (n ∉ [0x1F, 0x23, 0x24, 0x25, 0x26, 0x27, 0x28, 0x29, 0x31, 0x32, 0x33] → t = { s with pending := rest }) ∧
      (∀ m, m ≠ n → readRegister t m = readRegister s m) ∧
      (∀ w, (n, w) ∈ [(0x1F, 32), (0x23, 2), (0x31, 24), (0x32, 15), (0x33, 32)] →
        readRegister t n = some (BitVec.ofNat 64 (v.toNat % 2 ^ w))) ∧
      (∀ w, (n, w) ∈ [(0x24, 8), (0x25, 16), (0x26, 16), (0x27, 8), (0x28, 8), (0x29, 32)] →
        readRegister t n = if s.enc.state = 0#2 then some (BitVec.ofNat 64 (v.toNat % 2 ^ w)) else readRegister s n)

/-- The register map of 10 R10: each number with the value its register holds. -/
def registerMap (s : State) : List (Nat × Nat) :=
  [(0x00, 0), (0x10, s.dec.state.toNat), (0x11, s.dec.err.toNat), (0x12, s.dec.errOffset.toNat),
    (0x13, (if s.dec.short then 1 else 0) + (if s.dec.lastValid then 2 else 0)),
    (0x14, s.dec.header.frameRate.toNat), (0x15, s.dec.header.width.toNat), (0x16, s.dec.header.height.toNat),
    (0x17, s.dec.header.hscale.toNat), (0x18, s.dec.header.vscale.toNat), (0x19, s.dec.header.frameCount.toNat),
    (0x1A, s.dec.headerSize.toNat), (0x1B, s.dec.fileSize.toNat), (0x1C, s.dec.cursor.toNat),
    (0x1D, s.dec.frameIdx.toNat), (0x1E, s.dec.outCount.toNat), (0x1F, s.dec.progress.toNat),
    (0x20, s.enc.state.toNat), (0x21, s.enc.err.toNat), (0x22, if s.enc.prevValid then 1 else 0),
    (0x23, s.enc.quality.toNat), (0x24, s.enc.header.frameRate.toNat), (0x25, s.enc.header.width.toNat),
    (0x26, s.enc.header.height.toNat), (0x27, s.enc.header.hscale.toNat), (0x28, s.enc.header.vscale.toNat),
    (0x29, s.enc.header.frameCount.toNat), (0x2A, s.enc.cursor.toNat), (0x2B, s.enc.frameIdx.toNat),
    (0x30, s.fu.err.toNat), (0x31, s.fu.color.toNat), (0x32, s.fu.value.toNat), (0x33, s.fu.inLen.toNat),
    (0x34, s.fu.outLen.toNat)]

/-- A host read of any number of the register map hands that register to the host whole, zero-extended, and changes nothing
else; a number outside the map is refused; CMD reads as 0 and the flag words have their bits where the rules put them (10 R10
to R29). The field that holds what the host read is the model's (log 17). -/
def Obligations.HostReadsRegisters : Prop :=
  ∀ (s : State) (n : Nat) (rest : List HostMove), s.pending = .readReg n :: rest →
    (∀ v, (n, v) ∈ registerMap s → step s = .next { s with pending := rest, hostData := BitVec.ofNat 64 v }) ∧
    (n ∉ (registerMap s).map Prod.fst → step s = .refused (.unmappedRegister n)) ∧
    (∀ m v, (m, v) ∈ registerMap s → readRegister s m = some (BitVec.ofNat 64 v)) ∧
    (∀ m, m ∉ (registerMap s).map Prod.fst → readRegister s m = none)

/-- What the host reads from the three output spaces; each read changes nothing but what it hands over. After READ_FRAME
delivered a frame, a PIXOUT cell below the frame's length hands over its Color; a FU_OUT byte that a command left, and an
ESTREAM byte below E_CURSOR, hand over that byte. Any other cell of PIXOUT or FU_OUT is unspecified, and the read goes on
(10 R19, R31, R37, 20 R40, R43). The model's choices: a Color is handed over as the 24-bit word r, g, b (log 21), in a field
of the model (log 17); an unspecified cell reads as a free value, drawn anew (log 10); a read outside a space is a fault
(log 16). -/
def Obligations.HostReadsOutputCells : Prop :=
  (∀ (s : State) (d : Decoder) (frame : List Color) (short : Bool) (size i : Nat) (rest : List HostMove),
    s.dec = d.delivered frame short size → frame.length ≤ s.params.npixMax → s.params.npixMax < 2 ^ 32 →
    s.pending = .readPixout i :: rest →
      (∀ c, frame[i]? = some c → step s = .next { s with
        pending := rest, hostData := BitVec.ofNat 64 (c.r.toNat * 65536 + c.g.toNat * 256 + c.b.toNat) }) ∧
      (frame.length ≤ i → i < s.params.npixMax →
        ∃ v, step s = .next { s with pending := rest, hostData := v, draws := s.draws + 1 })) ∧
  (∀ (s : State) (i : Nat) (rest : List HostMove), s.pending = .readPixout i :: rest → s.params.npixMax ≤ i →
    step s = .fault (.noSuchCell .pixout i)) ∧
  (∀ (s : State) (a : Nat) (rest : List HostMove), s.pending = .readFuOut a :: rest →
    (∀ b, a < s.params.fuMax → Memory.read s.fu.fuOut a = some b →
      step s = .next { s with pending := rest, hostData := BitVec.ofNat 64 b.toNat }) ∧
    (a < s.params.fuMax → Memory.read s.fu.fuOut a = none →
      ∃ v, step s = .next { s with pending := rest, hostData := v, draws := s.draws + 1 }) ∧
    (s.params.fuMax ≤ a → step s = .fault (.noSuchCell .fuOut a))) ∧
  (∀ (s : State) (a : Nat) (rest : List HostMove), s.pending = .readEstream a :: rest →
    (∀ b, a < s.enc.cursor.toNat → Memory.read s.enc.estream a = some b →
      step s = .next { s with pending := rest, hostData := BitVec.ofNat 64 b.toNat }) ∧
    (s.enc.cursor.toNat ≤ a → step s = .fault (.noSuchCell .estream a)))

/-- A host write of an input cell stores that cell and leaves every other cell and everything else as it was (10 R30,
R37, 20 R40). -/
def Obligations.HostWritesInputCells : Prop :=
  (∀ (s : State) (i : Nat) (c : Color) (rest : List HostMove), s.pending = .writePixin i c :: rest →
    i < s.params.npixMax →
      ∃ t, step s = .next t ∧ Memory.read t.pixin i = some c ∧ (∀ k, k ≠ i → Memory.read t.pixin k = Memory.read s.pixin k) ∧
        t = { s with pending := rest, pixin := t.pixin }) ∧
  (∀ (s : State) (a : Nat) (b : Byte) (rest : List HostMove), s.pending = .writeFuIn a b :: rest →
    a < s.params.fuMax →
      ∃ t, step s = .next t ∧ Memory.read t.fuIn a = some b ∧ (∀ k, k ≠ a → Memory.read t.fuIn k = Memory.read s.fuIn k) ∧
        t = { s with pending := rest, fuIn := t.fuIn })

/-- The host sets DSTREAM and DLEN to a byte string while D_STATE is Created: byte `i` of the string stands at offset `i`,
no other offset holds a byte, and nothing else changes (20 R41, 70 R263). In any other state the model refuses the move
(log 16). -/
def Obligations.HostAttachesStream : Prop :=
  ∀ (s : State) (bytes : List Byte) (rest : List HostMove), s.pending = .attach bytes :: rest →
    (s.dec.state = 0#2 → bytes.length < 2 ^ 63 →
      ∃ t, step s = .next t ∧ t.dlen = bytes.length ∧ (∀ a, Memory.read t.dstream a = bytes[a]?) ∧
        t = { s with pending := rest, dstream := t.dstream, dlen := t.dlen }) ∧
    (s.dec.state ≠ 0#2 → step s = .refused .streamInUse)

/-- The byte primitives round trip: what `put_uN` appends, placed at any offset of a stream, `get_uN` reads back; and
every string of 1, 2 or 4 bytes reads as a value whose bytes it is (40 R99). -/
def Obligations.BytePrimitivesRoundTrip : Prop :=
  (∀ (s : State) (a : Nat) (v : BitVec 8), StreamAt s a [v] → getU8 s a = .ok v) ∧
  (∀ (s : State) (a : Nat) (v : BitVec 16), StreamAt s a (be16 v) → getU16 s a = .ok v) ∧
  (∀ (s : State) (a : Nat) (v : BitVec 32), StreamAt s a (be32 v) → getU32 s a = .ok v) ∧
  (∀ (e : Encoder) (v : BitVec 8), Memory.Holds (putU8 v e).estream e.cursor.toNat [v]) ∧
  (∀ (e : Encoder) (v : BitVec 16), Memory.Holds (putU16 v e).estream e.cursor.toNat (be16 v)) ∧
  (∀ (e : Encoder) (v : BitVec 32), Memory.Holds (putU32 v e).estream e.cursor.toNat (be32 v)) ∧
  (∀ (s : State) (a : Nat) (b : Byte), StreamAt s a [b] → ∃ v, getU8 s a = .ok v ∧ [v] = [b]) ∧
  (∀ (s : State) (a : Nat) (b1 b0 : Byte), StreamAt s a [b1, b0] → ∃ v, getU16 s a = .ok v ∧ be16 v = [b1, b0]) ∧
  (∀ (s : State) (a : Nat) (b3 b2 b1 b0 : Byte), StreamAt s a [b3, b2, b1, b0] →
    ∃ v, getU32 s a = .ok v ∧ be32 v = [b3, b2, b1, b0])

/-- The state after reset meets the invariant (10 section 10, 70 R250). -/
def Obligations.ResetMeetsInvariant : Prop := State.reset.Inv

/-- Every step keeps the invariant, from every state that meets it: admissible parameters, canonical memories, legal state
and error codes, and the ties between registers (10 R16 to R34, 60 R220, 46 R202). -/
def Obligations.StepKeepsInvariant : Prop :=
  ∀ s t : State, s.Inv → step s = .next t → t.Inv
end

