-- ==== Sys2Proof/Laws/Memory.lean ====
section
/-! SUPPORT. The laws of cells: reading after writing, and the canonical form that every memory operation keeps. -/

namespace Sys2Proof.Machine

variable {α : Type}

@[simp] theorem Memory.read_nil (a : Nat) : Memory.read ([] : Memory α) a = none := rfl

@[simp] theorem Memory.read_cons (k : Nat) (v : α) (m : Memory α) (a : Nat) :
    Memory.read ((k, v) :: m) a = if k = a then some v else Memory.read m a := rfl

/-! ### Read after write -/

@[simp] theorem Memory.read_write_self (m : Memory α) (a : Nat) (v : α) :
    Memory.read (Memory.write m a v) a = some v := by
  induction m with
  | nil => simp [Memory.write]
  | cons x m ih =>
    obtain ⟨k, w⟩ := x
    simp only [Memory.write]
    split_ifs with h1 h2
    · simp
    · simp
    · simp [ih, Ne.symm h2]

theorem Memory.read_write_ne (m : Memory α) {a b : Nat} (v : α) (h : b ≠ a) :
    Memory.read (Memory.write m a v) b = Memory.read m b := by
  induction m with
  | nil => simp [Memory.write, Ne.symm h]
  | cons x m ih =>
    obtain ⟨k, w⟩ := x
    simp only [Memory.write]
    split_ifs with h1 h2
    · simp [Ne.symm h]
    · subst h2; simp [Ne.symm h]
    · simp [ih]

/-- Cells outside a written string read as before. -/
theorem Memory.read_writeList_outside (vs : List α) (m : Memory α) (a b : Nat) (h : b < a ∨ a + vs.length ≤ b) :
    Memory.read (Memory.writeList m a vs) b = Memory.read m b := by
  induction vs generalizing m a with
  | nil => rfl
  | cons v vs ih =>
    simp only [List.length_cons] at h
    rw [Memory.writeList, ih _ _ (by omega), Memory.read_write_ne _ _ (by omega)]

/-- A written string reads back. -/
theorem Memory.read_writeList_inside (vs : List α) (m : Memory α) (a i : Nat) (h : i < vs.length) :
    Memory.read (Memory.writeList m a vs) (a + i) = vs[i]? := by
  induction vs generalizing m a i with
  | nil => simp at h
  | cons v vs ih =>
    rw [Memory.writeList]
    cases i with
    | zero => rw [Memory.read_writeList_outside _ _ _ _ (by omega)]; simp
    | succ i =>
      have := ih (Memory.write m a v) (a + 1) i (by simpa using h)
      rw [List.getElem?_cons_succ, ← this]; congr 1; omega

theorem Memory.holds_writeList (m : Memory α) (a : Nat) (vs : List α) :
    Memory.Holds (Memory.writeList m a vs) a vs :=
  fun i h => Memory.read_writeList_inside vs m a i h

theorem Memory.sameOutside_writeList (m : Memory α) (a : Nat) (vs : List α) :
    Memory.SameOutside m (Memory.writeList m a vs) a vs.length :=
  fun k h => Memory.read_writeList_outside vs m a k h

/-- What the memory of one string holds at every address. -/
theorem Memory.read_ofList (vs : List α) (a b : Nat) :
    Memory.read (Memory.ofList a vs) b = if a ≤ b then vs[b - a]? else none := by
  induction vs generalizing a with
  | nil => simp [Memory.ofList]
  | cons v vs ih =>
    rw [Memory.ofList, Memory.read_cons, ih]
    by_cases h : a = b
    · subst h; simp
    · by_cases h2 : a < b
      · rw [if_neg h, if_pos (by omega), if_pos (by omega)]
        have : b - a = (b - (a + 1)) + 1 := by omega
        rw [this]; simp
      · rw [if_neg h, if_neg (by omega), if_neg (by omega)]

theorem Memory.map_fst_ofList (vs : List α) (a : Nat) :
    (Memory.ofList a vs).map Prod.fst = List.range' a vs.length := by
  induction vs generalizing a with
  | nil => rfl
  | cons v vs ih => simp [Memory.ofList, ih, List.range'_succ]

@[simp] theorem Memory.length_ofList (vs : List α) (a : Nat) : (Memory.ofList a vs).length = vs.length := by
  induction vs generalizing a with
  | nil => rfl
  | cons v vs ih => simp [Memory.ofList, ih]

theorem Memory.mem_ofList {vs : List α} {a : Nat} {x : Nat × α} (h : x ∈ Memory.ofList a vs) :
    a ≤ x.1 ∧ x.1 < a + vs.length := by
  have := List.mem_map_of_mem (f := Prod.fst) h
  rw [Memory.map_fst_ofList, List.mem_range'_1] at this
  exact this

theorem Memory.holds_ofList (a : Nat) (vs : List α) : Memory.Holds (Memory.ofList a vs) a vs := by
  intro i _
  rw [Memory.read_ofList, if_pos (by omega)]
  congr 1; omega

/-! ### Reading a string -/

/-- A string read answers exactly the cells that are held. -/
theorem Memory.readList_eq_ok {m : Memory α} {a n : Nat} {xs : List α} :
    Memory.readList m a n = .ok xs ↔ xs.length = n ∧ Memory.Holds m a xs := by
  induction n generalizing a xs with
  | zero =>
    constructor
    · intro h; simp only [Memory.readList, Except.ok.injEq] at h; subst h; exact ⟨rfl, fun i hi => by simp at hi⟩
    · rintro ⟨h, -⟩; simp [Memory.readList, List.length_eq_zero_iff.mp h]
  | succ n ih =>
    simp only [Memory.readList]
    constructor
    · intro h
      split at h
      · cases h
      · rename_i v hv
        cases hr : Memory.readList m (a + 1) n with
        | error e => rw [hr] at h; cases h
        | ok ys =>
          rw [hr] at h
          simp only [Except.map, Except.ok.injEq] at h
          subst h
          obtain ⟨h1, h2⟩ := ih.mp hr
          refine ⟨by simp [h1], fun i hi => ?_⟩
          cases i with
          | zero => simpa using hv
          | succ i =>
            have := h2 i (by simpa using hi)
            rw [show a + (i + 1) = a + 1 + i by omega, this]; simp
    · rintro ⟨hl, hh⟩
      cases xs with
      | nil => simp at hl
      | cons x xs =>
        have h0 := hh 0 (by simp)
        simp only [Nat.add_zero, List.getElem?_cons_zero] at h0
        have hr : Memory.readList m (a + 1) n = .ok xs := by
          refine ih.mpr ⟨by simpa using hl, fun i hi => ?_⟩
          have := hh (i + 1) (by simpa using hi)
          rw [show a + 1 + i = a + (i + 1) by omega, this]; simp
        rw [h0, hr]; rfl

/-- A string read that stops names a cell of the string that nothing has written. -/
theorem Memory.readList_eq_error {m : Memory α} {a n k : Nat} (h : Memory.readList m a n = .error k) :
    Memory.read m k = none ∧ a ≤ k ∧ k < a + n ∧ ∀ j, a ≤ j → j < k → (Memory.read m j).isSome = true := by
  induction n generalizing a with
  | zero => cases h
  | succ n ih =>
    simp only [Memory.readList] at h
    split at h
    · rename_i hv; cases h; exact ⟨hv, by omega, by omega, fun j _ _ => by omega⟩
    · rename_i v hv
      cases hr : Memory.readList m (a + 1) n with
      | error e =>
        rw [hr] at h; cases h
        obtain ⟨h1, h2, h3, h4⟩ := ih hr
        refine ⟨h1, by omega, by omega, fun j hj hk => ?_⟩
        rcases Nat.eq_or_lt_of_le hj with rfl | hj
        · simp [hv]
        · exact h4 j (by omega) hk
      | ok ys => rw [hr] at h; cases h

/-! ### The canonical form -/

theorem Memory.wf_cons {x : Nat × α} {m : Memory α} :
    Memory.wf (x :: m) = true ↔ (∀ y ∈ m, x.1 < y.1) ∧ Memory.wf m = true := by
  induction m generalizing x with
  | nil => simp [Memory.wf]
  | cons y m ih =>
    simp only [Memory.wf, Bool.and_eq_true, decide_eq_true_eq, List.mem_cons, forall_eq_or_imp]
    constructor
    · rintro ⟨h1, h2⟩
      exact ⟨⟨h1, fun z hz => lt_trans h1 ((ih.mp h2).1 z hz)⟩, h2⟩
    · rintro ⟨⟨h1, -⟩, h2⟩
      exact ⟨h1, h2⟩

theorem Memory.mem_write {m : Memory α} {a : Nat} {v : α} {y : Nat × α} (h : y ∈ Memory.write m a v) :
    y = (a, v) ∨ y ∈ m := by
  induction m with
  | nil => simpa [Memory.write] using h
  | cons x m ih =>
    obtain ⟨k, w⟩ := x
    simp only [Memory.write] at h
    split_ifs at h with h1 h2
    · simpa using h
    · simp only [List.mem_cons] at h ⊢; tauto
    · simp only [List.mem_cons] at h ⊢
      rcases h with h | h
      · tauto
      · rcases ih h with h | h <;> tauto

/-- Writing a cell keeps the canonical form. -/
theorem Memory.wf_write {m : Memory α} (a : Nat) (v : α) (h : Memory.wf m = true) :
    Memory.wf (Memory.write m a v) = true := by
  induction m with
  | nil => rfl
  | cons x m ih =>
    obtain ⟨k, w⟩ := x
    obtain ⟨h1, h2⟩ := Memory.wf_cons.mp h
    simp only [Memory.write]
    split_ifs with h3 h4
    · refine Memory.wf_cons.mpr ⟨?_, h⟩
      intro y hy
      simp only [List.mem_cons] at hy
      rcases hy with rfl | hy
      · exact h3
      · exact lt_trans h3 (h1 y hy)
    · subst h4; exact Memory.wf_cons.mpr ⟨h1, h2⟩
    · refine Memory.wf_cons.mpr ⟨fun y hy => ?_, ih h2⟩
      rcases Memory.mem_write hy with rfl | hy
      · change k < a; omega
      · exact h1 y hy

/-- Writing a string keeps the canonical form. -/
theorem Memory.wf_writeList (vs : List α) {m : Memory α} (a : Nat) (h : Memory.wf m = true) :
    Memory.wf (Memory.writeList m a vs) = true := by
  induction vs generalizing m a with
  | nil => exact h
  | cons v vs ih => exact ih _ (Memory.wf_write a v h)

/-- The memory of one string is in canonical form. -/
theorem Memory.wf_ofList (vs : List α) (a : Nat) : Memory.wf (Memory.ofList a vs) = true := by
  induction vs generalizing a with
  | nil => rfl
  | cons v vs ih =>
    refine Memory.wf_cons.mpr ⟨fun y hy => ?_, ih _⟩
    have := (Memory.mem_ofList hy).1
    change a < y.1; omega

theorem Memory.read_eq_none_of_lt {m : Memory α} {a : Nat} (h : ∀ y ∈ m, a < y.1) : Memory.read m a = none := by
  induction m with
  | nil => rfl
  | cons x m ih =>
    obtain ⟨k, w⟩ := x
    have hk : a < k := h (k, w) (by simp)
    rw [Memory.read_cons, if_neg (by omega), ih fun y hy => h y (by simp [hy])]

/-- Canonical memories that read alike are equal data. -/
theorem Memory.ext_of_wf {m m' : Memory α} (h : Memory.wf m = true) (h' : Memory.wf m' = true)
    (hr : ∀ a, Memory.read m a = Memory.read m' a) : m = m' := by
  induction m generalizing m' with
  | nil =>
    cases m' with
    | nil => rfl
    | cons x m' => obtain ⟨k, v⟩ := x; have := hr k; simp at this
  | cons x m ih =>
    obtain ⟨k, v⟩ := x
    obtain ⟨hk, hm⟩ := Memory.wf_cons.mp h
    cases m' with
    | nil => have := hr k; simp at this
    | cons x' m' =>
      obtain ⟨k', v'⟩ := x'
      obtain ⟨hk', hm'⟩ := Memory.wf_cons.mp h'
      have hkk : k = k' := by
        rcases lt_trichotomy k k' with hlt | heq | hgt
        · have h1 := hr k
          rw [Memory.read_cons, if_pos rfl,
            Memory.read_eq_none_of_lt (m := (k', v') :: m') (a := k) (by
              intro y hy; simp only [List.mem_cons] at hy
              rcases hy with rfl | hy
              · exact hlt
              · exact lt_trans hlt (hk' y hy))] at h1
          cases h1
        · exact heq
        · have h1 := hr k'
          rw [Memory.read_eq_none_of_lt (m := (k, v) :: m) (a := k') (by
              intro y hy; simp only [List.mem_cons] at hy
              rcases hy with rfl | hy
              · exact hgt
              · exact lt_trans hgt (hk y hy)), Memory.read_cons, if_pos rfl] at h1
          cases h1
      subst hkk
      have hv : v = v' := by simpa using hr k
      subst hv
      rw [ih hm hm' fun a => ?_]
      by_cases hka : k = a
      · subst hka
        rw [Memory.read_eq_none_of_lt hk, Memory.read_eq_none_of_lt hk']
      · simpa [hka] using hr a

end Sys2Proof.Machine
end

