-- ==== Sys2Proof/Laws/Encoding.lean ====
section
/-! SUPPORT. The big-endian helpers, the tags and the packed-value fields undo one another (30_encoding.md, 20 R44). -/

namespace Sys2Proof

/-! ### Big-endian integers -/

@[simp] theorem be16_length (v : BitVec 16) : (be16 v).length = 2 := rfl

@[simp] theorem be32_length (v : BitVec 32) : (be32 v).length = 4 := rfl

/-- A u16 as a number, from its bytes. -/
theorem ofBe16_toNat (b0 b1 : Byte) : (ofBe16 b0 b1).toNat = b0.toNat * 256 + b1.toNat := by
  rw [ofBe16, BitVec.toNat_append, ← Nat.shiftLeft_add_eq_or_of_lt b1.isLt, Nat.shiftLeft_eq]

/-- A u32 as a number, from its bytes. -/
theorem ofBe32_toNat (b0 b1 b2 b3 : Byte) :
    (ofBe32 b0 b1 b2 b3).toNat = b0.toNat * 16777216 + b1.toNat * 65536 + b2.toNat * 256 + b3.toNat := by
  rw [ofBe32, BitVec.toNat_append, ← Nat.shiftLeft_add_eq_or_of_lt b3.isLt, BitVec.toNat_append,
    ← Nat.shiftLeft_add_eq_or_of_lt b2.isLt, BitVec.toNat_append, ← Nat.shiftLeft_add_eq_or_of_lt b1.isLt]
  simp only [Nat.shiftLeft_eq]
  omega

/-- `ofBe16` reads back the two bytes of `be16`. -/
@[simp] theorem ofBe16_be16 (v : BitVec 16) : ofBe16 (v.extractLsb' 8 8) (v.extractLsb' 0 8) = v := by
  apply BitVec.eq_of_toNat_eq
  simp only [ofBe16_toNat, BitVec.extractLsb'_toNat, Nat.shiftRight_eq_div_pow]
  omega

/-- `ofBe32` reads back the four bytes of `be32`. -/
@[simp] theorem ofBe32_be32 (v : BitVec 32) :
    ofBe32 (v.extractLsb' 24 8) (v.extractLsb' 16 8) (v.extractLsb' 8 8) (v.extractLsb' 0 8) = v := by
  apply BitVec.eq_of_toNat_eq
  simp only [ofBe32_toNat, BitVec.extractLsb'_toNat, Nat.shiftRight_eq_div_pow]
  omega

/-- `be16` writes back the two bytes that `ofBe16` read. -/
@[simp] theorem be16_ofBe16 (b0 b1 : Byte) : be16 (ofBe16 b0 b1) = [b0, b1] := by
  simp only [be16, List.cons.injEq, and_true]
  constructor <;>
    (apply BitVec.eq_of_toNat_eq
     simp only [ofBe16_toNat, BitVec.extractLsb'_toNat, Nat.shiftRight_eq_div_pow]
     omega)

/-- `be32` writes back the four bytes that `ofBe32` read. -/
@[simp] theorem be32_ofBe32 (b0 b1 b2 b3 : Byte) : be32 (ofBe32 b0 b1 b2 b3) = [b0, b1, b2, b3] := by
  simp only [be32, List.cons.injEq, and_true]
  refine ⟨?_, ?_, ?_, ?_⟩ <;>
    (apply BitVec.eq_of_toNat_eq
     simp only [ofBe32_toNat, BitVec.extractLsb'_toNat, Nat.shiftRight_eq_div_pow]
     omega)

/-! ### Record tags -/

/-- The tag of a record type names that type. -/
@[simp] theorem frameTypeOf_code (ft : FrameType) : frameTypeOf ft.code = some ft := by
  cases ft <;> rfl

/-- A tag that names a type is that type's tag. -/
theorem code_of_frameTypeOf {tag : Byte} {ft : FrameType} (h : frameTypeOf tag = some ft) : ft.code = tag := by
  unfold frameTypeOf at h
  split at h <;> simp only [Option.some.injEq, reduceCtorEq] at h <;> subst h <;> apply BitVec.eq_of_toNat_eq <;>
    simp_all [FrameType.code]

/-- A tag names no type exactly outside 1 to 5. -/
theorem frameTypeOf_eq_none {tag : Byte} : frameTypeOf tag = none ↔ tag.toNat = 0 ∨ 5 < tag.toNat := by
  unfold frameTypeOf
  split <;> simp_all <;> omega

/-! ### Packed values -/

/-- The number of a PV8 byte: its flag bit is 128. -/
theorem pack8_toNat (p : Packed 7) :
    (pack8 p).toNat = match p with | .lit v => v.toNat | .run c => 128 + c.toNat := by
  cases p with
  | lit v => rw [pack8, BitVec.toNat_append, ← Nat.shiftLeft_add_eq_or_of_lt v.isLt]; simp
  | run c => rw [pack8, BitVec.toNat_append, ← Nat.shiftLeft_add_eq_or_of_lt c.isLt]; rfl

/-- The number of a PV16 value: its flag bit is 32768. -/
theorem pack16_toNat (p : Packed 15) :
    (pack16 p).toNat = match p with | .lit v => v.toNat | .run c => 32768 + c.toNat := by
  cases p with
  | lit v => rw [pack16, BitVec.toNat_append, ← Nat.shiftLeft_add_eq_or_of_lt v.isLt]; simp
  | run c => rw [pack16, BitVec.toNat_append, ← Nat.shiftLeft_add_eq_or_of_lt c.isLt]; rfl

/-- A PV8 byte is a literal below 128 and a run marker from 128 on. -/
theorem unpack8_eq (p : Byte) :
    unpack8 p = if p.toNat < 128 then .lit (BitVec.ofNat 7 p.toNat) else .run (BitVec.ofNat 7 p.toNat) := by
  have e : p.extractLsb' 0 7 = BitVec.ofNat 7 p.toNat := by
    apply BitVec.eq_of_toNat_eq
    simp
  have := p.isLt
  simp only [unpack8, e, BitVec.getLsbD, Nat.testBit_eq_decide_div_mod_eq, decide_eq_true_eq]
  by_cases h : p.toNat < 128
  · rw [if_pos h, if_neg (by omega)]
  · rw [if_neg h, if_pos (by omega)]

/-- A PV16 value is a literal below 32768 and a run marker from 32768 on. -/
theorem unpack16_eq (p : BitVec 16) :
    unpack16 p = if p.toNat < 32768 then .lit (BitVec.ofNat 15 p.toNat) else .run (BitVec.ofNat 15 p.toNat) := by
  have e : p.extractLsb' 0 15 = BitVec.ofNat 15 p.toNat := by
    apply BitVec.eq_of_toNat_eq
    simp
  have := p.isLt
  simp only [unpack16, e, BitVec.getLsbD, Nat.testBit_eq_decide_div_mod_eq, decide_eq_true_eq]
  by_cases h : p.toNat < 32768
  · rw [if_pos h, if_neg (by omega)]
  · rw [if_neg h, if_pos (by omega)]

@[simp] theorem unpack8_pack8 (p : Packed 7) : unpack8 (pack8 p) = p := by
  rw [unpack8_eq, pack8_toNat]
  cases p with
  | lit v => have := v.isLt; simp only; rw [if_pos (by omega), BitVec.ofNat_toNat, BitVec.setWidth_eq]
  | run c =>
    have := c.isLt
    simp only
    rw [if_neg (by omega)]
    congr 1
    apply BitVec.eq_of_toNat_eq
    rw [BitVec.toNat_ofNat]
    omega

@[simp] theorem unpack16_pack16 (p : Packed 15) : unpack16 (pack16 p) = p := by
  rw [unpack16_eq, pack16_toNat]
  cases p with
  | lit v => have := v.isLt; simp only; rw [if_pos (by omega), BitVec.ofNat_toNat, BitVec.setWidth_eq]
  | run c =>
    have := c.isLt
    simp only
    rw [if_neg (by omega)]
    congr 1
    apply BitVec.eq_of_toNat_eq
    rw [BitVec.toNat_ofNat]
    omega

@[simp] theorem pack8_unpack8 (b : Byte) : pack8 (unpack8 b) = b := by
  have := b.isLt
  apply BitVec.eq_of_toNat_eq
  rw [pack8_toNat, unpack8_eq]
  by_cases h : b.toNat < 128
  · simp only [h, if_true, BitVec.toNat_ofNat]; omega
  · simp only [h, if_false, BitVec.toNat_ofNat]; omega

@[simp] theorem pack16_unpack16 (b : BitVec 16) : pack16 (unpack16 b) = b := by
  have := b.isLt
  apply BitVec.eq_of_toNat_eq
  rw [pack16_toNat, unpack16_eq]
  by_cases h : b.toNat < 32768
  · simp only [h, if_true, BitVec.toNat_ofNat]; omega
  · simp only [h, if_false, BitVec.toNat_ofNat]; omega

/-- The number of a LIT8's joined fields. -/
theorem join7_toNat (r : BitVec 3) (g b : BitVec 2) :
    (join7 r g b).toNat = r.toNat * 16 + g.toNat * 4 + b.toNat := by
  rw [join7, BitVec.toNat_append, ← Nat.shiftLeft_add_eq_or_of_lt b.isLt, BitVec.toNat_append,
    ← Nat.shiftLeft_add_eq_or_of_lt g.isLt]
  simp only [Nat.shiftLeft_eq]
  omega

/-- The number of a LIT16's joined fields. -/
theorem join15_toNat (r g b : BitVec 5) :
    (join15 r g b).toNat = r.toNat * 1024 + g.toNat * 32 + b.toNat := by
  rw [join15, BitVec.toNat_append, ← Nat.shiftLeft_add_eq_or_of_lt b.isLt, BitVec.toNat_append,
    ← Nat.shiftLeft_add_eq_or_of_lt g.isLt]
  simp only [Nat.shiftLeft_eq]
  omega

/-- The fields of a LIT8 join to its quantized value. -/
@[simp] theorem join7_fields (v : BitVec 7) :
    join7 (v.extractLsb' 4 3) (v.extractLsb' 2 2) (v.extractLsb' 0 2) = v := by
  apply BitVec.eq_of_toNat_eq
  simp only [join7_toNat, BitVec.extractLsb'_toNat, Nat.shiftRight_eq_div_pow]
  omega

/-- The fields of a LIT16 join to its quantized value. -/
@[simp] theorem join15_fields (v : BitVec 15) :
    join15 (v.extractLsb' 10 5) (v.extractLsb' 5 5) (v.extractLsb' 0 5) = v := by
  apply BitVec.eq_of_toNat_eq
  simp only [join15_toNat, BitVec.extractLsb'_toNat, Nat.shiftRight_eq_div_pow]
  omega

/-- The fields of a joined LIT8 value are what was joined. -/
theorem fields_join7 (r : BitVec 3) (g b : BitVec 2) :
    (join7 r g b).extractLsb' 4 3 = r ∧ (join7 r g b).extractLsb' 2 2 = g ∧ (join7 r g b).extractLsb' 0 2 = b := by
  refine ⟨?_, ?_, ?_⟩ <;>
    (apply BitVec.eq_of_toNat_eq
     simp only [join7_toNat, BitVec.extractLsb'_toNat, Nat.shiftRight_eq_div_pow]
     omega)

/-- The fields of a joined LIT16 value are what was joined. -/
theorem fields_join15 (r g b : BitVec 5) :
    (join15 r g b).extractLsb' 10 5 = r ∧ (join15 r g b).extractLsb' 5 5 = g ∧
      (join15 r g b).extractLsb' 0 5 = b := by
  refine ⟨?_, ?_, ?_⟩ <;>
    (apply BitVec.eq_of_toNat_eq
     simp only [join15_toNat, BitVec.extractLsb'_toNat, Nat.shiftRight_eq_div_pow]
     omega)

/-- The byte of a LIT8 decodes to its fields. -/
theorem decodePacked8_pack8_lit (r : BitVec 3) (g b : BitVec 2) :
    decodePacked8 (pack8 (.lit (join7 r g b))) = .lit8 r g b := by
  obtain ⟨hr, hg, hb⟩ := fields_join7 r g b
  simp only [decodePacked8, unpack8_pack8, hr, hg, hb]

/-- The word of a LIT16 decodes to its fields. -/
theorem decodePacked16_pack16_lit (r g b : BitVec 5) :
    decodePacked16 (pack16 (.lit (join15 r g b))) = .lit16 r g b := by
  obtain ⟨hr, hg, hb⟩ := fields_join15 r g b
  simp only [decodePacked16, unpack16_pack16, hr, hg, hb]

end Sys2Proof
end

