-- ==== Sys2Proof/Laws/Ops.lean ====
section
/-! SUPPORT. What each shared operation can answer, said once (20_memory.md, 40_byte_primitives.md, 60_exceptions.md):
the provers cite these and do not unfold the operation. -/

namespace Sys2Proof.Machine

/-! ### Cells that a space holds -/

section cells
variable {α : Type} {m : Memory α} {a : Nat}

@[simp] theorem Memory.holds_nil : Memory.Holds m a [] := by
  intro i hi
  simp at hi

/-- A string is held where its first cell and the rest are. -/
theorem Memory.holds_cons {x : α} {xs : List α} :
    Memory.Holds m a (x :: xs) ↔ Memory.read m a = some x ∧ Memory.Holds m (a + 1) xs := by
  constructor
  · intro h
    refine ⟨by simpa using h 0 (by simp), fun i hi => ?_⟩
    have := h (i + 1) (by simpa using hi)
    rw [show a + (i + 1) = a + 1 + i by omega] at this
    simpa using this
  · rintro ⟨h0, h⟩ i hi
    cases i with
    | zero => simpa using h0
    | succ i =>
      have := h i (by simpa using hi)
      rw [show a + (i + 1) = a + 1 + i by omega]
      simpa using this

theorem Memory.holds_append {xs ys : List α} :
    Memory.Holds m a (xs ++ ys) ↔ Memory.Holds m a xs ∧ Memory.Holds m (a + xs.length) ys := by
  induction xs generalizing a with
  | nil => simp
  | cons x xs ih =>
    rw [List.cons_append, Memory.holds_cons, ih, Memory.holds_cons, List.length_cons,
      show a + 1 + xs.length = a + (xs.length + 1) by omega, and_assoc]

end cells

variable {s t : State} {a n : Nat}

theorem streamAt_append {xs ys : List Byte} :
    StreamAt s a (xs ++ ys) ↔ StreamAt s a xs ∧ StreamAt s (a + xs.length) ys := by
  simp only [StreamAt, Memory.holds_append, List.length_append]
  constructor
  · rintro ⟨⟨h1, h2⟩, h⟩; exact ⟨⟨h1, by omega⟩, h2, by omega⟩
  · rintro ⟨⟨h1, _⟩, h2, h⟩; exact ⟨⟨h1, h2⟩, by omega⟩

theorem streamAt_cons {x : Byte} {xs : List Byte} :
    StreamAt s a (x :: xs) ↔ StreamAt s a [x] ∧ StreamAt s (a + 1) xs := by
  simpa using streamAt_append (s := s) (a := a) (xs := [x]) (ys := xs)

theorem streamAt_singleton {x : Byte} : StreamAt s a [x] ↔ Memory.read s.dstream a = some x ∧ a + 1 ≤ s.dlen := by
  simp [StreamAt, Memory.holds_cons]

/-! ### Loads from DSTREAM -/

theorem byteAt_eq_ok {b : Byte} : byteAt s a = .ok b ↔ Memory.read s.dstream a = some b := by
  unfold byteAt
  split <;> simp_all

theorem byteAt_eq_error {e : Stop} (h : byteAt s a = .error e) :
    e = .fault (.unwrittenStream a) ∧ Memory.read s.dstream a = none := by
  unfold byteAt at h
  split at h <;> simp_all

theorem getU8_eq_ok {b : Byte} : getU8 s a = .ok b ↔ StreamAt s a [b] := by
  rw [getU8, streamAt_singleton]
  split
  · simp; omega
  · rw [byteAt_eq_ok]; exact ⟨fun h => ⟨h, by omega⟩, fun h => h.1⟩

theorem getU16_eq_ok {v : BitVec 16} : getU16 s a = .ok v ↔ StreamAt s a (be16 v) := by
  rw [getU16]
  split
  · simp only [reduceCtorEq, StreamAt, be16_length, false_iff, not_and]; omega
  · simp only [bind, Except.bind, pure, Except.pure, be16, StreamAt, Memory.holds_cons, Memory.holds_nil, and_true,
      List.length_cons, List.length_nil]
    constructor
    · intro h
      split at h <;> [cases h; skip]
      rename_i b0 h0
      split at h <;> [cases h; skip]
      rename_i b1 h1
      cases h
      have e := be16_ofBe16 b0 b1
      rw [be16, List.cons.injEq, List.cons.injEq] at e
      rw [e.1, e.2.1]
      exact ⟨⟨byteAt_eq_ok.mp h0, byteAt_eq_ok.mp h1⟩, by omega⟩
    · rintro ⟨⟨h0, h1⟩, _⟩
      simp [byteAt_eq_ok.mpr h0, byteAt_eq_ok.mpr h1]

theorem getU32_eq_ok {v : BitVec 32} : getU32 s a = .ok v ↔ StreamAt s a (be32 v) := by
  rw [getU32]
  split
  · simp only [reduceCtorEq, StreamAt, be32_length, false_iff, not_and]; omega
  · simp only [bind, Except.bind, pure, Except.pure, be32, StreamAt, Memory.holds_cons, Memory.holds_nil, and_true,
      List.length_cons, List.length_nil]
    constructor
    · intro h
      split at h <;> [cases h; skip]
      rename_i b0 h0
      split at h <;> [cases h; skip]
      rename_i b1 h1
      split at h <;> [cases h; skip]
      rename_i b2 h2
      split at h <;> [cases h; skip]
      rename_i b3 h3
      cases h
      have e := be32_ofBe32 b0 b1 b2 b3
      simp only [be32, List.cons.injEq, and_true] at e
      rw [e.1, e.2.1, e.2.2.1, e.2.2.2]
      exact ⟨⟨byteAt_eq_ok.mp h0, byteAt_eq_ok.mp h1, byteAt_eq_ok.mp h2, byteAt_eq_ok.mp h3⟩, by omega⟩
    · rintro ⟨⟨h0, h1, h2, h3⟩, _⟩
      simp [byteAt_eq_ok.mpr h0, byteAt_eq_ok.mpr h1, byteAt_eq_ok.mpr h2, byteAt_eq_ok.mpr h3]

theorem getColor_eq_ok {c : Color} : getColor s a = .ok c ↔ StreamAt s a (colorBytes c) := by
  rw [getColor]
  split
  · simp only [reduceCtorEq, StreamAt, colorBytes, List.length_cons, List.length_nil, false_iff, not_and]; omega
  · simp only [bind, Except.bind, pure, Except.pure, colorBytes, StreamAt, Memory.holds_cons, Memory.holds_nil, and_true,
      List.length_cons, List.length_nil]
    constructor
    · intro h
      split at h <;> [cases h; skip]
      rename_i b0 h0
      split at h <;> [cases h; skip]
      rename_i b1 h1
      split at h <;> [cases h; skip]
      rename_i b2 h2
      cases h
      exact ⟨⟨byteAt_eq_ok.mp h0, byteAt_eq_ok.mp h1, byteAt_eq_ok.mp h2⟩, by omega⟩
    · rintro ⟨⟨h0, h1, h2⟩, _⟩
      simp [byteAt_eq_ok.mpr h0, byteAt_eq_ok.mpr h1, byteAt_eq_ok.mpr h2]

/-- Why a load of `n` bytes at `a` answers no value: the bytes are not all below DLEN, or one of them was never
supplied. -/
def LoadStop (s : State) (a n : Nat) (e : Stop) : Prop :=
  (e = .raise .truncatedRead a ∧ s.dlen < a + n) ∨
    ∃ k, e = .fault (.unwrittenStream k) ∧ a ≤ k ∧ k < a + n ∧ a + n ≤ s.dlen ∧ Memory.read s.dstream k = none

theorem getU8_eq_error {e : Stop} (h : getU8 s a = .error e) : LoadStop s a 1 e := by
  unfold getU8 at h
  split at h
  · cases h; exact .inl ⟨rfl, by assumption⟩
  · obtain ⟨rfl, hr⟩ := byteAt_eq_error h
    exact .inr ⟨a, rfl, by omega, by omega, by omega, hr⟩

theorem getU16_eq_error {e : Stop} (h : getU16 s a = .error e) : LoadStop s a 2 e := by
  unfold getU16 at h
  split at h
  · cases h; exact .inl ⟨rfl, by assumption⟩
  · simp only [bind, Except.bind, pure, Except.pure] at h
    split at h
    · rename_i h0; cases h; obtain ⟨rfl, hr⟩ := byteAt_eq_error h0
      exact .inr ⟨a, rfl, by omega, by omega, by omega, hr⟩
    split at h
    · rename_i h0; cases h; obtain ⟨rfl, hr⟩ := byteAt_eq_error h0
      exact .inr ⟨a + 1, rfl, by omega, by omega, by omega, hr⟩
    cases h

theorem getU32_eq_error {e : Stop} (h : getU32 s a = .error e) : LoadStop s a 4 e := by
  unfold getU32 at h
  split at h
  · cases h; exact .inl ⟨rfl, by assumption⟩
  · simp only [bind, Except.bind, pure, Except.pure] at h
    split at h
    · rename_i h0; cases h; obtain ⟨rfl, hr⟩ := byteAt_eq_error h0
      exact .inr ⟨a, rfl, by omega, by omega, by omega, hr⟩
    split at h
    · rename_i h0; cases h; obtain ⟨rfl, hr⟩ := byteAt_eq_error h0
      exact .inr ⟨a + 1, rfl, by omega, by omega, by omega, hr⟩
    split at h
    · rename_i h0; cases h; obtain ⟨rfl, hr⟩ := byteAt_eq_error h0
      exact .inr ⟨a + 2, rfl, by omega, by omega, by omega, hr⟩
    split at h
    · rename_i h0; cases h; obtain ⟨rfl, hr⟩ := byteAt_eq_error h0
      exact .inr ⟨a + 3, rfl, by omega, by omega, by omega, hr⟩
    cases h

theorem getColor_eq_error {e : Stop} (h : getColor s a = .error e) : LoadStop s a 3 e := by
  unfold getColor at h
  split at h
  · cases h; exact .inl ⟨rfl, by assumption⟩
  · simp only [bind, Except.bind, pure, Except.pure] at h
    split at h
    · rename_i h0; cases h; obtain ⟨rfl, hr⟩ := byteAt_eq_error h0
      exact .inr ⟨a, rfl, by omega, by omega, by omega, hr⟩
    split at h
    · rename_i h0; cases h; obtain ⟨rfl, hr⟩ := byteAt_eq_error h0
      exact .inr ⟨a + 1, rfl, by omega, by omega, by omega, hr⟩
    split at h
    · rename_i h0; cases h; obtain ⟨rfl, hr⟩ := byteAt_eq_error h0
      exact .inr ⟨a + 2, rfl, by omega, by omega, by omega, hr⟩
    cases h

/-- Past DLEN a load is TruncatedRead at its own offset. -/
theorem getU8_past (h : s.dlen < a + 1) : getU8 s a = .error (.raise .truncatedRead a) := if_pos h

theorem getU16_past (h : s.dlen < a + 2) : getU16 s a = .error (.raise .truncatedRead a) := if_pos h

theorem getU32_past (h : s.dlen < a + 4) : getU32 s a = .error (.raise .truncatedRead a) := if_pos h

theorem getColor_past (h : s.dlen < a + 3) : getColor s a = .error (.raise .truncatedRead a) := if_pos h

theorem memRead_eq_ok {bytes : List Byte} :
    memRead s a n = .ok bytes ↔ bytes.length = n ∧ Memory.Holds s.dstream a bytes := by
  unfold memRead
  cases h : Memory.readList s.dstream a n with
  | ok xs =>
    simp only [Except.mapError, Except.ok.injEq]
    rw [← Memory.readList_eq_ok, h, Except.ok.injEq]
  | error k =>
    simp only [Except.mapError, reduceCtorEq, false_iff]
    rw [← Memory.readList_eq_ok, h]
    simp

/-- A memory read raises no error: it can only meet a byte that was never supplied. -/
theorem memRead_eq_error {e : Stop} (h : memRead s a n = .error e) : ∃ k, e = .fault (.unwrittenStream k) := by
  unfold memRead at h
  cases h' : Memory.readList s.dstream a n with
  | ok xs => rw [h'] at h; cases h
  | error k => rw [h'] at h; cases h; exact ⟨k, rfl⟩

/-- `get_color` is `get_bytes` of three bytes, read as R, G, B (40 R93). -/
theorem getColor_eq_getBytes :
    getColor s a = (getBytes s a 3).map fun bytes => ⟨bytes.getD 0 0#8, bytes.getD 1 0#8, bytes.getD 2 0#8⟩ := by
  unfold getColor getBytes memRead byteAt
  by_cases h : s.dlen < a + 3
  · rw [if_pos h, if_neg (by omega), if_pos h]; rfl
  · rw [if_neg h, if_neg (by omega), if_neg h]
    simp only [Memory.readList, bind, Except.bind, pure, Except.pure]
    cases Memory.read s.dstream a <;> [rfl; skip]
    cases Memory.read s.dstream (a + 1) <;> [rfl; skip]
    cases Memory.read s.dstream (a + 1 + 1) <;> rfl

/-! ### Bytes and pixels -/

@[simp] theorem pixelBytes_length (px : List Color) : (pixelBytes px).length = 3 * px.length := by
  induction px with
  | nil => rfl
  | cons c cs ih => simp only [pixelBytes, colorBytes, List.length_append, List.length_cons, List.length_nil, ih]; omega

@[simp] theorem pixelsOf_pixelBytes (px : List Color) : pixelsOf (pixelBytes px) = px := by
  induction px with
  | nil => rfl
  | cons c cs ih => simp [pixelBytes, colorBytes, pixelsOf, ih]

/-- A byte string of whole pixels is the bytes of its pixels. -/
theorem pixelBytes_pixelsOf (bytes : List Byte) (h : bytes.length % 3 = 0) : pixelBytes (pixelsOf bytes) = bytes := by
  induction bytes using pixelsOf.induct with
  | case1 r g b rest ih =>
    simp only [List.length_cons] at h
    simp [pixelsOf, pixelBytes, colorBytes, ih (by omega)]
  | case2 bytes hne =>
    match bytes, hne with
    | [], _ => rfl
    | [_], _ => simp at h
    | [_, _], _ => simp at h
    | r :: g :: b :: rest, hne => exact absurd rfl (hne r g b rest)

theorem pixelBytes_append (px px' : List Color) : pixelBytes (px ++ px') = pixelBytes px ++ pixelBytes px' := by
  induction px with
  | nil => rfl
  | cons c cs ih => simp [pixelBytes, ih]

theorem pixelBytes_eq_flatMap (px : List Color) : pixelBytes px = px.flatMap fun c => [c.r, c.g, c.b] := by
  induction px with
  | nil => rfl
  | cons c cs ih => rw [pixelBytes, ih]; rfl

/-! ### Operand spaces -/

theorem readPixin_eq_ok {px : List Color} :
    readPixin s n = .ok px ↔ px.length = n ∧ Memory.Holds s.pixin 0 px := by
  unfold readPixin
  rw [← Memory.readList_eq_ok]
  cases Memory.readList s.pixin 0 n <;> simp [Except.mapError]

theorem readPixin_eq_error {e : Stop} (h : readPixin s n = .error e) :
    ∃ i < n, e = .fault (.unwrittenPixin i) ∧ Memory.read s.pixin i = none ∧
      ∀ j < i, (Memory.read s.pixin j).isSome = true := by
  unfold readPixin at h
  cases h' : Memory.readList s.pixin 0 n with
  | ok xs => rw [h'] at h; cases h
  | error k =>
    rw [h'] at h; cases h
    obtain ⟨h1, -, h3, h4⟩ := Memory.readList_eq_error h'
    exact ⟨k, by omega, rfl, h1, fun j hj => h4 j (by omega) hj⟩

theorem readFuIn_eq_ok {bytes : List Byte} :
    readFuIn s n = .ok bytes ↔ bytes.length = n ∧ Memory.Holds s.fuIn 0 bytes := by
  unfold readFuIn
  rw [← Memory.readList_eq_ok]
  cases Memory.readList s.fuIn 0 n <;> simp [Except.mapError]

theorem readFuIn_eq_error {e : Stop} (h : readFuIn s n = .error e) :
    ∃ k < n, e = .fault (.unwrittenFuIn k) ∧ Memory.read s.fuIn k = none ∧
      ∀ j < k, (Memory.read s.fuIn j).isSome = true := by
  unfold readFuIn at h
  cases h' : Memory.readList s.fuIn 0 n with
  | ok xs => rw [h'] at h; cases h
  | error k =>
    rw [h'] at h; cases h
    obtain ⟨h1, -, h3, h4⟩ := Memory.readList_eq_error h'
    exact ⟨k, by omega, rfl, h1, fun j hj => h4 j (by omega) hj⟩

/-! ### Stores to ESTREAM -/

/-- What `put_bytes` leaves: the bytes at E_CURSOR, every other byte as before, the cursor past them, the rest of ENC
untouched (20 R43, 40 R97). -/
theorem putBytes_spec (bytes : List Byte) (e : Encoder) :
    Memory.Holds (putBytes bytes e).estream e.cursor.toNat bytes ∧
      Memory.SameOutside e.estream (putBytes bytes e).estream e.cursor.toNat bytes.length ∧
      (putBytes bytes e).cursor = BitVec.ofNat 64 (e.cursor.toNat + bytes.length) ∧
      putBytes bytes e = { e with estream := (putBytes bytes e).estream, cursor := (putBytes bytes e).cursor } :=
  ⟨Memory.holds_writeList _ _ _, Memory.sameOutside_writeList _ _ _, rfl, rfl⟩

theorem writeList_append {α : Type} (xs ys : List α) (m : Memory α) (a : Nat) :
    Memory.writeList m a (xs ++ ys) = Memory.writeList (Memory.writeList m a xs) (a + xs.length) ys := by
  induction xs generalizing m a with
  | nil => rfl
  | cons x xs ih =>
    rw [List.cons_append, Memory.writeList, ih, Memory.writeList, List.length_cons,
      show a + 1 + xs.length = a + (xs.length + 1) by omega]

/-- One append of two strings is two appends, where the cursor does not leave its 64 bits (20 R43). -/
theorem putBytes_append (xs ys : List Byte) (e : Encoder) (h : e.cursor.toNat + xs.length < 2 ^ 64) :
    putBytes (xs ++ ys) e = putBytes ys (putBytes xs e) := by
  unfold putBytes
  have hc : (BitVec.ofNat 64 (e.cursor.toNat + xs.length)).toNat = e.cursor.toNat + xs.length := by
    rw [BitVec.toNat_ofNat, Nat.mod_eq_of_lt h]
  simp only [hc, writeList_append, List.length_append, Nat.add_assoc]

/-! ### Errors -/

theorem stopDec_eq_next {e : Stop} : stopDec s e = .next t ↔ ∃ k o, e = .raise k o ∧ t = streamError k o s := by
  cases e <;> simp [stopDec, eq_comm]

theorem stopFu_eq_next {e : Stop} : stopFu s e = .next t ↔ ∃ k o, e = .raise k o ∧ t = fuError k s := by
  cases e <;> simp [stopFu, eq_comm]

theorem stopEnc_eq_next {e : Stop} : stopEnc s e = .next t ↔ ∃ k o, e = .raise k o ∧ t = precheckEnc k s := by
  cases e <;> simp [stopEnc, eq_comm]

/-- A stream error is `Decoder.faulted` and nothing else. -/
theorem streamError_eq (k : ErrKind) (o : Nat) (s : State) :
    streamError k o s = { s with dec := s.dec.faulted k.code o } := rfl

/-- A completed frame is `Decoder.delivered` and the command-local registers. -/
theorem completeFrame_eq (f : FrameRead) (size : Nat) (s : State) :
    completeFrame f s.dec.cursor.toNat size s =
      { s with dec := s.dec.delivered f.frame f.short size, work := f.work } := rfl

/-! ### Record fetch -/

/-- The fetch of a record answers exactly the prefix that stands at its offset. -/
theorem fetchRecord_eq_ok {ft : FrameType} {size : BitVec 32} :
    fetchRecord s a = .ok (ft, size) ↔ PrefixAt s a ft size := by
  rw [PrefixAt, streamAt_cons, fetchRecord]
  simp only [bind, Except.bind, pure, Except.pure]
  constructor
  · intro h
    split at h <;> [cases h; skip]
    rename_i tag h0
    split at h <;> [cases h; skip]
    rename_i size' h1
    split at h <;> [cases h; skip]
    rename_i ft' h2
    cases h
    rw [code_of_frameTypeOf h2]
    exact ⟨getU8_eq_ok.mp h0, getU32_eq_ok.mp h1⟩
  · rintro ⟨h0, h1⟩
    simp [getU8_eq_ok.mpr h0, getU32_eq_ok.mpr h1]

/-- What else the fetch of a record can answer. -/
theorem fetchRecord_eq_error {e : Stop} (h : fetchRecord s a = .error e) :
    LoadStop s a 1 e ∨ LoadStop s (a + 1) 4 e ∨
      ∃ tag size, StreamAt s a (tag :: be32 size) ∧ frameTypeOf tag = none ∧ e = .raise .unknownFrameType a := by
  rw [fetchRecord] at h
  simp only [bind, Except.bind, pure, Except.pure] at h
  split at h
  · rename_i h0; cases h; exact .inl (getU8_eq_error h0)
  rename_i tag h0
  split at h
  · rename_i h1; cases h; exact .inr (.inl (getU32_eq_error h1))
  rename_i size h1
  split at h
  · rename_i h2; cases h
    exact .inr (.inr ⟨tag, size, streamAt_cons.mpr ⟨getU8_eq_ok.mp h0, getU32_eq_ok.mp h1⟩, h2, rfl⟩)
  · cases h

theorem skipRecords_zero : skipRecords s 0 a = .ok a := rfl

theorem skipRecords_succ_ok {b : Nat} :
    skipRecords s (n + 1) a = .ok b ↔
      ∃ ft size, PrefixAt s a ft size ∧ skipRecords s n (a + 5 + size.toNat) = .ok b := by
  rw [skipRecords]
  simp only [bind, Except.bind]
  constructor
  · intro h
    split at h <;> [cases h; skip]
    rename_i p h0
    exact ⟨p.1, p.2, fetchRecord_eq_ok.mp h0, h⟩
  · rintro ⟨ft, size, h0, h1⟩
    rw [fetchRecord_eq_ok.mpr h0]
    exact h1

/-- A skip raises only the errors of a record fetch. -/
theorem skipRecords_eq_error {e : Stop} (h : skipRecords s n a = .error e) :
    ∃ b, fetchRecord s b = .error e := by
  induction n generalizing a with
  | zero => cases h
  | succ n ih =>
    rw [skipRecords] at h
    simp only [bind, Except.bind] at h
    split at h
    · rename_i h0; cases h; exact ⟨a, h0⟩
    · exact ih h

/-- A skip of `n + m` records is a skip of `n` and then of `m`. -/
theorem skipRecords_add {m b : Nat} (h : skipRecords s n a = .ok b) : skipRecords s (n + m) a = skipRecords s m b := by
  induction n generalizing a with
  | zero => cases h; rw [Nat.zero_add]
  | succ n ih =>
    obtain ⟨ft, size, hp, h'⟩ := skipRecords_succ_ok.mp h
    rw [← ih h', show n + 1 + m = n + m + 1 by omega, skipRecords, fetchRecord_eq_ok.mpr hp]
    rfl

/-- A record's offset is fixed by its number. -/
theorem RecordAt.unique {k b : Nat} (h : RecordAt s k a) (h' : RecordAt s k b) : a = b := by
  induction h generalizing b with
  | first => cases h'; rfl
  | next _ hp ih =>
    cases h' with
    | next h1 hp1 =>
      cases ih h1
      have := (fetchRecord_eq_ok.mpr hp).symm.trans (fetchRecord_eq_ok.mpr hp1)
      cases this
      rfl

/-- Skipping goes from one record to the next ones. -/
theorem RecordAt.skip {k b : Nat} (h : RecordAt s k a) (h' : RecordAt s (k + n) b) : skipRecords s n a = .ok b := by
  induction n generalizing b with
  | zero => cases h.unique h'; rfl
  | succ n ih =>
    cases h' with
    | next h1 hp => rw [skipRecords_add (ih h1), skipRecords_succ_ok]; exact ⟨_, _, hp, rfl⟩

/-! ### Frame commands -/

theorem whenHeaderRead_of_ne {k : Result} (h : s.dec.state ≠ 1#2) :
    whenHeaderRead s k = .next (precheckDec .protocolViolation s) := if_pos h

theorem whenHeaderRead_of_eq {k : Result} (h : s.dec.state = 1#2) : whenHeaderRead s k = k :=
  if_neg (not_not.mpr h)

theorem whenFrameReady_of_ready {k : Result} (h : FrameReady s) : whenFrameReady s k = k := by
  rw [whenFrameReady, whenHeaderRead_of_eq h.1, if_neg (by have := h.2; omega)]

/-- A frame command takes a next state by a precheck error, or runs. -/
theorem whenFrameReady_eq_next {k : Result} (h : whenFrameReady s k = .next t) :
    (s.dec.state ≠ 1#2 ∧ t = precheckDec .protocolViolation s) ∨ (FrameReady s ∧ k = .next t) := by
  unfold whenFrameReady whenHeaderRead at h
  split at h
  · cases h; exact .inl ⟨by assumption, rfl⟩
  rename_i hs
  split at h
  · cases h
  · exact .inr ⟨⟨not_not.mp hs, by omega⟩, h⟩

theorem finishFrame_eq_next {size : Nat} {r : Run FrameRead} (h : finishFrame s size r = .next t) :
    (∃ f, r = .ok f ∧ t = completeFrame f s.dec.cursor.toNat size s) ∨
      ∃ k o, r = .error (.raise k o) ∧ t = streamError k o s := by
  cases r with
  | ok f => cases h; exact .inl ⟨f, rfl, rfl⟩
  | error e =>
    obtain ⟨k, o, rfl, rfl⟩ := stopDec_eq_next.mp h
    exact .inr ⟨k, o, rfl, rfl⟩

theorem finishFu_eq_next {r : Run State} (h : finishFu s r = .next t) :
    r = .ok t ∨ ∃ k o, r = .error (.raise k o) ∧ t = fuError k s := by
  cases r with
  | ok u => cases h; exact .inl rfl
  | error e =>
    obtain ⟨k, o, rfl, rfl⟩ := stopFu_eq_next.mp h
    exact .inr ⟨k, o, rfl, rfl⟩

end Sys2Proof.Machine
end

