-- ==== Sys2Proof/Laws/RunLength.lean ====
section
/-! SUPPORT. What the run-length coder can do, one packed value or one pixel at a time (42_run_length.md). -/

namespace Sys2Proof.Machine

variable {n : Nat} {deq : BitVec n → Color} {width maxRun : Nat}

/-! ### Decoder -/

/-- One packed value on the decoder registers: a literal, a run of the current colour, or a run with none. -/
theorem rleDecodeStep_eq_ok {p : Packed n} {d d' : RunDec} (h : rleDecodeStep deq width p d = .ok d') :
    (∃ v, p = .lit v ∧ d' = { d with
      curValid := true, cur := deq v, out := d.out ++ [deq v], offset := d.offset + width }) ∨
    (∃ c, p = .run c ∧ d.curValid = true ∧ d' = { d with
      out := d.out ++ List.replicate c.toNat d.cur, offset := d.offset + width }) := by
  cases p with
  | lit v => cases h; exact .inl ⟨v, rfl, rfl⟩
  | run c =>
    simp only [rleDecodeStep] at h
    split at h
    · rename_i hv; cases h; exact .inr ⟨c, rfl, hv, rfl⟩
    · cases h

theorem rleDecodeStep_eq_error {p : Packed n} {d : RunDec} {a : Nat} (h : rleDecodeStep deq width p d = .error a) :
    a = d.offset ∧ d.curValid = false ∧ ∃ c, p = .run c := by
  cases p with
  | lit v => cases h
  | run c =>
    simp only [rleDecodeStep] at h
    split at h
    · cases h
    · rename_i hv; cases h; exact ⟨rfl, by simpa using hv, c, rfl⟩

/-- A decoder with a current colour accepts every packed value and keeps a current colour. -/
theorem rleDecodeStep_of_curValid {d : RunDec} (h : d.curValid = true) (p : Packed n) :
    ∃ d', rleDecodeStep deq width p d = .ok d' ∧ d'.curValid = true := by
  cases p with
  | lit v => exact ⟨_, rfl, rfl⟩
  | run c => simp [rleDecodeStep, h]

theorem rleDecode_cons (p : Packed n) (ps : List (Packed n)) (d : RunDec) :
    rleDecode deq width (p :: ps) d = (rleDecodeStep deq width p d).bind fun d' => rleDecode deq width ps d' := by
  rw [rleDecode]
  cases rleDecodeStep deq width p d <;> rfl

/-- Decoding two payloads one after the other. -/
theorem rleDecode_append (ps qs : List (Packed n)) (d : RunDec) :
    rleDecode deq width (ps ++ qs) d = (rleDecode deq width ps d).bind fun d' => rleDecode deq width qs d' := by
  induction ps generalizing d with
  | nil => rfl
  | cons p ps ih =>
    rw [List.cons_append, rleDecode_cons, rleDecode_cons]
    cases rleDecodeStep deq width p d with
    | error a => rfl
    | ok d' => exact ih d'

/-- What a decode that completes keeps and where it ends: the unit, the offset past the payload, the pixels only grow. -/
theorem rleDecode_eq_ok {ps : List (Packed n)} {d d' : RunDec} (h : rleDecode deq width ps d = .ok d') :
    d'.user = d.user ∧ d'.offset = d.offset + width * ps.length ∧ d.out <+: d'.out ∧
      (d.curValid = true → d'.curValid = true) := by
  induction ps generalizing d with
  | nil => cases h; exact ⟨rfl, by simp, List.prefix_refl _, id⟩
  | cons p ps ih =>
    rw [rleDecode_cons] at h
    cases hs : rleDecodeStep deq width p d with
    | error a => rw [hs] at h; cases h
    | ok d1 =>
      rw [hs] at h
      obtain ⟨h1, h2, h3, h4⟩ := ih h
      rcases rleDecodeStep_eq_ok hs with ⟨v, -, rfl⟩ | ⟨c, -, hv, rfl⟩
      · refine ⟨h1, ?_, (List.prefix_append _ _).trans h3, fun _ => h4 rfl⟩
        rw [h2, List.length_cons]; ring
      · refine ⟨h1, ?_, (List.prefix_append _ _).trans h3, h4⟩
        rw [h2, List.length_cons]; ring

/-- A decoder with a current colour never stops. -/
theorem rleDecode_of_curValid (ps : List (Packed n)) {d : RunDec} (h : d.curValid = true) :
    ∃ d', rleDecode deq width ps d = .ok d' := by
  induction ps generalizing d with
  | nil => exact ⟨d, rfl⟩
  | cons p ps ih =>
    obtain ⟨d1, h1, h2⟩ := rleDecodeStep_of_curValid (deq := deq) (width := width) h p
    rw [rleDecode_cons, h1]
    exact ih h2

/-! ### Encoder -/

/-- One value on the encoder registers: absorbed into the pending run, or a flush and a new literal. -/
theorem rleEncodeStep_cases (e : RunEnc n) (v : BitVec n) :
    (e.haveLit = true ∧ v = e.lit ∧ e.run < maxRun ∧
      rleEncodeStep maxRun e v = ([], { e with run := e.run + 1 })) ∨
    (¬ (e.haveLit = true ∧ v = e.lit ∧ e.run < maxRun) ∧
      rleEncodeStep maxRun e v = (rleFlush e ++ [.lit v], { haveLit := true, lit := v, run := 0 })) := by
  unfold rleEncodeStep
  split
  · rename_i h; exact .inl ⟨h.1, h.2.1, h.2.2, rfl⟩
  · rename_i h; exact .inr ⟨h, rfl⟩

theorem rleEncodeFrom_nil (e : RunEnc n) : rleEncodeFrom maxRun e [] = (rleFlush e, e) := rfl

theorem rleEncodeFrom_cons (e : RunEnc n) (v : BitVec n) (vs : List (BitVec n)) :
    rleEncodeFrom maxRun e (v :: vs) =
      ((rleEncodeStep maxRun e v).1 ++ (rleEncodeFrom maxRun (rleEncodeStep maxRun e v).2 vs).1,
        (rleEncodeFrom maxRun (rleEncodeStep maxRun e v).2 vs).2) := rfl

/-- A value that the pending run takes in adds nothing to the output yet. -/
theorem rleEncodeFrom_absorb {e : RunEnc n} (vs : List (BitVec n)) (h : e.haveLit = true) (hr : e.run < maxRun) :
    rleEncodeFrom maxRun e (e.lit :: vs) = rleEncodeFrom maxRun { e with run := e.run + 1 } vs := by
  rw [rleEncodeFrom_cons, rleEncodeStep, if_pos ⟨h, rfl, hr⟩]; rfl

/-- A value that the pending run does not take in flushes it and starts a new literal. -/
theorem rleEncodeFrom_literal {e : RunEnc n} {v : BitVec n} (vs : List (BitVec n))
    (h : ¬ (e.haveLit = true ∧ v = e.lit ∧ e.run < maxRun)) :
    (rleEncodeFrom maxRun e (v :: vs)).1 =
      rleFlush e ++ .lit v :: (rleEncodeFrom maxRun { haveLit := true, lit := v, run := 0 } vs).1 := by
  rw [rleEncodeFrom_cons, rleEncodeStep, if_neg h]
  simp

/-- A pending run takes in equal values as long as it stays within `max_run`. -/
theorem rleEncodeFrom_replicate (j : Nat) {e : RunEnc n} (rest : List (BitVec n)) (h : e.haveLit = true)
    (hj : e.run + j ≤ maxRun) :
    rleEncodeFrom maxRun e (List.replicate j e.lit ++ rest) = rleEncodeFrom maxRun { e with run := e.run + j } rest := by
  induction j generalizing e with
  | zero => rfl
  | succ j ih =>
    rw [List.replicate_succ, List.cons_append, rleEncodeFrom_absorb _ h (by omega)]
    rw [show rleEncodeFrom maxRun { e with run := e.run + 1 } (List.replicate j e.lit ++ rest) =
      rleEncodeFrom maxRun { e with run := e.run + 1 + j } rest from
        ih (e := { e with run := e.run + 1 }) h (by simp only; omega)]
    rw [show e.run + 1 + j = e.run + (j + 1) by omega]

/-- The pending run never exceeds `max_run`. -/
theorem rleEncodeFrom_run_le (vs : List (BitVec n)) {e : RunEnc n} (h : e.run ≤ maxRun) :
    (rleEncodeFrom maxRun e vs).2.run ≤ maxRun := by
  induction vs generalizing e with
  | nil => exact h
  | cons v vs ih =>
    rw [rleEncodeFrom_cons]
    rcases rleEncodeStep_cases (maxRun := maxRun) e v with ⟨-, -, hr, he⟩ | ⟨-, he⟩ <;> rw [he]
    · exact ih (e := { e with run := e.run + 1 }) (by simpa using hr)
    · exact ih (e := ⟨true, v, 0⟩) (by simp)

@[simp] theorem RunEnc.widen_run (e : RunEnc n) : e.widen.run = e.run := rfl

/-- The output is no longer than what was pending plus one packed value for each input value. -/
theorem rleEncodeFrom_length_le (vs : List (BitVec n)) (e : RunEnc n) :
    (rleEncodeFrom maxRun e vs).1.length ≤ min e.run 1 + vs.length := by
  induction vs generalizing e with
  | nil =>
    rw [rleEncodeFrom_nil, rleFlush]
    split <;> simp <;> omega
  | cons v vs ih =>
    rw [rleEncodeFrom_cons]
    rcases rleEncodeStep_cases (maxRun := maxRun) e v with ⟨-, -, hr, he⟩ | ⟨-, he⟩ <;> rw [he]
    · have := ih { e with run := e.run + 1 }
      simp only [List.nil_append, List.length_cons] at this ⊢
      omega
    · have := ih ⟨true, v, 0⟩
      simp only [List.length_append, List.length_cons, List.length_nil] at this ⊢
      unfold rleFlush
      split <;> simp <;> omega

/-! ### Bytes of packed values -/

@[simp] theorem bytesOf8_length (ps : List (Packed 7)) : (bytesOf8 ps).length = ps.length := by
  simp [bytesOf8]

@[simp] theorem bytesOf16_length (ps : List (Packed 15)) : (bytesOf16 ps).length = 2 * ps.length := by
  induction ps with
  | nil => rfl
  | cons p ps ih => simp only [bytesOf16, List.length_append, be16_length, ih, List.length_cons]; omega

theorem bytesOf16_eq_flatMap (ps : List (Packed 15)) : bytesOf16 ps = ps.flatMap fun p => be16 (pack16 p) := by
  induction ps with
  | nil => rfl
  | cons p ps ih => rw [bytesOf16, ih]; rfl

@[simp] theorem map_unpack8_bytesOf8 (ps : List (Packed 7)) : (bytesOf8 ps).map unpack8 = ps := by
  simp [bytesOf8, Function.comp_def]

theorem packed16sOf_be16_append (v : BitVec 16) (bytes : List Byte) :
    packed16sOf (be16 v ++ bytes) = unpack16 v :: packed16sOf bytes := by
  simp [be16, packed16sOf]

@[simp] theorem packed16sOf_flatMap (ws : List (BitVec 16)) : packed16sOf (ws.flatMap be16) = ws.map unpack16 := by
  induction ws with
  | nil => rfl
  | cons w ws ih => rw [List.flatMap_cons, packed16sOf_be16_append, ih]; rfl

@[simp] theorem packed16sOf_bytesOf16 (ps : List (Packed 15)) : packed16sOf (bytesOf16 ps) = ps := by
  induction ps with
  | nil => rfl
  | cons p ps ih => rw [bytesOf16, packed16sOf_be16_append, ih, unpack16_pack16]

end Sys2Proof.Machine
end

