-- ==== Sys2Proof/Laws/Codecs.lean ====
section
/-! SUPPORT. What the read rules and the write rules of the frame codecs can answer (43_frame_codecs.md). -/

namespace Sys2Proof.Machine

variable {s : State} {a : Nat}

/-! ### Palette and indices -/

/-- The palette entries that the stream holds are read, one after the other. -/
theorem readPalette_append (pal : List Color) (k : Nat) (h : StreamAt s a (pixelBytes pal)) :
    readPalette s a (pal.length + k) = (readPalette s (a + 3 * pal.length) k).map fun rest => pal ++ rest := by
  induction pal generalizing a with
  | nil => simp only [List.length_nil, Nat.zero_add, List.nil_append, Nat.mul_zero, Nat.add_zero]
           cases readPalette s a k <;> rfl
  | cons c pal ih =>
    rw [pixelBytes, streamAt_append] at h
    have h2 := ih (show StreamAt s (a + 3) (pixelBytes pal) from h.2)
    rw [List.length_cons, show pal.length + 1 + k = (pal.length + k) + 1 by omega, readPalette,
      getColor_eq_ok.mpr h.1]
    simp only [bind, Except.bind]
    rw [h2, show a + 3 * (pal.length + 1) = a + 3 + 3 * pal.length by omega]
    cases readPalette s (a + 3 + 3 * pal.length) k <;> rfl

theorem readPalette_eq_ok_length {n : Nat} {pal : List Color} (h : readPalette s a n = .ok pal) : pal.length = n := by
  induction n generalizing a pal with
  | zero => cases h; rfl
  | succ n ih =>
    simp only [readPalette, bind, Except.bind] at h
    split at h <;> [cases h; skip]
    split at h <;> [cases h; skip]
    rename_i rest hr
    cases h
    simp [ih hr]

theorem readPalette_eq_error {n : Nat} {e : Stop} (h : readPalette s a n = .error e) :
    ∃ i < n, LoadStop s (a + 3 * i) 3 e := by
  induction n generalizing a with
  | zero => cases h
  | succ n ih =>
    simp only [readPalette, bind, Except.bind] at h
    split at h
    · rename_i hc; cases h; exact ⟨0, by omega, getColor_eq_error hc⟩
    split at h
    · rename_i hr; cases h
      obtain ⟨i, hi, hl⟩ := ih hr
      exact ⟨i + 1, by omega, by rwa [show a + 3 * (i + 1) = a + 3 + 3 * i by omega]⟩
    · cases h

/-- The index bytes that the stream holds and that name palette entries are read, one after the other. -/
theorem readIndexed_append {pal : List Color} (idx : List Byte) (frame : List Color) (k : Nat)
    (h : StreamAt s a idx) (hf : idx.map (fun b => pal[b.toNat]?) = frame.map some) :
    readIndexed s pal a (idx.length + k) =
      (readIndexed s pal (a + idx.length) k).map fun rest => frame ++ rest := by
  induction idx generalizing a frame with
  | nil =>
    cases frame with
    | cons c cs => simp at hf
    | nil =>
      simp only [List.length_nil, Nat.zero_add, List.nil_append, Nat.add_zero]
      cases readIndexed s pal a k <;> rfl
  | cons b idx ih =>
    cases frame with
    | nil => simp at hf
    | cons c frame =>
      rw [List.map_cons, List.map_cons, List.cons.injEq] at hf
      rw [streamAt_cons] at h
      rw [List.length_cons, show idx.length + 1 + k = (idx.length + k) + 1 by omega, readIndexed,
        getU8_eq_ok.mpr h.1]
      simp only [bind, Except.bind, hf.1]
      rw [ih frame h.2 hf.2, show a + (idx.length + 1) = a + 1 + idx.length by omega]
      cases readIndexed s pal (a + 1 + idx.length) k <;> rfl

theorem readIndexed_eq_ok_length {pal : List Color} {n : Nat} {frame : List Color}
    (h : readIndexed s pal a n = .ok frame) : frame.length = n := by
  induction n generalizing a frame with
  | zero => cases h; rfl
  | succ n ih =>
    simp only [readIndexed, bind, Except.bind] at h
    split at h <;> [cases h; skip]
    split at h <;> [cases h; skip]
    split at h <;> [cases h; skip]
    rename_i rest hr
    cases h
    simp [ih hr]

theorem readIndexed_eq_error {pal : List Color} {n : Nat} {e : Stop} (h : readIndexed s pal a n = .error e) :
    ∃ i < n, LoadStop s (a + i) 1 e ∨ e = .raise .badPaletteIndex (a + i) := by
  induction n generalizing a with
  | zero => cases h
  | succ n ih =>
    simp only [readIndexed, bind, Except.bind] at h
    split at h
    · rename_i hc; cases h; exact ⟨0, by omega, .inl (getU8_eq_error hc)⟩
    split at h
    · cases h; exact ⟨0, by omega, .inr rfl⟩
    split at h
    · rename_i hr; cases h
      obtain ⟨i, hi, hl⟩ := ih hr
      exact ⟨i + 1, by omega, by rwa [show a + (i + 1) = a + 1 + i by omega]⟩
    · cases h

/-! ### The loop over packed values -/

section loop
variable {n : Nat} {fetchAt : Nat → Run (Packed n)} {deq : BitVec n → Color} {width rec N : Nat}

/-- The loop over values that are all there and make no more than `N` pixels is the run-length decoder. -/
theorem quantLoop_append (ps : List (Packed n)) (k : Nat) {d d' : RunDec}
    (hf : ∀ i p, ps[i]? = some p → fetchAt (d.offset + width * i) = .ok p)
    (hd : rleDecode deq width ps d = .ok d') (hN : d'.out.length ≤ N) :
    quantLoop fetchAt deq width rec N (ps.length + k) d = quantLoop fetchAt deq width rec N k d' := by
  induction ps generalizing d with
  | nil => cases hd; rw [List.length_nil, Nat.zero_add]
  | cons p ps ih =>
    rw [rleDecode_cons] at hd
    cases hs : rleDecodeStep deq width p d with
    | error e => rw [hs] at hd; cases hd
    | ok d1 =>
      rw [hs] at hd
      have h0 : fetchAt d.offset = .ok p := by simpa using hf 0 p rfl
      have ho : d1.offset = d.offset + width := by
        rcases rleDecodeStep_eq_ok hs with ⟨v, -, rfl⟩ | ⟨c, -, -, rfl⟩ <;> rfl
      have hle : d1.out.length ≤ N := (rleDecode_eq_ok hd).2.2.1.length_le.trans hN
      rw [List.length_cons, show ps.length + 1 + k = (ps.length + k) + 1 by omega, quantLoop, h0]
      simp only [bind, Except.bind, hs, Except.mapError, if_neg (Nat.not_lt.mpr hle)]
      refine ih (fun i q hq => ?_) hd
      rw [ho, show d.offset + width + width * i = d.offset + width * (i + 1) by ring]
      exact hf (i + 1) q (by simpa using hq)

/-- The loop over values that are all there and make more than `N` pixels is PayloadMismatch at the record. -/
theorem quantLoop_tooMany (ps : List (Packed n)) (k : Nat) {d d' : RunDec}
    (hf : ∀ i p, ps[i]? = some p → fetchAt (d.offset + width * i) = .ok p)
    (hd : rleDecode deq width ps d = .ok d') (hN : N < d'.out.length) (h0 : d.out.length ≤ N) :
    quantLoop fetchAt deq width rec N (ps.length + k) d = .error (.raise .payloadMismatch rec) := by
  induction ps generalizing d with
  | nil => cases hd; omega
  | cons p ps ih =>
    rw [rleDecode_cons] at hd
    cases hs : rleDecodeStep deq width p d with
    | error e => rw [hs] at hd; cases hd
    | ok d1 =>
      rw [hs] at hd
      have hp : fetchAt d.offset = .ok p := by simpa using hf 0 p rfl
      have ho : d1.offset = d.offset + width := by
        rcases rleDecodeStep_eq_ok hs with ⟨v, -, rfl⟩ | ⟨c, -, -, rfl⟩ <;> rfl
      rw [List.length_cons, show ps.length + 1 + k = (ps.length + k) + 1 by omega, quantLoop, hp]
      simp only [bind, Except.bind, hs, Except.mapError]
      split
      · rfl
      · refine ih (fun i q hq => ?_) hd (by omega)
        rw [ho, show d.offset + width + width * i = d.offset + width * (i + 1) by ring]
        exact hf (i + 1) q (by simpa using hq)

/-- The loop over no pixels meets a leading run marker: MalformedRun at its offset. -/
theorem quantLoop_malformed (ps : List (Packed n)) (k : Nat) {d : RunDec} {e : Nat} (hv : d.curValid = false)
    (hf : ∀ i p, ps[i]? = some p → fetchAt (d.offset + width * i) = .ok p)
    (hd : rleDecode deq width ps d = .error e) :
    quantLoop fetchAt deq width rec N (ps.length + k) d = .error (.raise .malformedRun e) := by
  cases ps with
  | nil => cases hd
  | cons p ps =>
    rw [rleDecode_cons] at hd
    have hp : fetchAt d.offset = .ok p := by simpa using hf 0 p rfl
    rw [List.length_cons, show ps.length + 1 + k = (ps.length + k) + 1 by omega, quantLoop, hp]
    cases hs : rleDecodeStep deq width p d with
    | error a => rw [hs] at hd; cases hd; simp [bind, Except.bind, Except.mapError, hs]
    | ok d1 =>
      rw [hs] at hd
      have hv1 : d1.curValid = true := by
        rcases rleDecodeStep_eq_ok hs with ⟨v, -, rfl⟩ | ⟨c, -, h, rfl⟩
        · rfl
        · rw [hv] at h; cases h
      obtain ⟨d2, h2⟩ := rleDecode_of_curValid (deq := deq) (width := width) ps hv1
      simp only [Except.bind] at hd
      rw [h2] at hd; cases hd

/-- A loop that completes makes at most `N` pixels. -/
theorem quantLoop_eq_ok {k : Nat} {d d' : RunDec} (h : quantLoop fetchAt deq width rec N k d = .ok d')
    (h0 : d.out.length ≤ N) : d'.out.length ≤ N := by
  induction k generalizing d with
  | zero => cases h; exact h0
  | succ k ih =>
    simp only [quantLoop, bind, Except.bind] at h
    split at h <;> [cases h; skip]
    split at h <;> [cases h; skip]
    split at h
    · cases h
    · exact ih h (by omega)

/-- What a loop that stops answers. -/
theorem quantLoop_eq_error {k : Nat} {d : RunDec} {e : Stop} (h : quantLoop fetchAt deq width rec N k d = .error e) :
    (∃ b, fetchAt b = .error e) ∨ (∃ b, e = .raise .malformedRun b) ∨ e = .raise .payloadMismatch rec := by
  induction k generalizing d with
  | zero => cases h
  | succ k ih =>
    simp only [quantLoop, bind, Except.bind] at h
    split at h
    · rename_i hf; cases h; exact .inl ⟨_, hf⟩
    split at h
    · rename_i p hp _ _ hs
      cases h
      cases hs' : rleDecodeStep deq width p d with
      | ok d1 => rw [hs'] at hs; cases hs
      | error b => rw [hs'] at hs; cases hs; exact .inr (.inl ⟨b, rfl⟩)
    split at h
    · cases h; exact .inr (.inr rfl)
    · exact ih h

end loop

/-- The 8-bit values of a stream, one byte each. -/
theorem fetch8_streamAt {ps : List Byte} (h : StreamAt s a ps) (i : Nat) (p : Packed 7)
    (hp : (ps.map unpack8)[i]? = some p) : (getU8 s (a + 1 * i)).map unpack8 = .ok p := by
  rw [List.getElem?_map, Option.map_eq_some_iff] at hp
  obtain ⟨b, hb, rfl⟩ := hp
  have hi : i < ps.length := (List.getElem?_eq_some_iff.mp hb).1
  have : getU8 s (a + 1 * i) = .ok b := by
    rw [getU8_eq_ok, streamAt_singleton, Nat.one_mul]
    exact ⟨by rw [h.1 i hi, hb], by have := h.2; omega⟩
  rw [this]; rfl

/-- The 16-bit values of a stream, two bytes each. -/
theorem fetch16_streamAt {ps : List (BitVec 16)} (h : StreamAt s a (ps.flatMap be16)) (i : Nat) (p : Packed 15)
    (hp : (ps.map unpack16)[i]? = some p) : (getU16 s (a + 2 * i)).map unpack16 = .ok p := by
  induction ps generalizing a i with
  | nil => simp at hp
  | cons w ps ih =>
    rw [List.flatMap_cons, streamAt_append] at h
    cases i with
    | zero =>
      simp only [List.map_cons, List.getElem?_cons_zero, Option.some.injEq] at hp
      subst hp
      rw [Nat.mul_zero, Nat.add_zero, getU16_eq_ok.mpr h.1]; rfl
    | succ i =>
      have := ih h.2 i (by simpa using hp)
      rwa [be16_length, show a + 2 + 2 * i = a + 2 * (i + 1) by ring] at this

/-! ### Read rules -/

/-- What a read rule that completes answers: the frame is at most the resolution (or the last frame again), and the
command-local registers change only where the rule uses them. -/
theorem readRule_eq_ok {ft : FrameType} {size : Nat} {f : FrameRead} (h : readRule ft s size = .ok f) :
    (f.frame.length ≤ s.dec.header.pixels ∨ (s.dec.lastValid = true ∧ f.frame = s.dec.lastFrame)) ∧
      f.work.runEnc = s.work.runEnc ∧ (f.work.pal = s.work.pal ∨ f.work.pal.length ≤ 255) := by
  cases ft with
  | raw =>
    simp only [readRule, rawRead] at h
    split at h <;> [cases h; skip]
    cases hm : memRead s (s.dec.cursor.toNat + 5)
      (3 * (min size (s.dlen - (s.dec.cursor.toNat + 5)) / 3)) with
    | error e => rw [hm] at h; cases h
    | ok bytes =>
      rw [hm] at h
      cases h
      have hl := (memRead_eq_ok.mp hm).1
      have hp := congrArg List.length (pixelBytes_pixelsOf bytes (by omega))
      rw [pixelBytes_length] at hp
      exact ⟨.inl (by dsimp only; omega), rfl, .inl rfl⟩
  | colorMapped =>
    simp only [readRule, cmapRead, bind, Except.bind] at h
    split at h <;> [cases h; skip]
    split at h <;> [cases h; skip]
    rename_i P _
    split at h <;> [cases h; skip]
    split at h <;> [cases h; skip]
    rename_i pal hpal
    split at h <;> [cases h; skip]
    rename_i frame hf
    cases h
    have h1 := readPalette_eq_ok_length hpal
    have h2 := readIndexed_eq_ok_length hf
    have := P.isLt
    exact ⟨.inl (by dsimp only; omega), rfl, .inr (by dsimp only; omega)⟩
  | quantized16 =>
    simp only [readRule, q16Read, bind, Except.bind, quantFrame] at h
    split at h <;> [cases h; skip]
    split at h <;> [cases h; skip]
    rename_i d hd
    split at h <;> [cases h; skip]
    cases h
    exact ⟨.inl (by dsimp only; omega), rfl, .inl rfl⟩
  | quantized8 =>
    simp only [readRule, q8Read, bind, Except.bind, quantFrame] at h
    split at h <;> [cases h; skip]
    rename_i d hd
    split at h <;> [cases h; skip]
    cases h
    exact ⟨.inl (by dsimp only; omega), rfl, .inl rfl⟩
  | repeated =>
    simp only [readRule, repeatedRead] at h
    split at h <;> [cases h; skip]
    split at h <;> [cases h; skip]
    rename_i hv
    cases h
    exact ⟨.inr ⟨by simpa using hv, rfl⟩, rfl, .inl rfl⟩

theorem loadStop_raise {n : Nat} {k : ErrKind} {o : Nat} (h : LoadStop s a n (.raise k o)) : k = .truncatedRead := by
  rcases h with ⟨h, -⟩ | ⟨_, h, -⟩
  · cases h; rfl
  · cases h

theorem map_eq_error {α β : Type} {f : α → β} {r : Run α} {e : Stop} (h : r.map f = .error e) : r = .error e := by
  cases r with
  | ok x => cases h
  | error e' => cases h; rfl

/-- The errors a read rule can raise (60 R220). -/
theorem readRule_eq_raise {ft : FrameType} {size : Nat} {k : ErrKind} {o : Nat}
    (h : readRule ft s size = .error (.raise k o)) :
    k ∈ [ErrKind.truncatedRead, .payloadMismatch, .badPaletteIndex, .malformedRun, .noPreviousFrame] := by
  cases ft with
  | raw =>
    simp only [readRule, rawRead] at h
    split at h
    · cases h; simp
    · obtain ⟨b, hb⟩ := memRead_eq_error (map_eq_error h)
      cases hb
  | colorMapped =>
    simp only [readRule, cmapRead, bind, Except.bind] at h
    split at h
    · cases h; simp
    split at h
    · rename_i hg; cases h; simp [loadStop_raise (getU8_eq_error hg)]
    split at h
    · cases h; simp
    split at h
    · rename_i hp; cases h
      obtain ⟨i, -, hl⟩ := readPalette_eq_error hp
      simp [loadStop_raise hl]
    split at h
    · rename_i hp; cases h
      obtain ⟨i, -, hl | hl⟩ := readIndexed_eq_error hp
      · simp [loadStop_raise hl]
      · cases hl; simp
    · cases h
  | quantized16 =>
    simp only [readRule, q16Read, bind, Except.bind, quantFrame] at h
    split at h
    · cases h; simp
    split at h
    · rename_i hq; cases h
      rcases quantLoop_eq_error hq with ⟨b, hb⟩ | ⟨b, hb⟩ | hb
      · simp [loadStop_raise (getU16_eq_error (map_eq_error hb))]
      · cases hb; simp
      · cases hb; simp
    split at h
    · cases h; simp
    · cases h
  | quantized8 =>
    simp only [readRule, q8Read, bind, Except.bind, quantFrame] at h
    split at h
    · rename_i hq; cases h
      rcases quantLoop_eq_error hq with ⟨b, hb⟩ | ⟨b, hb⟩ | hb
      · simp [loadStop_raise (getU8_eq_error (map_eq_error hb))]
      · cases hb; simp
      · cases hb; simp
    split at h
    · cases h; simp
    · cases h
  | repeated =>
    simp only [readRule, repeatedRead] at h
    split at h
    · cases h; simp
    split at h
    · cases h; simp
    · cases h

/-! ### Write rules -/

/-- The palette gathers each colour once, and no others. -/
theorem paletteFrom_spec (px pal : List Color) (h : pal.Nodup) :
    (paletteFrom pal px).Nodup ∧ (∀ c, c ∈ paletteFrom pal px ↔ c ∈ pal ∨ c ∈ px) ∧
      (paletteFrom pal px).length ≤ pal.length + px.length := by
  induction px generalizing pal with
  | nil => exact ⟨h, by simp [paletteFrom], by simp [paletteFrom]⟩
  | cons c cs ih =>
    rw [paletteFrom]
    split
    · rename_i hc
      obtain ⟨h1, h2, h3⟩ := ih pal h
      refine ⟨h1, fun x => ?_, by rw [List.length_cons]; omega⟩
      rw [h2, List.mem_cons]
      constructor
      · tauto
      · rintro (hx | rfl | hx) <;> tauto
    · rename_i hc
      obtain ⟨h1, h2, h3⟩ := ih (pal ++ [c]) (by
        rw [List.nodup_append]; exact ⟨h, by simp, fun x hx y hy => by
          rw [List.mem_singleton] at hy; subst hy; rintro rfl; exact hc hx⟩)
      refine ⟨h1, fun x => ?_, by rw [List.length_append, List.length_cons, List.length_nil] at h3; rw [List.length_cons]; omega⟩
      rw [h2, List.mem_append, List.mem_singleton, List.mem_cons]
      tauto

/-- The palette of a frame has no repeats and exactly the frame's colours. -/
theorem palette_spec (px : List Color) : (palette px).Nodup ∧ ∀ c, c ∈ palette px ↔ c ∈ px := by
  obtain ⟨h1, h2, -⟩ := paletteFrom_spec px [] List.nodup_nil
  exact ⟨h1, fun c => by have := h2 c; rwa [List.mem_nil_iff, false_or] at this⟩

/-- The palette's length is the number of distinct colours. -/
theorem palette_length (px : List Color) : (palette px).length = px.toFinset.card := by
  obtain ⟨h1, h2⟩ := palette_spec px
  rw [← List.toFinset_card_of_nodup h1]
  congr 1
  ext c
  simp [h2 c]

end Sys2Proof.Machine
end

