-- ==== Sys2Proof/Laws/PerInstr.lean ====
section
/-! SUPPORT. Statements about every instruction as syntax, one lemma per constructor. -/

namespace Sys2Proof.Laws.EncodingLength

/-- The bytes an encoding of a space has: a command and a PV8 value one, a PV16 value two, a record's prefix five
(30 R62, R68, R69, R74). -/
def spaceLength : Space → Nat
  | .command => 1
  | .frameRecord => 5
  | .packed8 => 1
  | .packed16 => 2

/-- The encoding of an instruction has the length its space gives it. -/
def Statement (i : Instr) : Prop := (encode i).length = spaceLength i.space

theorem raw (size : BitVec 32) : Statement (.raw size) := rfl

theorem colorMapped (size : BitVec 32) : Statement (.colorMapped size) := rfl

theorem quantized16 (size : BitVec 32) : Statement (.quantized16 size) := rfl

theorem quantized8 (size : BitVec 32) : Statement (.quantized8 size) := rfl

theorem repeated (size : BitVec 32) : Statement (.repeated size) := rfl

theorem lit8 (r : BitVec 3) (g b : BitVec 2) : Statement (.lit8 r g b) := rfl

theorem run8 (c : BitVec 7) : Statement (.run8 c) := rfl

theorem lit16 (r g b : BitVec 5) : Statement (.lit16 r g b) := rfl

theorem run16 (c : BitVec 15) : Statement (.run16 c) := rfl

theorem reset : Statement .reset := rfl

theorem readHeader : Statement .readHeader := rfl

theorem readFrame : Statement .readFrame := rfl

theorem skipFrame : Statement .skipFrame := rfl

theorem seek : Statement .seek := rfl

theorem dclose : Statement .dclose := rfl

theorem dreset : Statement .dreset := rfl

theorem writeHeader : Statement .writeHeader := rfl

theorem writeFrame : Statement .writeFrame := rfl

theorem eclose : Statement .eclose := rfl

theorem ereset : Statement .ereset := rfl

theorem quant7 : Statement .quant7 := rfl

theorem dequant7 : Statement .dequant7 := rfl

theorem quant15 : Statement .quant15 := rfl

theorem dequant15 : Statement .dequant15 := rfl

theorem rleEnc8 : Statement .rleEnc8 := rfl

theorem rleDec8 : Statement .rleDec8 := rfl

theorem rleEnc16 : Statement .rleEnc16 := rfl

theorem rleDec16 : Statement .rleDec16 := rfl

end Sys2Proof.Laws.EncodingLength
end

