-- ==== Sys2Proof/Laws/Quantizer.lean ====
section
/-! SUPPORT. The quantizer's fields and colours as numbers (41_quantizer.md). -/

namespace Sys2Proof.Machine

/-! ### Colour words -/

theorem wordOfColor_toNat (c : Color) :
    (wordOfColor c).toNat = c.r.toNat * 65536 + c.g.toNat * 256 + c.b.toNat := by
  rw [wordOfColor, BitVec.toNat_append, ← Nat.shiftLeft_add_eq_or_of_lt c.b.isLt, BitVec.toNat_append,
    ← Nat.shiftLeft_add_eq_or_of_lt c.g.isLt]
  simp only [Nat.shiftLeft_eq]
  omega

theorem colorOfWord_r (w : BitVec 24) : (colorOfWord w).r.toNat = w.toNat / 65536 := by
  have := w.isLt
  simp only [colorOfWord, BitVec.extractLsb'_toNat, Nat.shiftRight_eq_div_pow]
  omega

theorem colorOfWord_g (w : BitVec 24) : (colorOfWord w).g.toNat = w.toNat / 256 % 256 := by
  simp only [colorOfWord, BitVec.extractLsb'_toNat, Nat.shiftRight_eq_div_pow]

theorem colorOfWord_b (w : BitVec 24) : (colorOfWord w).b.toNat = w.toNat % 256 := by
  simp only [colorOfWord, BitVec.extractLsb'_toNat, Nat.shiftRight_eq_div_pow]
  omega

/-- A Color read back from its word. -/
@[simp] theorem colorOfWord_wordOfColor (c : Color) : colorOfWord (wordOfColor c) = c := by
  obtain ⟨r, g, b⟩ := c
  have hr := r.isLt
  have hg := g.isLt
  have hb := b.isLt
  have h := wordOfColor_toNat ⟨r, g, b⟩
  simp only at h
  have h1 := colorOfWord_r (wordOfColor ⟨r, g, b⟩)
  have h2 := colorOfWord_g (wordOfColor ⟨r, g, b⟩)
  have h3 := colorOfWord_b (wordOfColor ⟨r, g, b⟩)
  rw [h] at h1 h2 h3
  cases hc : colorOfWord (wordOfColor ⟨r, g, b⟩) with
  | mk r' g' b' =>
    rw [hc] at h1 h2 h3
    simp only at h1 h2 h3
    rw [Color.mk.injEq]
    exact ⟨BitVec.eq_of_toNat_eq (by omega), BitVec.eq_of_toNat_eq (by omega), BitVec.eq_of_toNat_eq (by omega)⟩

/-! ### Quantized values -/

theorem quantize7_toNat (c : Color) :
    (quantize7 c).toNat = c.r.toNat / 32 * 16 + c.g.toNat / 64 * 4 + c.b.toNat / 64 := by
  have hr := c.r.isLt
  have hg := c.g.isLt
  have hb := c.b.isLt
  simp only [quantize7, join7_toNat, BitVec.extractLsb'_toNat, Nat.shiftRight_eq_div_pow]
  norm_num
  omega

theorem quantize15_toNat (c : Color) :
    (quantize15 c).toNat = c.r.toNat / 8 * 1024 + c.g.toNat / 8 * 32 + c.b.toNat / 8 := by
  have hr := c.r.isLt
  have hg := c.g.isLt
  have hb := c.b.isLt
  simp only [quantize15, join15_toNat, BitVec.extractLsb'_toNat, Nat.shiftRight_eq_div_pow]
  norm_num
  omega

theorem dequantize7_r (v : BitVec 7) : (dequantize7 v).r.toNat = v.toNat / 16 * 32 + 16 := by
  have := v.isLt
  simp only [dequantize7, bias7, BitVec.toNat_add, BitVec.toNat_shiftLeft, BitVec.toNat_setWidth,
    BitVec.extractLsb'_toNat, Nat.shiftRight_eq_div_pow, Nat.shiftLeft_eq, BitVec.toNat_ofNat]
  omega

theorem dequantize7_g (v : BitVec 7) : (dequantize7 v).g.toNat = v.toNat / 4 % 4 * 64 + 16 := by
  simp only [dequantize7, bias7, BitVec.toNat_add, BitVec.toNat_shiftLeft, BitVec.toNat_setWidth,
    BitVec.extractLsb'_toNat, Nat.shiftRight_eq_div_pow, Nat.shiftLeft_eq, BitVec.toNat_ofNat]
  omega

theorem dequantize7_b (v : BitVec 7) : (dequantize7 v).b.toNat = v.toNat % 4 * 64 + 16 := by
  simp only [dequantize7, bias7, BitVec.toNat_add, BitVec.toNat_shiftLeft, BitVec.toNat_setWidth,
    BitVec.extractLsb'_toNat, Nat.shiftRight_eq_div_pow, Nat.shiftLeft_eq, BitVec.toNat_ofNat]
  omega

theorem dequantize15_r (v : BitVec 15) : (dequantize15 v).r.toNat = v.toNat / 1024 * 8 + 4 := by
  have := v.isLt
  simp only [dequantize15, bias15, BitVec.toNat_add, BitVec.toNat_shiftLeft, BitVec.toNat_setWidth,
    BitVec.extractLsb'_toNat, Nat.shiftRight_eq_div_pow, Nat.shiftLeft_eq, BitVec.toNat_ofNat]
  omega

theorem dequantize15_g (v : BitVec 15) : (dequantize15 v).g.toNat = v.toNat / 32 % 32 * 8 + 4 := by
  simp only [dequantize15, bias15, BitVec.toNat_add, BitVec.toNat_shiftLeft, BitVec.toNat_setWidth,
    BitVec.extractLsb'_toNat, Nat.shiftRight_eq_div_pow, Nat.shiftLeft_eq, BitVec.toNat_ofNat]
  omega

theorem dequantize15_b (v : BitVec 15) : (dequantize15 v).b.toNat = v.toNat % 32 * 8 + 4 := by
  simp only [dequantize15, bias15, BitVec.toNat_add, BitVec.toNat_shiftLeft, BitVec.toNat_setWidth,
    BitVec.extractLsb'_toNat, Nat.shiftRight_eq_div_pow, Nat.shiftLeft_eq, BitVec.toNat_ofNat]
  omega

end Sys2Proof.Machine
end

