-- ==== Sys2Proof/Laws/State.lean ====
section
/-! SUPPORT. One lemma per field per update of the state, each true by rfl, so that no proof unfolds a record update. -/

namespace Sys2Proof.Machine

/-! ### `streamError` -/

@[simp] theorem streamError_params (k : ErrKind) (o : Nat) (s : State) : (streamError k o s).params = s.params := rfl

@[simp] theorem streamError_dstream (k : ErrKind) (o : Nat) (s : State) : (streamError k o s).dstream = s.dstream := rfl

@[simp] theorem streamError_dlen (k : ErrKind) (o : Nat) (s : State) : (streamError k o s).dlen = s.dlen := rfl

@[simp] theorem streamError_pixin (k : ErrKind) (o : Nat) (s : State) : (streamError k o s).pixin = s.pixin := rfl

@[simp] theorem streamError_fuIn (k : ErrKind) (o : Nat) (s : State) : (streamError k o s).fuIn = s.fuIn := rfl

@[simp] theorem streamError_enc (k : ErrKind) (o : Nat) (s : State) : (streamError k o s).enc = s.enc := rfl

@[simp] theorem streamError_fu (k : ErrKind) (o : Nat) (s : State) : (streamError k o s).fu = s.fu := rfl

@[simp] theorem streamError_work (k : ErrKind) (o : Nat) (s : State) : (streamError k o s).work = s.work := rfl

@[simp] theorem streamError_pending (k : ErrKind) (o : Nat) (s : State) : (streamError k o s).pending = s.pending := rfl

@[simp] theorem streamError_hostData (k : ErrKind) (o : Nat) (s : State) : (streamError k o s).hostData = s.hostData := rfl

@[simp] theorem streamError_draws (k : ErrKind) (o : Nat) (s : State) : (streamError k o s).draws = s.draws := rfl

@[simp] theorem streamError_dec_state (k : ErrKind) (o : Nat) (s : State) :
    (streamError k o s).dec.state = 3#2 := rfl

@[simp] theorem streamError_dec_err (k : ErrKind) (o : Nat) (s : State) :
    (streamError k o s).dec.err = k.code := rfl

@[simp] theorem streamError_dec_errOffset (k : ErrKind) (o : Nat) (s : State) :
    (streamError k o s).dec.errOffset = BitVec.ofNat 64 o := rfl

@[simp] theorem streamError_dec_short (k : ErrKind) (o : Nat) (s : State) :
    (streamError k o s).dec.short = s.dec.short := rfl

@[simp] theorem streamError_dec_lastValid (k : ErrKind) (o : Nat) (s : State) :
    (streamError k o s).dec.lastValid = s.dec.lastValid := rfl

@[simp] theorem streamError_dec_header (k : ErrKind) (o : Nat) (s : State) :
    (streamError k o s).dec.header = s.dec.header := rfl

@[simp] theorem streamError_dec_headerSize (k : ErrKind) (o : Nat) (s : State) :
    (streamError k o s).dec.headerSize = s.dec.headerSize := rfl

@[simp] theorem streamError_dec_fileSize (k : ErrKind) (o : Nat) (s : State) :
    (streamError k o s).dec.fileSize = s.dec.fileSize := rfl

@[simp] theorem streamError_dec_cursor (k : ErrKind) (o : Nat) (s : State) :
    (streamError k o s).dec.cursor = s.dec.cursor := rfl

@[simp] theorem streamError_dec_frameIdx (k : ErrKind) (o : Nat) (s : State) :
    (streamError k o s).dec.frameIdx = s.dec.frameIdx := rfl

@[simp] theorem streamError_dec_outCount (k : ErrKind) (o : Nat) (s : State) :
    (streamError k o s).dec.outCount = 0#32 := rfl

@[simp] theorem streamError_dec_progress (k : ErrKind) (o : Nat) (s : State) :
    (streamError k o s).dec.progress = s.dec.progress := rfl

@[simp] theorem streamError_dec_pixout (k : ErrKind) (o : Nat) (s : State) :
    (streamError k o s).dec.pixout = [] := rfl

@[simp] theorem streamError_dec_lastFrame (k : ErrKind) (o : Nat) (s : State) :
    (streamError k o s).dec.lastFrame = s.dec.lastFrame := rfl

/-! ### `precheckDec` -/

@[simp] theorem precheckDec_params (k : ErrKind) (s : State) : (precheckDec k s).params = s.params := rfl

@[simp] theorem precheckDec_dstream (k : ErrKind) (s : State) : (precheckDec k s).dstream = s.dstream := rfl

@[simp] theorem precheckDec_dlen (k : ErrKind) (s : State) : (precheckDec k s).dlen = s.dlen := rfl

@[simp] theorem precheckDec_pixin (k : ErrKind) (s : State) : (precheckDec k s).pixin = s.pixin := rfl

@[simp] theorem precheckDec_fuIn (k : ErrKind) (s : State) : (precheckDec k s).fuIn = s.fuIn := rfl

@[simp] theorem precheckDec_enc (k : ErrKind) (s : State) : (precheckDec k s).enc = s.enc := rfl

@[simp] theorem precheckDec_fu (k : ErrKind) (s : State) : (precheckDec k s).fu = s.fu := rfl

@[simp] theorem precheckDec_work (k : ErrKind) (s : State) : (precheckDec k s).work = s.work := rfl

@[simp] theorem precheckDec_pending (k : ErrKind) (s : State) : (precheckDec k s).pending = s.pending := rfl

@[simp] theorem precheckDec_hostData (k : ErrKind) (s : State) : (precheckDec k s).hostData = s.hostData := rfl

@[simp] theorem precheckDec_draws (k : ErrKind) (s : State) : (precheckDec k s).draws = s.draws := rfl

@[simp] theorem precheckDec_dec_state (k : ErrKind) (s : State) :
    (precheckDec k s).dec.state = s.dec.state := rfl

@[simp] theorem precheckDec_dec_err (k : ErrKind) (s : State) :
    (precheckDec k s).dec.err = k.code := rfl

@[simp] theorem precheckDec_dec_errOffset (k : ErrKind) (s : State) :
    (precheckDec k s).dec.errOffset = s.dec.errOffset := rfl

@[simp] theorem precheckDec_dec_short (k : ErrKind) (s : State) :
    (precheckDec k s).dec.short = s.dec.short := rfl

@[simp] theorem precheckDec_dec_lastValid (k : ErrKind) (s : State) :
    (precheckDec k s).dec.lastValid = s.dec.lastValid := rfl

@[simp] theorem precheckDec_dec_header (k : ErrKind) (s : State) :
    (precheckDec k s).dec.header = s.dec.header := rfl

@[simp] theorem precheckDec_dec_headerSize (k : ErrKind) (s : State) :
    (precheckDec k s).dec.headerSize = s.dec.headerSize := rfl

@[simp] theorem precheckDec_dec_fileSize (k : ErrKind) (s : State) :
    (precheckDec k s).dec.fileSize = s.dec.fileSize := rfl

@[simp] theorem precheckDec_dec_cursor (k : ErrKind) (s : State) :
    (precheckDec k s).dec.cursor = s.dec.cursor := rfl

@[simp] theorem precheckDec_dec_frameIdx (k : ErrKind) (s : State) :
    (precheckDec k s).dec.frameIdx = s.dec.frameIdx := rfl

@[simp] theorem precheckDec_dec_outCount (k : ErrKind) (s : State) :
    (precheckDec k s).dec.outCount = s.dec.outCount := rfl

@[simp] theorem precheckDec_dec_progress (k : ErrKind) (s : State) :
    (precheckDec k s).dec.progress = s.dec.progress := rfl

@[simp] theorem precheckDec_dec_pixout (k : ErrKind) (s : State) :
    (precheckDec k s).dec.pixout = s.dec.pixout := rfl

@[simp] theorem precheckDec_dec_lastFrame (k : ErrKind) (s : State) :
    (precheckDec k s).dec.lastFrame = s.dec.lastFrame := rfl

/-! ### `precheckEnc` -/

@[simp] theorem precheckEnc_params (k : ErrKind) (s : State) : (precheckEnc k s).params = s.params := rfl

@[simp] theorem precheckEnc_dstream (k : ErrKind) (s : State) : (precheckEnc k s).dstream = s.dstream := rfl

@[simp] theorem precheckEnc_dlen (k : ErrKind) (s : State) : (precheckEnc k s).dlen = s.dlen := rfl

@[simp] theorem precheckEnc_pixin (k : ErrKind) (s : State) : (precheckEnc k s).pixin = s.pixin := rfl

@[simp] theorem precheckEnc_fuIn (k : ErrKind) (s : State) : (precheckEnc k s).fuIn = s.fuIn := rfl

@[simp] theorem precheckEnc_dec (k : ErrKind) (s : State) : (precheckEnc k s).dec = s.dec := rfl

@[simp] theorem precheckEnc_fu (k : ErrKind) (s : State) : (precheckEnc k s).fu = s.fu := rfl

@[simp] theorem precheckEnc_work (k : ErrKind) (s : State) : (precheckEnc k s).work = s.work := rfl

@[simp] theorem precheckEnc_pending (k : ErrKind) (s : State) : (precheckEnc k s).pending = s.pending := rfl

@[simp] theorem precheckEnc_hostData (k : ErrKind) (s : State) : (precheckEnc k s).hostData = s.hostData := rfl

@[simp] theorem precheckEnc_draws (k : ErrKind) (s : State) : (precheckEnc k s).draws = s.draws := rfl

@[simp] theorem precheckEnc_enc_state (k : ErrKind) (s : State) :
    (precheckEnc k s).enc.state = s.enc.state := rfl

@[simp] theorem precheckEnc_enc_err (k : ErrKind) (s : State) :
    (precheckEnc k s).enc.err = k.code := rfl

@[simp] theorem precheckEnc_enc_prevValid (k : ErrKind) (s : State) :
    (precheckEnc k s).enc.prevValid = s.enc.prevValid := rfl

@[simp] theorem precheckEnc_enc_quality (k : ErrKind) (s : State) :
    (precheckEnc k s).enc.quality = s.enc.quality := rfl

@[simp] theorem precheckEnc_enc_header (k : ErrKind) (s : State) :
    (precheckEnc k s).enc.header = s.enc.header := rfl

@[simp] theorem precheckEnc_enc_cursor (k : ErrKind) (s : State) :
    (precheckEnc k s).enc.cursor = s.enc.cursor := rfl

@[simp] theorem precheckEnc_enc_frameIdx (k : ErrKind) (s : State) :
    (precheckEnc k s).enc.frameIdx = s.enc.frameIdx := rfl

@[simp] theorem precheckEnc_enc_estream (k : ErrKind) (s : State) :
    (precheckEnc k s).enc.estream = s.enc.estream := rfl

@[simp] theorem precheckEnc_enc_prevFrame (k : ErrKind) (s : State) :
    (precheckEnc k s).enc.prevFrame = s.enc.prevFrame := rfl

/-! ### `fuError` -/

@[simp] theorem fuError_params (k : ErrKind) (s : State) : (fuError k s).params = s.params := rfl

@[simp] theorem fuError_dstream (k : ErrKind) (s : State) : (fuError k s).dstream = s.dstream := rfl

@[simp] theorem fuError_dlen (k : ErrKind) (s : State) : (fuError k s).dlen = s.dlen := rfl

@[simp] theorem fuError_pixin (k : ErrKind) (s : State) : (fuError k s).pixin = s.pixin := rfl

@[simp] theorem fuError_fuIn (k : ErrKind) (s : State) : (fuError k s).fuIn = s.fuIn := rfl

@[simp] theorem fuError_dec (k : ErrKind) (s : State) : (fuError k s).dec = s.dec := rfl

@[simp] theorem fuError_enc (k : ErrKind) (s : State) : (fuError k s).enc = s.enc := rfl

@[simp] theorem fuError_work (k : ErrKind) (s : State) : (fuError k s).work = s.work := rfl

@[simp] theorem fuError_pending (k : ErrKind) (s : State) : (fuError k s).pending = s.pending := rfl

@[simp] theorem fuError_hostData (k : ErrKind) (s : State) : (fuError k s).hostData = s.hostData := rfl

@[simp] theorem fuError_draws (k : ErrKind) (s : State) : (fuError k s).draws = s.draws := rfl

@[simp] theorem fuError_fu_err (k : ErrKind) (s : State) :
    (fuError k s).fu.err = k.code := rfl

@[simp] theorem fuError_fu_color (k : ErrKind) (s : State) :
    (fuError k s).fu.color = s.fu.color := rfl

@[simp] theorem fuError_fu_value (k : ErrKind) (s : State) :
    (fuError k s).fu.value = s.fu.value := rfl

@[simp] theorem fuError_fu_inLen (k : ErrKind) (s : State) :
    (fuError k s).fu.inLen = s.fu.inLen := rfl

@[simp] theorem fuError_fu_outLen (k : ErrKind) (s : State) :
    (fuError k s).fu.outLen = 0#32 := rfl

@[simp] theorem fuError_fu_fuOut (k : ErrKind) (s : State) :
    (fuError k s).fu.fuOut = [] := rfl

/-! ### `moveCursor` -/

@[simp] theorem moveCursor_params (c i : Nat) (s : State) : (moveCursor c i s).params = s.params := rfl

@[simp] theorem moveCursor_dstream (c i : Nat) (s : State) : (moveCursor c i s).dstream = s.dstream := rfl

@[simp] theorem moveCursor_dlen (c i : Nat) (s : State) : (moveCursor c i s).dlen = s.dlen := rfl

@[simp] theorem moveCursor_pixin (c i : Nat) (s : State) : (moveCursor c i s).pixin = s.pixin := rfl

@[simp] theorem moveCursor_fuIn (c i : Nat) (s : State) : (moveCursor c i s).fuIn = s.fuIn := rfl

@[simp] theorem moveCursor_enc (c i : Nat) (s : State) : (moveCursor c i s).enc = s.enc := rfl

@[simp] theorem moveCursor_fu (c i : Nat) (s : State) : (moveCursor c i s).fu = s.fu := rfl

@[simp] theorem moveCursor_work (c i : Nat) (s : State) : (moveCursor c i s).work = s.work := rfl

@[simp] theorem moveCursor_pending (c i : Nat) (s : State) : (moveCursor c i s).pending = s.pending := rfl

@[simp] theorem moveCursor_hostData (c i : Nat) (s : State) : (moveCursor c i s).hostData = s.hostData := rfl

@[simp] theorem moveCursor_draws (c i : Nat) (s : State) : (moveCursor c i s).draws = s.draws := rfl

@[simp] theorem moveCursor_dec_state (c i : Nat) (s : State) :
    (moveCursor c i s).dec.state = s.dec.state := rfl

@[simp] theorem moveCursor_dec_err (c i : Nat) (s : State) :
    (moveCursor c i s).dec.err = 0#8 := rfl

@[simp] theorem moveCursor_dec_errOffset (c i : Nat) (s : State) :
    (moveCursor c i s).dec.errOffset = s.dec.errOffset := rfl

@[simp] theorem moveCursor_dec_short (c i : Nat) (s : State) :
    (moveCursor c i s).dec.short = s.dec.short := rfl

@[simp] theorem moveCursor_dec_lastValid (c i : Nat) (s : State) :
    (moveCursor c i s).dec.lastValid = s.dec.lastValid := rfl

@[simp] theorem moveCursor_dec_header (c i : Nat) (s : State) :
    (moveCursor c i s).dec.header = s.dec.header := rfl

@[simp] theorem moveCursor_dec_headerSize (c i : Nat) (s : State) :
    (moveCursor c i s).dec.headerSize = s.dec.headerSize := rfl

@[simp] theorem moveCursor_dec_fileSize (c i : Nat) (s : State) :
    (moveCursor c i s).dec.fileSize = s.dec.fileSize := rfl

@[simp] theorem moveCursor_dec_cursor (c i : Nat) (s : State) :
    (moveCursor c i s).dec.cursor = BitVec.ofNat 64 c := rfl

@[simp] theorem moveCursor_dec_frameIdx (c i : Nat) (s : State) :
    (moveCursor c i s).dec.frameIdx = BitVec.ofNat 64 i := rfl

@[simp] theorem moveCursor_dec_outCount (c i : Nat) (s : State) :
    (moveCursor c i s).dec.outCount = s.dec.outCount := rfl

@[simp] theorem moveCursor_dec_progress (c i : Nat) (s : State) :
    (moveCursor c i s).dec.progress = s.dec.progress := rfl

@[simp] theorem moveCursor_dec_pixout (c i : Nat) (s : State) :
    (moveCursor c i s).dec.pixout = s.dec.pixout := rfl

@[simp] theorem moveCursor_dec_lastFrame (c i : Nat) (s : State) :
    (moveCursor c i s).dec.lastFrame = s.dec.lastFrame := rfl

/-! ### `completeFrame` -/

@[simp] theorem completeFrame_params (f : FrameRead) (a n : Nat) (s : State) : (completeFrame f a n s).params = s.params := rfl

@[simp] theorem completeFrame_dstream (f : FrameRead) (a n : Nat) (s : State) : (completeFrame f a n s).dstream = s.dstream := rfl

@[simp] theorem completeFrame_dlen (f : FrameRead) (a n : Nat) (s : State) : (completeFrame f a n s).dlen = s.dlen := rfl

@[simp] theorem completeFrame_pixin (f : FrameRead) (a n : Nat) (s : State) : (completeFrame f a n s).pixin = s.pixin := rfl

@[simp] theorem completeFrame_fuIn (f : FrameRead) (a n : Nat) (s : State) : (completeFrame f a n s).fuIn = s.fuIn := rfl

@[simp] theorem completeFrame_enc (f : FrameRead) (a n : Nat) (s : State) : (completeFrame f a n s).enc = s.enc := rfl

@[simp] theorem completeFrame_fu (f : FrameRead) (a n : Nat) (s : State) : (completeFrame f a n s).fu = s.fu := rfl

@[simp] theorem completeFrame_work (f : FrameRead) (a n : Nat) (s : State) : (completeFrame f a n s).work = f.work := rfl

@[simp] theorem completeFrame_pending (f : FrameRead) (a n : Nat) (s : State) : (completeFrame f a n s).pending = s.pending := rfl

@[simp] theorem completeFrame_hostData (f : FrameRead) (a n : Nat) (s : State) : (completeFrame f a n s).hostData = s.hostData := rfl

@[simp] theorem completeFrame_draws (f : FrameRead) (a n : Nat) (s : State) : (completeFrame f a n s).draws = s.draws := rfl

@[simp] theorem completeFrame_dec_state (f : FrameRead) (a n : Nat) (s : State) :
    (completeFrame f a n s).dec.state = s.dec.state := rfl

@[simp] theorem completeFrame_dec_err (f : FrameRead) (a n : Nat) (s : State) :
    (completeFrame f a n s).dec.err = 0#8 := rfl

@[simp] theorem completeFrame_dec_errOffset (f : FrameRead) (a n : Nat) (s : State) :
    (completeFrame f a n s).dec.errOffset = s.dec.errOffset := rfl

@[simp] theorem completeFrame_dec_short (f : FrameRead) (a n : Nat) (s : State) :
    (completeFrame f a n s).dec.short = f.short := rfl

@[simp] theorem completeFrame_dec_lastValid (f : FrameRead) (a n : Nat) (s : State) :
    (completeFrame f a n s).dec.lastValid = true := rfl

@[simp] theorem completeFrame_dec_header (f : FrameRead) (a n : Nat) (s : State) :
    (completeFrame f a n s).dec.header = s.dec.header := rfl

@[simp] theorem completeFrame_dec_headerSize (f : FrameRead) (a n : Nat) (s : State) :
    (completeFrame f a n s).dec.headerSize = s.dec.headerSize := rfl

@[simp] theorem completeFrame_dec_fileSize (f : FrameRead) (a n : Nat) (s : State) :
    (completeFrame f a n s).dec.fileSize = s.dec.fileSize := rfl

@[simp] theorem completeFrame_dec_cursor (f : FrameRead) (a n : Nat) (s : State) :
    (completeFrame f a n s).dec.cursor = BitVec.ofNat 64 (a + 5 + n) := rfl

@[simp] theorem completeFrame_dec_frameIdx (f : FrameRead) (a n : Nat) (s : State) :
    (completeFrame f a n s).dec.frameIdx = s.dec.frameIdx + 1#64 := rfl

@[simp] theorem completeFrame_dec_outCount (f : FrameRead) (a n : Nat) (s : State) :
    (completeFrame f a n s).dec.outCount = BitVec.ofNat 32 f.frame.length := rfl

@[simp] theorem completeFrame_dec_progress (f : FrameRead) (a n : Nat) (s : State) :
    (completeFrame f a n s).dec.progress = s.dec.progress := rfl

@[simp] theorem completeFrame_dec_pixout (f : FrameRead) (a n : Nat) (s : State) :
    (completeFrame f a n s).dec.pixout = Memory.ofList 0 f.frame := rfl

@[simp] theorem completeFrame_dec_lastFrame (f : FrameRead) (a n : Nat) (s : State) :
    (completeFrame f a n s).dec.lastFrame = f.frame := rfl

/-! ### `completeWrite` -/

@[simp] theorem completeWrite_params (px : List Color) (f : FrameWrite) (s : State) : (completeWrite px f s).params = s.params := rfl

@[simp] theorem completeWrite_dstream (px : List Color) (f : FrameWrite) (s : State) : (completeWrite px f s).dstream = s.dstream := rfl

@[simp] theorem completeWrite_dlen (px : List Color) (f : FrameWrite) (s : State) : (completeWrite px f s).dlen = s.dlen := rfl

@[simp] theorem completeWrite_pixin (px : List Color) (f : FrameWrite) (s : State) : (completeWrite px f s).pixin = s.pixin := rfl

@[simp] theorem completeWrite_fuIn (px : List Color) (f : FrameWrite) (s : State) : (completeWrite px f s).fuIn = s.fuIn := rfl

@[simp] theorem completeWrite_dec (px : List Color) (f : FrameWrite) (s : State) : (completeWrite px f s).dec = s.dec := rfl

@[simp] theorem completeWrite_fu (px : List Color) (f : FrameWrite) (s : State) : (completeWrite px f s).fu = s.fu := rfl

@[simp] theorem completeWrite_work (px : List Color) (f : FrameWrite) (s : State) : (completeWrite px f s).work = f.work := rfl

@[simp] theorem completeWrite_pending (px : List Color) (f : FrameWrite) (s : State) : (completeWrite px f s).pending = s.pending := rfl

@[simp] theorem completeWrite_hostData (px : List Color) (f : FrameWrite) (s : State) : (completeWrite px f s).hostData = s.hostData := rfl

@[simp] theorem completeWrite_draws (px : List Color) (f : FrameWrite) (s : State) : (completeWrite px f s).draws = s.draws := rfl

@[simp] theorem completeWrite_enc_state (px : List Color) (f : FrameWrite) (s : State) :
    (completeWrite px f s).enc.state = s.enc.state := rfl

@[simp] theorem completeWrite_enc_err (px : List Color) (f : FrameWrite) (s : State) :
    (completeWrite px f s).enc.err = 0#8 := rfl

@[simp] theorem completeWrite_enc_prevValid (px : List Color) (f : FrameWrite) (s : State) :
    (completeWrite px f s).enc.prevValid = true := rfl

@[simp] theorem completeWrite_enc_quality (px : List Color) (f : FrameWrite) (s : State) :
    (completeWrite px f s).enc.quality = s.enc.quality := rfl

@[simp] theorem completeWrite_enc_header (px : List Color) (f : FrameWrite) (s : State) :
    (completeWrite px f s).enc.header = s.enc.header := rfl

@[simp] theorem completeWrite_enc_cursor (px : List Color) (f : FrameWrite) (s : State) :
    (completeWrite px f s).enc.cursor = BitVec.ofNat 64 (s.enc.cursor.toNat + (recordBytes f).length) := rfl

@[simp] theorem completeWrite_enc_frameIdx (px : List Color) (f : FrameWrite) (s : State) :
    (completeWrite px f s).enc.frameIdx = s.enc.frameIdx + 1#64 := rfl

@[simp] theorem completeWrite_enc_estream (px : List Color) (f : FrameWrite) (s : State) :
    (completeWrite px f s).enc.estream = Memory.writeList s.enc.estream s.enc.cursor.toNat (recordBytes f) := rfl

@[simp] theorem completeWrite_enc_prevFrame (px : List Color) (f : FrameWrite) (s : State) :
    (completeWrite px f s).enc.prevFrame = px := rfl

/-! ### `setValue` -/

@[simp] theorem setValue_params (v : BitVec 15) (s : State) : (setValue v s).params = s.params := rfl

@[simp] theorem setValue_dstream (v : BitVec 15) (s : State) : (setValue v s).dstream = s.dstream := rfl

@[simp] theorem setValue_dlen (v : BitVec 15) (s : State) : (setValue v s).dlen = s.dlen := rfl

@[simp] theorem setValue_pixin (v : BitVec 15) (s : State) : (setValue v s).pixin = s.pixin := rfl

@[simp] theorem setValue_fuIn (v : BitVec 15) (s : State) : (setValue v s).fuIn = s.fuIn := rfl

@[simp] theorem setValue_dec (v : BitVec 15) (s : State) : (setValue v s).dec = s.dec := rfl

@[simp] theorem setValue_enc (v : BitVec 15) (s : State) : (setValue v s).enc = s.enc := rfl

@[simp] theorem setValue_work (v : BitVec 15) (s : State) : (setValue v s).work = s.work := rfl

@[simp] theorem setValue_pending (v : BitVec 15) (s : State) : (setValue v s).pending = s.pending := rfl

@[simp] theorem setValue_hostData (v : BitVec 15) (s : State) : (setValue v s).hostData = s.hostData := rfl

@[simp] theorem setValue_draws (v : BitVec 15) (s : State) : (setValue v s).draws = s.draws := rfl

@[simp] theorem setValue_fu_err (v : BitVec 15) (s : State) :
    (setValue v s).fu.err = 0#8 := rfl

@[simp] theorem setValue_fu_color (v : BitVec 15) (s : State) :
    (setValue v s).fu.color = s.fu.color := rfl

@[simp] theorem setValue_fu_value (v : BitVec 15) (s : State) :
    (setValue v s).fu.value = v := rfl

@[simp] theorem setValue_fu_inLen (v : BitVec 15) (s : State) :
    (setValue v s).fu.inLen = s.fu.inLen := rfl

@[simp] theorem setValue_fu_outLen (v : BitVec 15) (s : State) :
    (setValue v s).fu.outLen = s.fu.outLen := rfl

@[simp] theorem setValue_fu_fuOut (v : BitVec 15) (s : State) :
    (setValue v s).fu.fuOut = s.fu.fuOut := rfl

/-! ### `setColor` -/

@[simp] theorem setColor_params (c : Color) (s : State) : (setColor c s).params = s.params := rfl

@[simp] theorem setColor_dstream (c : Color) (s : State) : (setColor c s).dstream = s.dstream := rfl

@[simp] theorem setColor_dlen (c : Color) (s : State) : (setColor c s).dlen = s.dlen := rfl

@[simp] theorem setColor_pixin (c : Color) (s : State) : (setColor c s).pixin = s.pixin := rfl

@[simp] theorem setColor_fuIn (c : Color) (s : State) : (setColor c s).fuIn = s.fuIn := rfl

@[simp] theorem setColor_dec (c : Color) (s : State) : (setColor c s).dec = s.dec := rfl

@[simp] theorem setColor_enc (c : Color) (s : State) : (setColor c s).enc = s.enc := rfl

@[simp] theorem setColor_work (c : Color) (s : State) : (setColor c s).work = s.work := rfl

@[simp] theorem setColor_pending (c : Color) (s : State) : (setColor c s).pending = s.pending := rfl

@[simp] theorem setColor_hostData (c : Color) (s : State) : (setColor c s).hostData = s.hostData := rfl

@[simp] theorem setColor_draws (c : Color) (s : State) : (setColor c s).draws = s.draws := rfl

@[simp] theorem setColor_fu_err (c : Color) (s : State) :
    (setColor c s).fu.err = 0#8 := rfl

@[simp] theorem setColor_fu_color (c : Color) (s : State) :
    (setColor c s).fu.color = wordOfColor c := rfl

@[simp] theorem setColor_fu_value (c : Color) (s : State) :
    (setColor c s).fu.value = s.fu.value := rfl

@[simp] theorem setColor_fu_inLen (c : Color) (s : State) :
    (setColor c s).fu.inLen = s.fu.inLen := rfl

@[simp] theorem setColor_fu_outLen (c : Color) (s : State) :
    (setColor c s).fu.outLen = s.fu.outLen := rfl

@[simp] theorem setColor_fu_fuOut (c : Color) (s : State) :
    (setColor c s).fu.fuOut = s.fu.fuOut := rfl

/-! ### `storeFuOut` -/

@[simp] theorem storeFuOut_params (bs : List Byte) (n : Nat) (w : Work) (s : State) : (storeFuOut bs n w s).params = s.params := rfl

@[simp] theorem storeFuOut_dstream (bs : List Byte) (n : Nat) (w : Work) (s : State) : (storeFuOut bs n w s).dstream = s.dstream := rfl

@[simp] theorem storeFuOut_dlen (bs : List Byte) (n : Nat) (w : Work) (s : State) : (storeFuOut bs n w s).dlen = s.dlen := rfl

@[simp] theorem storeFuOut_pixin (bs : List Byte) (n : Nat) (w : Work) (s : State) : (storeFuOut bs n w s).pixin = s.pixin := rfl

@[simp] theorem storeFuOut_fuIn (bs : List Byte) (n : Nat) (w : Work) (s : State) : (storeFuOut bs n w s).fuIn = s.fuIn := rfl

@[simp] theorem storeFuOut_dec (bs : List Byte) (n : Nat) (w : Work) (s : State) : (storeFuOut bs n w s).dec = s.dec := rfl

@[simp] theorem storeFuOut_enc (bs : List Byte) (n : Nat) (w : Work) (s : State) : (storeFuOut bs n w s).enc = s.enc := rfl

@[simp] theorem storeFuOut_work (bs : List Byte) (n : Nat) (w : Work) (s : State) : (storeFuOut bs n w s).work = w := rfl

@[simp] theorem storeFuOut_pending (bs : List Byte) (n : Nat) (w : Work) (s : State) : (storeFuOut bs n w s).pending = s.pending := rfl

@[simp] theorem storeFuOut_hostData (bs : List Byte) (n : Nat) (w : Work) (s : State) : (storeFuOut bs n w s).hostData = s.hostData := rfl

@[simp] theorem storeFuOut_draws (bs : List Byte) (n : Nat) (w : Work) (s : State) : (storeFuOut bs n w s).draws = drawsAfter n s.draws := rfl

@[simp] theorem storeFuOut_fu_err (bs : List Byte) (n : Nat) (w : Work) (s : State) :
    (storeFuOut bs n w s).fu.err = 0#8 := rfl

@[simp] theorem storeFuOut_fu_color (bs : List Byte) (n : Nat) (w : Work) (s : State) :
    (storeFuOut bs n w s).fu.color = s.fu.color := rfl

@[simp] theorem storeFuOut_fu_value (bs : List Byte) (n : Nat) (w : Work) (s : State) :
    (storeFuOut bs n w s).fu.value = s.fu.value := rfl

@[simp] theorem storeFuOut_fu_inLen (bs : List Byte) (n : Nat) (w : Work) (s : State) :
    (storeFuOut bs n w s).fu.inLen = s.fu.inLen := rfl

@[simp] theorem storeFuOut_fu_outLen (bs : List Byte) (n : Nat) (w : Work) (s : State) :
    (storeFuOut bs n w s).fu.outLen = outLength n s.draws := rfl

@[simp] theorem storeFuOut_fu_fuOut (bs : List Byte) (n : Nat) (w : Work) (s : State) :
    (storeFuOut bs n w s).fu.fuOut = Memory.ofList 0 bs := rfl

/-! ### `resetDecoder` -/

@[simp] theorem resetDecoder_params (s : State) : (resetDecoder s).params = s.params := rfl

@[simp] theorem resetDecoder_dstream (s : State) : (resetDecoder s).dstream = s.dstream := rfl

@[simp] theorem resetDecoder_dlen (s : State) : (resetDecoder s).dlen = s.dlen := rfl

@[simp] theorem resetDecoder_pixin (s : State) : (resetDecoder s).pixin = s.pixin := rfl

@[simp] theorem resetDecoder_fuIn (s : State) : (resetDecoder s).fuIn = s.fuIn := rfl

@[simp] theorem resetDecoder_dec (s : State) : (resetDecoder s).dec = Decoder.reset := rfl

@[simp] theorem resetDecoder_enc (s : State) : (resetDecoder s).enc = s.enc := rfl

@[simp] theorem resetDecoder_fu (s : State) : (resetDecoder s).fu = s.fu := rfl

@[simp] theorem resetDecoder_work (s : State) : (resetDecoder s).work = s.work := rfl

@[simp] theorem resetDecoder_pending (s : State) : (resetDecoder s).pending = s.pending := rfl

@[simp] theorem resetDecoder_hostData (s : State) : (resetDecoder s).hostData = s.hostData := rfl

@[simp] theorem resetDecoder_draws (s : State) : (resetDecoder s).draws = s.draws := rfl

/-! ### `resetEncoder` -/

@[simp] theorem resetEncoder_params (s : State) : (resetEncoder s).params = s.params := rfl

@[simp] theorem resetEncoder_dstream (s : State) : (resetEncoder s).dstream = s.dstream := rfl

@[simp] theorem resetEncoder_dlen (s : State) : (resetEncoder s).dlen = s.dlen := rfl

@[simp] theorem resetEncoder_pixin (s : State) : (resetEncoder s).pixin = s.pixin := rfl

@[simp] theorem resetEncoder_fuIn (s : State) : (resetEncoder s).fuIn = s.fuIn := rfl

@[simp] theorem resetEncoder_dec (s : State) : (resetEncoder s).dec = s.dec := rfl

@[simp] theorem resetEncoder_enc (s : State) : (resetEncoder s).enc = Encoder.reset := rfl

@[simp] theorem resetEncoder_fu (s : State) : (resetEncoder s).fu = s.fu := rfl

@[simp] theorem resetEncoder_work (s : State) : (resetEncoder s).work = s.work := rfl

@[simp] theorem resetEncoder_pending (s : State) : (resetEncoder s).pending = s.pending := rfl

@[simp] theorem resetEncoder_hostData (s : State) : (resetEncoder s).hostData = s.hostData := rfl

@[simp] theorem resetEncoder_draws (s : State) : (resetEncoder s).draws = s.draws := rfl

/-! ### `resetFuncUnit` -/

@[simp] theorem resetFuncUnit_params (s : State) : (resetFuncUnit s).params = s.params := rfl

@[simp] theorem resetFuncUnit_dstream (s : State) : (resetFuncUnit s).dstream = s.dstream := rfl

@[simp] theorem resetFuncUnit_dlen (s : State) : (resetFuncUnit s).dlen = s.dlen := rfl

@[simp] theorem resetFuncUnit_pixin (s : State) : (resetFuncUnit s).pixin = s.pixin := rfl

@[simp] theorem resetFuncUnit_fuIn (s : State) : (resetFuncUnit s).fuIn = s.fuIn := rfl

@[simp] theorem resetFuncUnit_dec (s : State) : (resetFuncUnit s).dec = s.dec := rfl

@[simp] theorem resetFuncUnit_enc (s : State) : (resetFuncUnit s).enc = s.enc := rfl

@[simp] theorem resetFuncUnit_fu (s : State) : (resetFuncUnit s).fu = FuncUnit.reset := rfl

@[simp] theorem resetFuncUnit_work (s : State) : (resetFuncUnit s).work = s.work := rfl

@[simp] theorem resetFuncUnit_pending (s : State) : (resetFuncUnit s).pending = s.pending := rfl

@[simp] theorem resetFuncUnit_hostData (s : State) : (resetFuncUnit s).hostData = s.hostData := rfl

@[simp] theorem resetFuncUnit_draws (s : State) : (resetFuncUnit s).draws = s.draws := rfl

/-! ### `give` -/

@[simp] theorem give_params (v : BitVec 64) (s : State) : (give v s).params = s.params := rfl

@[simp] theorem give_dstream (v : BitVec 64) (s : State) : (give v s).dstream = s.dstream := rfl

@[simp] theorem give_dlen (v : BitVec 64) (s : State) : (give v s).dlen = s.dlen := rfl

@[simp] theorem give_pixin (v : BitVec 64) (s : State) : (give v s).pixin = s.pixin := rfl

@[simp] theorem give_fuIn (v : BitVec 64) (s : State) : (give v s).fuIn = s.fuIn := rfl

@[simp] theorem give_dec (v : BitVec 64) (s : State) : (give v s).dec = s.dec := rfl

@[simp] theorem give_enc (v : BitVec 64) (s : State) : (give v s).enc = s.enc := rfl

@[simp] theorem give_fu (v : BitVec 64) (s : State) : (give v s).fu = s.fu := rfl

@[simp] theorem give_work (v : BitVec 64) (s : State) : (give v s).work = s.work := rfl

@[simp] theorem give_pending (v : BitVec 64) (s : State) : (give v s).pending = s.pending := rfl

@[simp] theorem give_hostData (v : BitVec 64) (s : State) : (give v s).hostData = v := rfl

@[simp] theorem give_draws (v : BitVec 64) (s : State) : (give v s).draws = s.draws := rfl

/-! ### `giveDraw` -/

@[simp] theorem giveDraw_params (v : Nat → BitVec 64) (s : State) : (giveDraw v s).params = s.params := rfl

@[simp] theorem giveDraw_dstream (v : Nat → BitVec 64) (s : State) : (giveDraw v s).dstream = s.dstream := rfl

@[simp] theorem giveDraw_dlen (v : Nat → BitVec 64) (s : State) : (giveDraw v s).dlen = s.dlen := rfl

@[simp] theorem giveDraw_pixin (v : Nat → BitVec 64) (s : State) : (giveDraw v s).pixin = s.pixin := rfl

@[simp] theorem giveDraw_fuIn (v : Nat → BitVec 64) (s : State) : (giveDraw v s).fuIn = s.fuIn := rfl

@[simp] theorem giveDraw_dec (v : Nat → BitVec 64) (s : State) : (giveDraw v s).dec = s.dec := rfl

@[simp] theorem giveDraw_enc (v : Nat → BitVec 64) (s : State) : (giveDraw v s).enc = s.enc := rfl

@[simp] theorem giveDraw_fu (v : Nat → BitVec 64) (s : State) : (giveDraw v s).fu = s.fu := rfl

@[simp] theorem giveDraw_work (v : Nat → BitVec 64) (s : State) : (giveDraw v s).work = s.work := rfl

@[simp] theorem giveDraw_pending (v : Nat → BitVec 64) (s : State) : (giveDraw v s).pending = s.pending := rfl

@[simp] theorem giveDraw_hostData (v : Nat → BitVec 64) (s : State) : (giveDraw v s).hostData = v s.draws := rfl

@[simp] theorem giveDraw_draws (v : Nat → BitVec 64) (s : State) : (giveDraw v s).draws = s.draws + 1 := rfl

/-! ### `putBytes` -/

@[simp] theorem putBytes_state (bs : List Byte) (e : Encoder) : (putBytes bs e).state = e.state := rfl

@[simp] theorem putBytes_err (bs : List Byte) (e : Encoder) : (putBytes bs e).err = e.err := rfl

@[simp] theorem putBytes_prevValid (bs : List Byte) (e : Encoder) : (putBytes bs e).prevValid = e.prevValid := rfl

@[simp] theorem putBytes_quality (bs : List Byte) (e : Encoder) : (putBytes bs e).quality = e.quality := rfl

@[simp] theorem putBytes_header (bs : List Byte) (e : Encoder) : (putBytes bs e).header = e.header := rfl

@[simp] theorem putBytes_cursor (bs : List Byte) (e : Encoder) : (putBytes bs e).cursor = BitVec.ofNat 64 (e.cursor.toNat + bs.length) := rfl

@[simp] theorem putBytes_frameIdx (bs : List Byte) (e : Encoder) : (putBytes bs e).frameIdx = e.frameIdx := rfl

@[simp] theorem putBytes_estream (bs : List Byte) (e : Encoder) : (putBytes bs e).estream = Memory.writeList e.estream e.cursor.toNat bs := rfl

@[simp] theorem putBytes_prevFrame (bs : List Byte) (e : Encoder) : (putBytes bs e).prevFrame = e.prevFrame := rfl

end Sys2Proof.Machine
end

