-- ==== Sys2Proof/Laws/Step.lean ====
section
/-! SUPPORT. What a step, a host access and each instruction with a failing path can answer with a next state: each says
once everything that next state can be. -/

namespace Sys2Proof.Machine

variable {s t : State}

/-- A step that goes on: nothing pending and nothing changed, a command, or an access between commands. -/
theorem step_eq_next (h : step s = .next t) :
    (s.pending = [] ∧ t = s) ∨
    (∃ v rest i, s.pending = .writeReg 0 v :: rest ∧ decodeCommand (v.setWidth 8) = .ok i ∧
      exec i { s with pending := rest } = .next t) ∨
    (∃ m rest, s.pending = m :: rest ∧ commandByte m = none ∧ hostAccess m { s with pending := rest } = .next t) := by
  unfold step takeMove at h
  cases hp : s.pending with
  | nil => rw [hp] at h; cases h; exact .inl ⟨rfl, rfl⟩
  | cons m rest =>
    simp only [hp] at h
    cases hc : commandByte m with
    | none => simp only [hc] at h; exact .inr (.inr ⟨m, rest, rfl, hc, h⟩)
    | some code =>
      simp only [hc] at h
      split at h
      · rename_i i hi
        unfold commandByte at hc
        split at hc <;> cases hc
        exact .inr (.inl ⟨_, rest, i, rfl, hi, h⟩)
      · cases h

/-- A command decodes to an instruction of the command space. -/
theorem decodeCommand_space {code : Byte} {i : Instr} (h : decodeCommand code = .ok i) : i.space = .command := by
  unfold decodeCommand at h
  split at h <;> cases h <;> rfl

/-- A host access that goes on. -/
theorem hostAccess_eq_next {m : HostMove} (h : hostAccess m s = .next t) :
    (∃ n v, m = .writeReg n v ∧ t = writeRegister s n v) ∨
    (∃ v, t = give v s) ∨ (∃ v, t = giveDraw v s) ∨
    (∃ i c, m = .writePixin i c ∧ i < s.params.npixMax ∧ t = { s with pixin := Memory.write s.pixin i c }) ∨
    (∃ a b, m = .writeFuIn a b ∧ a < s.params.fuMax ∧ t = { s with fuIn := Memory.write s.fuIn a b }) ∨
    (∃ bytes, m = .attach bytes ∧ s.dec.state = 0#2 ∧ bytes.length < 2 ^ 63 ∧
      t = { s with dstream := Memory.ofList 0 bytes, dlen := bytes.length }) := by
  cases m with
  | writeReg n v => cases h; exact .inl ⟨n, v, rfl, rfl⟩
  | readReg n =>
    simp only [hostAccess] at h
    split at h <;> [skip; cases h]
    cases h; exact .inr (.inl ⟨_, rfl⟩)
  | writePixin i c =>
    simp only [hostAccess] at h
    split at h <;> [skip; cases h]
    rename_i hi
    cases h; exact .inr (.inr (.inr (.inl ⟨i, c, rfl, hi, rfl⟩)))
  | readPixout i =>
    simp only [hostAccess] at h
    split at h <;> [skip; cases h]
    split at h
    · cases h; exact .inr (.inl ⟨_, rfl⟩)
    · cases h; exact .inr (.inr (.inl ⟨_, rfl⟩))
  | writeFuIn a b =>
    simp only [hostAccess] at h
    split at h <;> [skip; cases h]
    rename_i ha
    cases h; exact .inr (.inr (.inr (.inr (.inl ⟨a, b, rfl, ha, rfl⟩))))
  | readFuOut a =>
    simp only [hostAccess] at h
    split at h <;> [skip; cases h]
    split at h
    · cases h; exact .inr (.inl ⟨_, rfl⟩)
    · cases h; exact .inr (.inr (.inl ⟨_, rfl⟩))
  | readEstream a =>
    simp only [hostAccess] at h
    split at h
    · cases h; exact .inr (.inl ⟨_, rfl⟩)
    · cases h
  | attach bytes =>
    simp only [hostAccess] at h
    split at h <;> [cases h; skip]
    rename_i hs
    split at h <;> [cases h; skip]
    cases h
    exact .inr (.inr (.inr (.inr (.inr ⟨bytes, rfl, not_not.mp hs, by omega, rfl⟩))))

/-- A register write changes one register: D_PROGRESS, E_QUALITY, the header operands in Created, an FU operand, or
nothing. -/
theorem writeRegister_cases (n : Nat) (v : BitVec 64) :
    writeRegister s n v = s ∨
    (∃ p, writeRegister s n v = { s with dec := { s.dec with progress := p } }) ∨
    (∃ q, writeRegister s n v = { s with enc := { s.enc with quality := q } }) ∨
    (s.enc.state = 0#2 ∧ ∃ hd, writeRegister s n v = { s with enc := { s.enc with header := hd } }) ∨
    (∃ c w l, writeRegister s n v = { s with fu := { s.fu with color := c, value := w, inLen := l } }) := by
  have hdr : ∀ hd, writeEncHeader s hd = s ∨
      (s.enc.state = 0#2 ∧ writeEncHeader s hd = { s with enc := { s.enc with header := hd } }) := by
    intro hd
    unfold writeEncHeader
    split
    · rename_i h; exact .inr ⟨h, rfl⟩
    · exact .inl rfl
  unfold writeRegister
  split
  · exact .inr (.inl ⟨_, rfl⟩)
  · exact .inr (.inr (.inl ⟨_, rfl⟩))
  iterate 6
    rcases hdr _ with h | ⟨h0, h⟩
    · exact .inl h
    · exact .inr (.inr (.inr (.inl ⟨h0, _, h⟩)))
  · exact .inr (.inr (.inr (.inr ⟨_, s.fu.value, s.fu.inLen, rfl⟩)))
  · exact .inr (.inr (.inr (.inr ⟨s.fu.color, _, s.fu.inLen, rfl⟩)))
  · exact .inr (.inr (.inr (.inr ⟨s.fu.color, s.fu.value, _, rfl⟩)))
  · exact .inl rfl

/-! ### Instructions -/

/-- The meaning of a frame record, by its type. -/
theorem exec_record (ft : FrameType) (size : BitVec 32) :
    exec (ft.record size) s = whenFrameReady s (finishFrame s size.toNat (readRule ft s size.toNat)) := by
  cases ft <;> rfl

/-- A frame record takes a next state in three ways. -/
theorem exec_record_eq_next {ft : FrameType} {size : BitVec 32} (h : exec (ft.record size) s = .next t) :
    (s.dec.state ≠ 1#2 ∧ t = precheckDec .protocolViolation s) ∨
    (FrameReady s ∧ ∃ f, readRule ft s size.toNat = .ok f ∧ t = completeFrame f s.dec.cursor.toNat size.toNat s) ∨
    (FrameReady s ∧ ∃ k o, readRule ft s size.toNat = .error (.raise k o) ∧ t = streamError k o s) := by
  rw [exec_record] at h
  rcases whenFrameReady_eq_next h with h | ⟨hr, h⟩
  · exact .inl h
  · rcases finishFrame_eq_next h with h | h
    · exact .inr (.inl ⟨hr, h⟩)
    · exact .inr (.inr ⟨hr, h⟩)

/-- READ_FRAME takes a next state in four ways. -/
theorem execReadFrame_eq_next (h : execReadFrame s = .next t) :
    (s.dec.state ≠ 1#2 ∧ t = precheckDec .protocolViolation s) ∨
    (FrameReady s ∧ ∃ k o, fetchRecord s s.dec.cursor.toNat = .error (.raise k o) ∧ t = streamError k o s) ∨
    (FrameReady s ∧ ∃ ft size, PrefixAt s s.dec.cursor.toNat ft size ∧
      ((∃ f, readRule ft s size.toNat = .ok f ∧ t = completeFrame f s.dec.cursor.toNat size.toNat s) ∨
        ∃ k o, readRule ft s size.toNat = .error (.raise k o) ∧ t = streamError k o s)) := by
  rcases whenFrameReady_eq_next h with h | ⟨hr, h⟩
  · exact .inl h
  · split at h
    · rename_i e he
      obtain ⟨k, o, rfl, rfl⟩ := stopDec_eq_next.mp h
      exact .inr (.inl ⟨hr, k, o, he, rfl⟩)
    · rename_i ft size hf
      exact .inr (.inr ⟨hr, ft, size, fetchRecord_eq_ok.mp hf, finishFrame_eq_next h⟩)

/-- The errors a record fetch can raise (60 R220). -/
theorem fetchRecord_eq_raise {a : Nat} {k : ErrKind} {o : Nat} (h : fetchRecord s a = .error (.raise k o)) :
    k = .truncatedRead ∨ k = .unknownFrameType := by
  rcases fetchRecord_eq_error h with h | h | ⟨_, _, _, _, h⟩
  · exact .inl (loadStop_raise h)
  · exact .inl (loadStop_raise h)
  · cases h; exact .inr rfl

/-- SKIP_FRAME takes a next state in three ways. -/
theorem execSkipFrame_eq_next (h : execSkipFrame s = .next t) :
    (s.dec.state ≠ 1#2 ∧ t = precheckDec .protocolViolation s) ∨
    (s.dec.state = 1#2 ∧ ∃ b k o, fetchRecord s b = .error (.raise k o) ∧ t = streamError k o s) ∨
    (s.dec.state = 1#2 ∧ ∃ ft size, PrefixAt s s.dec.cursor.toNat ft size ∧
      t = moveCursor (s.dec.cursor.toNat + 5 + size.toNat) (s.dec.frameIdx.toNat + 1) s) := by
  unfold execSkipFrame whenHeaderRead at h
  split at h
  · cases h; exact .inl ⟨by assumption, rfl⟩
  rename_i hs
  split at h
  · rename_i e he
    obtain ⟨k, o, rfl, rfl⟩ := stopDec_eq_next.mp h
    obtain ⟨b, hb⟩ := skipRecords_eq_error he
    exact .inr (.inl ⟨not_not.mp hs, b, k, o, hb, rfl⟩)
  · rename_i a ha
    cases h
    obtain ⟨ft, size, hp, h0⟩ := skipRecords_succ_ok.mp ha
    cases h0
    exact .inr (.inr ⟨not_not.mp hs, ft, size, hp, rfl⟩)

/-- SEEK takes a next state in three ways; it starts from the first record or from the cursor. -/
theorem execSeek_eq_next (h : execSeek s = .next t) :
    (s.dec.state ≠ 1#2 ∧ t = precheckDec .protocolViolation s) ∨
    (s.dec.state = 1#2 ∧ ∃ b k o, fetchRecord s b = .error (.raise k o) ∧ t = streamError k o s) ∨
    (s.dec.state = 1#2 ∧ ∃ n a b, (a = s.dec.headerSize.toNat ∨ a = s.dec.cursor.toNat) ∧ skipRecords s n a = .ok b ∧
      t = moveCursor b (seekTarget s.dec) s) := by
  unfold execSeek whenHeaderRead at h
  split at h
  · cases h; exact .inl ⟨by assumption, rfl⟩
  rename_i hs
  simp only at h
  split at h
  · rename_i e he
    obtain ⟨k, o, rfl, rfl⟩ := stopDec_eq_next.mp h
    obtain ⟨b, hb⟩ := skipRecords_eq_error he
    exact .inr (.inl ⟨not_not.mp hs, b, k, o, hb, rfl⟩)
  · rename_i b hb
    cases h
    refine .inr (.inr ⟨not_not.mp hs, _, _, b, ?_, hb, rfl⟩)
    split
    · exact .inl rfl
    · exact .inr rfl

/-- The errors READ_HEADER can raise (60 R220). -/
theorem parseHeader_eq_raise {k : ErrKind} {o : Nat} (h : parseHeader s = .error (.raise k o)) :
    k = .invalidMagic ∨ k = .truncatedRead := by
  simp only [parseHeader, bind, Except.bind, pure, Except.pure] at h
  split at h
  · rename_i hm
    cases h
    simp only [checkMagic, bind, Except.bind, pure, Except.pure] at hm
    split at hm
    · cases hm; exact .inl rfl
    split at hm
    · rename_i hr; cases hm; obtain ⟨b, hb⟩ := memRead_eq_error hr; cases hb
    split at hm
    · cases hm; exact .inl rfl
    · cases hm
  split at h
  · rename_i hg; cases h; exact .inr (loadStop_raise (getU8_eq_error hg))
  split at h
  · rename_i hg; cases h; exact .inr (loadStop_raise (getU16_eq_error hg))
  split at h
  · rename_i hg; cases h; exact .inr (loadStop_raise (getU16_eq_error hg))
  split at h
  · rename_i hg; cases h; exact .inr (loadStop_raise (getU8_eq_error hg))
  split at h
  · rename_i hg; cases h; exact .inr (loadStop_raise (getU8_eq_error hg))
  split at h
  · rename_i hg; cases h; exact .inr (loadStop_raise (getU32_eq_error hg))
  · cases h

/-- READ_HEADER takes a next state in three ways. -/
theorem execReadHeader_eq_next (h : execReadHeader s = .next t) :
    (s.dec.state ≠ 0#2 ∧ t = precheckDec .protocolViolation s) ∨
    (s.dec.state = 0#2 ∧ ∃ k o, parseHeader s = .error (.raise k o) ∧ t = streamError k o s) ∨
    (s.dec.state = 0#2 ∧ ∃ hd, parseHeader s = .ok hd ∧
      t = { s with dec := { s.dec with
        header := hd, headerSize := 15#64, fileSize := BitVec.ofNat 64 s.dlen, cursor := 15#64, frameIdx := 0#64,
        state := 1#2, err := 0#8 } }) := by
  unfold execReadHeader at h
  split at h
  · cases h; exact .inl ⟨by assumption, rfl⟩
  rename_i hs
  split at h
  · rename_i e he
    obtain ⟨k, o, rfl, rfl⟩ := stopDec_eq_next.mp h
    exact .inr (.inl ⟨not_not.mp hs, k, o, he, rfl⟩)
  · rename_i hd hp
    cases h
    exact .inr (.inr ⟨not_not.mp hs, hd, hp, rfl⟩)

/-- WRITE_FRAME takes a next state in three ways. -/
theorem execWriteFrame_eq_next (h : execWriteFrame s = .next t) :
    (s.enc.state ≠ 1#2 ∧ t = precheckEnc .protocolViolation s) ∨
    (s.enc.state = 1#2 ∧ s.enc.quality = 3#2 ∧ t = precheckEnc .unsupportedQuality s) ∨
    ∃ px, WriteReady s px ∧ t = completeWrite px (chooseRecord s px) s := by
  unfold execWriteFrame at h
  split at h
  · cases h; exact .inl ⟨by assumption, rfl⟩
  rename_i h1
  split at h
  · rename_i h2; cases h; exact .inr (.inl ⟨not_not.mp h1, h2, rfl⟩)
  rename_i h2
  split at h
  · cases h
  rename_i h3
  split at h
  · rename_i e he
    obtain ⟨i, -, rfl, -⟩ := readPixin_eq_error he
    cases h
  · rename_i px hp
    cases h
    obtain ⟨hl, hh⟩ := readPixin_eq_ok.mp hp
    exact .inr (.inr ⟨px, ⟨not_not.mp h1, h2, by omega, hl, hh⟩, rfl⟩)

/-- A frame that ENC may write is written. -/
theorem execWriteFrame_of_ready {px : List Color} (h : WriteReady s px) :
    execWriteFrame s = .next (completeWrite px (chooseRecord s px) s) := by
  obtain ⟨h1, h2, h3, h4, h5⟩ := h
  rw [execWriteFrame, if_neg (not_not.mpr h1), if_neg h2, if_neg (by omega), readPixin_eq_ok.mpr ⟨h4, h5⟩]

/-- A packed value takes a next state in two ways. -/
theorem runPacked_eq_next {n : Nat} {deq : BitVec n → Color} {width : Nat} {p : Packed n}
    (h : runPacked deq width p s = .next t) :
    (∃ d, rleDecodeStep deq width p s.work.runDec = .ok d ∧ t = { s with work := { s.work with runDec := d } }) ∨
    (s.work.runDec.curValid = false ∧ t = malformedRun s.work.runDec.offset s) := by
  unfold runPacked at h
  split at h
  · rename_i d hd; cases h; exact .inl ⟨d, hd, rfl⟩
  · rename_i o ho
    cases h
    obtain ⟨rfl, hv, -⟩ := rleDecodeStep_eq_error ho
    exact .inr ⟨hv, rfl⟩

/-- The input of an RLE encode command. -/
theorem fuPixels_eq_ok {px : List Color} :
    fuPixels s = .ok px ↔
      3 * px.length ≤ s.params.fuMax ∧ px.length = s.fu.inLen.toNat ∧ Memory.Holds s.fuIn 0 (pixelBytes px) := by
  simp only [fuPixels]
  split
  · rename_i h; simp only [reduceCtorEq, false_iff, not_and]; omega
  · rename_i h
    constructor
    · intro hp
      cases hr : readFuIn s (3 * s.fu.inLen.toNat) with
      | error e => rw [hr] at hp; cases hp
      | ok bytes =>
        rw [hr] at hp; cases hp
        obtain ⟨hl, hh⟩ := readFuIn_eq_ok.mp hr
        have hb := pixelBytes_pixelsOf bytes (by omega)
        have := congrArg List.length hb
        rw [pixelBytes_length] at this
        exact ⟨by omega, by omega, by rwa [hb]⟩
    · rintro ⟨-, hl, hh⟩
      rw [readFuIn_eq_ok.mpr ⟨by rw [pixelBytes_length, hl], hh⟩]
      simp [Except.map]

theorem fuPixels_eq_error {e : Stop} (h : fuPixels s = .error e) :
    (s.params.fuMax < 3 * s.fu.inLen.toNat ∧ e = .refuse (.bufferTooLarge (3 * s.fu.inLen.toNat))) ∨
      ∃ k, e = .fault (.unwrittenFuIn k) ∧ Memory.read s.fuIn k = none ∧
        ∀ j < k, (Memory.read s.fuIn j).isSome = true := by
  simp only [fuPixels] at h
  split at h
  · rename_i hb; cases h; exact .inl ⟨hb, rfl⟩
  · obtain ⟨k, -, rfl, h1, h2⟩ := readFuIn_eq_error (map_eq_error h)
    exact .inr ⟨k, rfl, h1, h2⟩

/-- The end of an RLE decode command. -/
theorem fuDecoded_eq_ok {r : Except Nat RunDec} (h : fuDecoded s r = .ok t) :
    ∃ d, r = .ok d ∧ 3 * d.out.length ≤ s.params.fuMax ∧
      t = storeFuOut (pixelBytes d.out) d.out.length { s.work with runDec := d } s := by
  cases r with
  | error a => cases h
  | ok d =>
    simp only [fuDecoded] at h
    split at h
    · cases h
    · cases h; exact ⟨d, rfl, by omega, rfl⟩

theorem fuDecoded_eq_raise {r : Except Nat RunDec} {k : ErrKind} {o : Nat} (h : fuDecoded s r = .error (.raise k o)) :
    k = .malformedRun := by
  cases r with
  | error a => cases h; rfl
  | ok d =>
    simp only [fuDecoded] at h
    split at h <;> cases h

/-- What an RLE command of FU takes as its next state: bytes within FU_MAX and registers, or an FU error. -/
def FuNext (s t : State) : Prop :=
  (∃ bytes len runEnc runDec, bytes.length ≤ s.params.fuMax ∧ (runEnc.run ≤ s.work.runEnc.run ∨ runEnc.run ≤ 32767) ∧
    t = storeFuOut bytes len { s.work with runEnc := runEnc, runDec := runDec } s) ∨
  ∃ k, (k = .malformedRun ∨ k = .payloadMismatch) ∧ t = fuError k s

theorem execRleEnc8_eq_next (h : execRleEnc8 s = .next t) : FuNext s t := by
  unfold execRleEnc8 at h
  rcases finishFu_eq_next h with hr | ⟨k, o, hr, -⟩ <;>
    simp only [bind, Except.bind, pure, Except.pure] at hr <;> split at hr
  · cases hr
  · rename_i px hp
    cases hr
    obtain ⟨h1, h2, -⟩ := fuPixels_eq_ok.mp hp
    have hl := rleEncodeFrom_length_le (maxRun := maxRun8) (px.map quantize7) (RunEnc.start 7)
    have hr := rleEncodeFrom_run_le (maxRun := maxRun8) (px.map quantize7) (e := RunEnc.start 7) (by simp [RunEnc.start])
    rw [List.length_map] at hl
    refine .inl ⟨_, _, _, s.work.runDec, ?_, .inr (Nat.le_trans hr (by simp [maxRun8])), rfl⟩
    rw [bytesOf8_length]
    simp only [RunEnc.start] at hl ⊢
    omega
  · rename_i e he
    cases hr
    rcases fuPixels_eq_error he with ⟨-, h⟩ | ⟨_, h, -⟩ <;> cases h
  · cases hr

theorem execRleEnc16_eq_next (h : execRleEnc16 s = .next t) : FuNext s t := by
  unfold execRleEnc16 at h
  rcases finishFu_eq_next h with hr | ⟨k, o, hr, -⟩ <;>
    simp only [bind, Except.bind, pure, Except.pure] at hr <;> split at hr
  · cases hr
  · rename_i px hp
    cases hr
    obtain ⟨h1, h2, -⟩ := fuPixels_eq_ok.mp hp
    have hl := rleEncodeFrom_length_le (maxRun := maxRun16) (px.map quantize15) (RunEnc.start 15)
    have hr := rleEncodeFrom_run_le (maxRun := maxRun16) (px.map quantize15) (e := RunEnc.start 15)
      (by simp [RunEnc.start])
    rw [List.length_map] at hl
    refine .inl ⟨_, _, _, s.work.runDec, ?_, .inr (Nat.le_trans hr (by simp [maxRun16])), rfl⟩
    rw [bytesOf16_length]
    simp only [RunEnc.start] at hl ⊢
    omega
  · rename_i e he
    cases hr
    rcases fuPixels_eq_error he with ⟨-, h⟩ | ⟨_, h, -⟩ <;> cases h
  · cases hr

theorem fuDecoded_next {r : Except Nat RunDec} (h : finishFu s (fuDecoded s r) = .next t) : FuNext s t := by
  rcases finishFu_eq_next h with hr | ⟨k, o, hr, ht⟩
  · obtain ⟨d, -, hd, rfl⟩ := fuDecoded_eq_ok hr
    exact .inl ⟨_, _, s.work.runEnc, d, by rw [pixelBytes_length]; exact hd, .inl (le_refl _), rfl⟩
  · exact .inr ⟨k, .inl (fuDecoded_eq_raise hr), ht⟩

theorem execRleDec8_eq_next (h : execRleDec8 s = .next t) : FuNext s t := by
  simp only [execRleDec8, bind, Except.bind] at h
  split at h
  · cases h
  · split at h
    · rename_i e he
      obtain ⟨k, -, rfl, -⟩ := readFuIn_eq_error he
      cases h
    · exact fuDecoded_next h

theorem execRleDec16_eq_next (h : execRleDec16 s = .next t) : FuNext s t := by
  simp only [execRleDec16, bind, Except.bind] at h
  split at h
  · cases h
  split at h
  · cases h; exact .inr ⟨_, .inr rfl, rfl⟩
  split at h
  · rename_i e he
    obtain ⟨k, -, rfl, -⟩ := readFuIn_eq_error he
    cases h
  · exact fuDecoded_next h

end Sys2Proof.Machine
end

