-- ==== Sys2Proof/WellFormed.lean ====
section
/-! DEFINITION. What the formats of 30_encoding.md require of an instruction that is WRITTEN. The decoder accepts more:
it decodes any payload_size and any count, and the meaning reports what the spec reports. -/

namespace Sys2Proof

/-- The format's own rules on one instruction: a RAW payload is a whole number of pixels (30 R66), a COLOR_MAPPED
payload has its palette_size byte (30 R67), a QUANTIZED_16 payload is even (30 R69), a REPEATED record has no payload
(30 R70), and count 0 of a run marker is reserved (30 R72). -/
def Instr.wellFormed : Instr → Bool
  | .raw size => size.toNat % 3 == 0
  | .colorMapped size => decide (1 ≤ size.toNat)
  | .quantized16 size => size.toNat % 2 == 0
  | .quantized8 _ => true
  | .repeated size => size == 0#32
  | .lit8 _ _ _ => true
  | .run8 c => c != 0#7
  | .lit16 _ _ _ => true
  | .run16 c => c != 0#15
  | .reset | .readHeader | .readFrame | .skipFrame | .seek | .dclose | .dreset => true
  | .writeHeader | .writeFrame | .eclose | .ereset => true
  | .quant7 | .dequant7 | .quant15 | .dequant15 => true
  | .rleEnc8 | .rleDec8 | .rleEnc16 | .rleDec16 => true

end Sys2Proof
end

