-- ==== Sys2Proof/Tests/Slice0.lean ====
section
/-! SUPPORT. The model's own tests: a smoke test of each well-formedness check, the decoding of words written out from
30_encoding.md, one-step tests whose expected results are the vectors of 95_test_vectors.md (named in each comment), and a
witness for every statement that has hypotheses. -/

namespace Sys2Proof.Tests

open Sys2Proof Sys2Proof.Machine

/-! ### Helpers -/

/-- The placeholder parameters of 95_test_vectors.md: MAGIC = 44 55 4D 00. -/
def params : Params := ⟨⟨0x44#8, 0x55#8, 0x4D#8, 0x00#8⟩, 1000, 600⟩

/-- The machine at reset with the placeholder parameters. -/
def start : State :=
  { params := params, dstream := [], dlen := 0, pixin := [], fuIn := [], dec := Decoder.reset, enc := Encoder.reset,
    fu := FuncUnit.reset, work := Work.reset, pending := [], hostData := 0#64, draws := 0 }

def bytes (l : List Nat) : List Byte := l.map (BitVec.ofNat 8)

def color (r g b : Nat) : Color := ⟨BitVec.ofNat 8 r, BitVec.ofNat 8 g, BitVec.ofNat 8 b⟩

/-- `start` on a stream of bytes. -/
def onStream (l : List Nat) : State := { start with dstream := Memory.ofList 0 (bytes l), dlen := l.length }

/-- The header of vectors F1 to F55: width 2, height 2, frame_count 3. -/
def header22 : List Nat := [0x44, 0x55, 0x4D, 0x00, 0x01, 0x00, 0x02, 0x00, 0x02, 0x01, 0x01, 0x00, 0x00, 0x00, 0x03]

/-- DEC after READ_HEADER on that header followed by the bytes of a vector. -/
def reading (l : List Nat) : State :=
  { onStream (header22 ++ l) with dec := { Decoder.reset with
      state := 1#2, header := ⟨1#8, 2#16, 2#16, 1#8, 1#8, 3#32⟩, headerSize := 15#64,
      fileSize := BitVec.ofNat 64 (15 + l.length), cursor := 15#64 } }

/-- The record of vector F1: a RAW record of four pixels. -/
def recordF1 : List Nat := [1, 0, 0, 0, 12, 10, 20, 30, 40, 50, 60, 70, 80, 90, 100, 110, 120]

/-- `start` with an FU_IN input. -/
def fuInput (l : List Nat) (len : Nat) : State :=
  { start with fuIn := Memory.ofList 0 (bytes l), fu := { FuncUnit.reset with inLen := BitVec.ofNat 32 len } }

/-- ENC in HeaderWritten at a resolution, with a frame in PIXIN. -/
def writing (w h : Nat) (px : List Color) : State :=
  { start with
    pixin := Memory.ofList 0 px
    enc := { Encoder.reset with
      state := 1#2, header := ⟨1#8, BitVec.ofNat 16 w, BitVec.ofNat 16 h, 1#8, 1#8, 1#32⟩, cursor := 15#64
      estream := Memory.ofList 0 (bytes header22) } }

/-- `start` with a host move to make. -/
def withMove (m : HostMove) (s : State) : State := { s with pending := [m] }

/-- The outcome of a decode command: D_STATE, D_ERR, D_ERR_OFFSET, D_CURSOR, D_FRAME_IDX. -/
def decOf (r : Result) : Option (Nat × Nat × Nat × Nat × Nat) :=
  (nextState r).map fun t =>
    (t.dec.state.toNat, t.dec.err.toNat, t.dec.errOffset.toNat, t.dec.cursor.toNat, t.dec.frameIdx.toNat)

/-- The delivered frame: PIXOUT, D_OUT_COUNT, SHORT. -/
def frameOf (r : Result) : Option (List Color × Nat × Bool) :=
  (nextState r).map fun t => (t.dec.pixout.map Prod.snd, t.dec.outCount.toNat, t.dec.short)

/-- The FU result: F_ERR, F_OUT_LEN, FU_OUT. -/
def fuOf (r : Result) : Option (Nat × Nat × List Nat) :=
  (nextState r).map fun t => (t.fu.err.toNat, t.fu.outLen.toNat, t.fu.fuOut.map fun x => x.2.toNat)

/-- The ENC result: E_STATE, E_ERR, E_CURSOR, the bytes of ESTREAM from 15 on. -/
def encOf (r : Result) : Option (Nat × Nat × Nat × List Nat) :=
  (nextState r).map fun t =>
    (t.enc.state.toNat, t.enc.err.toNat, t.enc.cursor.toNat, (t.enc.estream.drop 15).map fun x => x.2.toNat)

/-! ### Well-formedness: each check refuses an ill-formed term -/

theorem test_wf_raw : (Instr.raw 12#32).wellFormed = true ∧ (Instr.raw 13#32).wellFormed = false := by decide

theorem test_wf_colorMapped :
    (Instr.colorMapped 1#32).wellFormed = true ∧ (Instr.colorMapped 0#32).wellFormed = false := by decide

theorem test_wf_quantized16 :
    (Instr.quantized16 4#32).wellFormed = true ∧ (Instr.quantized16 3#32).wellFormed = false := by decide

theorem test_wf_repeated :
    (Instr.repeated 0#32).wellFormed = true ∧ (Instr.repeated 1#32).wellFormed = false := by decide

theorem test_wf_run8 : (Instr.run8 1#7).wellFormed = true ∧ (Instr.run8 0#7).wellFormed = false := by decide

theorem test_wf_run16 : (Instr.run16 1#15).wellFormed = true ∧ (Instr.run16 0#15).wellFormed = false := by decide

/-! ### Decoding: words written out from 30_encoding.md (R62 to R76) -/

/-- Records: the tag byte, then a big-endian size; the payload stays in the rest. -/
theorem test_decode_records :
    decode .frameRecord (bytes [0x01, 0x00, 0x00, 0x00, 0x0C, 0x0A]) = .ok (.raw 12#32, [0x0A#8]) ∧
    decode .frameRecord (bytes [0x02, 0x00, 0x00, 0x01, 0x00]) = .ok (.colorMapped 256#32, []) ∧
    decode .frameRecord (bytes [0x03, 0x00, 0x01, 0x00, 0x00]) = .ok (.quantized16 65536#32, []) ∧
    decode .frameRecord (bytes [0x04, 0x01, 0x00, 0x00, 0x02]) = .ok (.quantized8 16777218#32, []) ∧
    decode .frameRecord (bytes [0x05, 0x00, 0x00, 0x00, 0x00]) = .ok (.repeated 0#32, []) := by decide

/-- Reserved tags and short prefixes are refused by name. -/
theorem test_decode_records_refused :
    decode .frameRecord (bytes [0x00, 0, 0, 0, 0]) = .error (.unknownTag 0x00#8) ∧
    decode .frameRecord (bytes [0x06, 0, 0, 0, 0]) = .error (.unknownTag 0x06#8) ∧
    decode .frameRecord (bytes [0x81, 0, 0, 0, 0]) = .error (.unknownTag 0x81#8) ∧
    decode .frameRecord (bytes [0x01, 0, 0, 0]) = .error .truncated := by decide

/-- Packed values, bit by bit: 0 rrr gg bb, 1 ccccccc, and their 16-bit forms. -/
theorem test_decode_packed :
    decode .packed8 [0b01100100#8] = .ok (.lit8 0b110#3 0b01#2 0b00#2, []) ∧
    decode .packed8 [0b00010011#8] = .ok (.lit8 0b001#3 0b00#2 0b11#2, []) ∧
    decode .packed8 [0b11100011#8] = .ok (.run8 99#7, []) ∧
    decode .packed16 [0b01100101#8, 0b10000110#8] = .ok (.lit16 0b11001#5 0b01100#5 0b00110#5, []) ∧
    decode .packed16 [0b10000001#8, 0b00000000#8] = .ok (.run16 256#15, []) := by decide

/-- The command codes of 30 R75: global and DEC. -/
theorem test_decode_dec_commands :
    decode .command [0x01#8] = .ok (.reset, []) ∧ decode .command [0x10#8] = .ok (.readHeader, []) ∧
    decode .command [0x11#8] = .ok (.readFrame, []) ∧ decode .command [0x12#8] = .ok (.skipFrame, []) ∧
    decode .command [0x13#8] = .ok (.seek, []) ∧ decode .command [0x14#8] = .ok (.dclose, []) ∧
    decode .command [0x1F#8] = .ok (.dreset, []) := by decide

/-- The command codes of 30 R75: ENC. -/
theorem test_decode_enc_commands :
    decode .command [0x20#8] = .ok (.writeHeader, []) ∧ decode .command [0x21#8] = .ok (.writeFrame, []) ∧
    decode .command [0x22#8] = .ok (.eclose, []) ∧ decode .command [0x2F#8] = .ok (.ereset, []) := by decide

/-- The command codes of 30 R75: FU. -/
theorem test_decode_fu_commands :
    decode .command [0x30#8] = .ok (.quant7, []) ∧ decode .command [0x31#8] = .ok (.dequant7, []) ∧
    decode .command [0x32#8] = .ok (.quant15, []) ∧ decode .command [0x33#8] = .ok (.dequant15, []) ∧
    decode .command [0x34#8] = .ok (.rleEnc8, []) ∧ decode .command [0x35#8] = .ok (.rleDec8, []) ∧
    decode .command [0x36#8] = .ok (.rleEnc16, []) ∧ decode .command [0x37#8] = .ok (.rleDec16, []) := by decide

/-- Reserved command codes are refused by name (30 R76). -/
theorem test_decode_reserved :
    ∀ c ∈ [0x00#8, 0x02#8, 0x0F#8, 0x15#8, 0x1E#8, 0x23#8, 0x2E#8, 0x38#8, 0xFF#8],
      decode .command [c] = .error (.reservedCommand c) := by decide

/-- The table's words: a 16-bit word is a packed value; a byte is a command, else a record tag, else a packed value. -/
theorem test_table_words :
    decodeTableWord 8 0x11 = some .readFrame ∧ decodeTableWord 8 0x02 = some (.colorMapped 0#32) ∧
    decodeTableWord 8 0x64 = some (.lit8 6#3 1#2 0#2) ∧ decodeTableWord 8 0xE3 = some (.run8 99#7) ∧
    decodeTableWord 16 0x6586 = some (.lit16 25#5 12#5 6#5) ∧ decodeTableWord 16 0x8063 = some (.run16 99#15) ∧
    decodeTableWord 24 0x11 = none := by decide

/-- A placed command, record and packed value run on the very next step: QUANT7 clears F_ERR, a COLOR_MAPPED record of
size 0 is PayloadMismatch at 0, and a literal is decoded to one pixel. -/
theorem test_withFetchWord :
    fuOf (step (start.withFetchWord 8 0x30)) = some (0, 0, []) ∧
    decOf (step (start.withFetchWord 8 0x02)) = some (3, 9, 0, 0, 0) ∧
    fuOf (step (start.withFetchWord 8 0x64)) = some (0, 1, [208, 80, 16]) ∧
    fuOf (step (start.withFetchWord 16 0x6586)) = some (0, 1, [204, 100, 52]) := by decide

/-! ### Frame records -/

/-- F1: a whole RAW record. -/
theorem test_raw_whole :
    decOf (exec .readFrame (reading recordF1)) = some (1, 0, 0, 32, 1) ∧
    frameOf (exec (.raw 12#32) (reading recordF1)) =
      some ([color 10 20 30, color 40 50 60, color 70 80 90, color 100 110 120], 4, false) := by decide

/-- F3 and F5: a RAW payload cut by the end of the stream is short; one above a full frame is PayloadMismatch. -/
theorem test_raw_short :
    frameOf (exec (.raw 12#32) (reading [1, 0, 0, 0, 12, 1, 2, 3, 4, 5, 6, 7, 8])) =
      some ([color 1 2 3, color 4 5 6], 2, true) ∧
    decOf (exec (.raw 13#32) (reading [1, 0, 0, 0, 13])) = some (3, 9, 15, 15, 0) := by decide

/-- F10: two colours. -/
theorem test_colorMapped :
    frameOf (exec (.colorMapped 11#32) (reading [2, 0, 0, 0, 11, 2, 255, 0, 0, 0, 0, 255, 0, 1, 1, 0])) =
      some ([color 255 0 0, color 0 0 255, color 0 0 255, color 255 0 0], 4, false) := by decide

/-- F12 and F17: a bad index at its own offset; a palette entry that does not fit. -/
theorem test_colorMapped_errors :
    decOf (exec (.colorMapped 8#32) (reading [2, 0, 0, 0, 8, 1, 9, 9, 9, 0, 0, 1, 0])) = some (3, 10, 26, 15, 0) ∧
    decOf (exec (.colorMapped 8#32) (reading [2, 0, 0, 0, 8, 1, 9])) = some (3, 1, 21, 15, 0) := by decide

/-- F21: a count-0 marker in the middle emits nothing. -/
theorem test_quantized8 :
    frameOf (exec (.quantized8 4#32) (reading [4, 0, 0, 0, 4, 0x64, 0x80, 0x82, 0])) =
      some ([color 208 80 16, color 208 80 16, color 208 80 16, color 16 16 16], 4, false) := by decide

/-- F23, F24, F27: a leading marker; five pixels; a missing byte. -/
theorem test_quantized8_errors :
    decOf (exec (.quantized8 2#32) (reading [4, 0, 0, 0, 2, 0x83, 0x64])) = some (3, 5, 20, 15, 0) ∧
    decOf (exec (.quantized8 2#32) (reading [4, 0, 0, 0, 2, 0x64, 0x84])) = some (3, 9, 15, 15, 0) ∧
    decOf (exec (.quantized8 2#32) (reading [4, 0, 0, 0, 2, 0x64])) = some (3, 1, 21, 15, 0) := by decide

/-- F30: four pixels in the 16-bit scheme. -/
theorem test_quantized16 :
    frameOf (exec (.quantized16 8#32) (reading [3, 0, 0, 0, 8, 0x65, 0x86, 0x80, 1, 0x7F, 0xFF, 0, 0])) =
      some ([color 204 100 52, color 204 100 52, color 252 252 252, color 4 4 4], 4, false) := by decide

/-- F32 and F34: an odd size; a second value that does not fit. -/
theorem test_quantized16_errors :
    decOf (exec (.quantized16 3#32) (reading [3, 0, 0, 0, 3, 0x65, 0x86, 0x80])) = some (3, 9, 15, 15, 0) ∧
    decOf (exec (.quantized16 4#32) (reading [3, 0, 0, 0, 4, 0x65, 0x86, 0x80])) = some (3, 1, 22, 15, 0) := by decide

/-- F6: the repeat of a partial frame is delivered again, SHORT clear. -/
theorem test_repeated :
    frameOf (exec (.repeated 0#32) { reading [5, 0, 0, 0, 0] with
      dec := { (reading [5, 0, 0, 0, 0]).dec with
        lastValid := true, short := true, lastFrame := [color 1 2 3, color 4 5 6] } }) =
      some ([color 1 2 3, color 4 5 6], 2, false) := by decide

/-- F40 and F41: nothing decoded yet; a size other than 0, checked first. -/
theorem test_repeated_errors :
    decOf (exec (.repeated 0#32) (reading [5, 0, 0, 0, 0])) = some (3, 6, 15, 15, 0) ∧
    decOf (exec (.repeated 1#32) (reading [5, 0, 0, 0, 1, 0])) = some (3, 9, 15, 15, 0) := by decide

/-! ### Packed values -/

/-- R124: a literal emits its colour, a marker repeats it; 0x64 is (208,80,16). -/
theorem test_lit8_run8 :
    ((nextState (runAll [.lit8 6#3 1#2 0#2, .run8 2#7] start)).map fun t => t.work.runDec.out) =
      some [color 208 80 16, color 208 80 16, color 208 80 16] := by decide

/-- R124 in the 16-bit width; 0x6586 is (204,100,52). -/
theorem test_lit16_run16 :
    ((nextState (runAll [.lit16 25#5 12#5 6#5, .run16 1#15] start)).map fun t => t.work.runDec.out) =
      some [color 204 100 52, color 204 100 52] := by decide

/-- D3: a marker before any literal is MalformedRun, count 0 too. -/
theorem test_run_first :
    fuOf (exec (.run8 0#7) start) = some (5, 0, []) ∧ fuOf (exec (.run16 3#15) start) = some (5, 0, []) := by decide

/-! ### DEC commands -/

/-- H9: the six fields of a header. -/
theorem test_readHeader :
    ((nextState (exec .readHeader (onStream [0x44, 0x55, 0x4D, 0x00, 1, 0, 4, 0, 4, 4, 5, 0, 0, 0, 2]))).map
      fun t => (t.dec.header, t.dec.fileSize)) = some (⟨1#8, 4#16, 4#16, 4#8, 5#8, 2#32⟩, 15#64) := by decide

/-- H2, H7 and ST4: shorter than the magic is InvalidMagic; a cut field is TruncatedRead at the field; a second READ_HEADER
is ProtocolViolation. -/
theorem test_readHeader_errors :
    decOf (exec .readHeader (reading [])) = some (1, 3, 0, 15, 0) ∧
    decOf (exec .readHeader (onStream [0x44, 0x55, 0x4D])) = some (3, 2, 0, 0, 0) ∧
    decOf (exec .readHeader (onStream [0x44, 0x55, 0x4D, 0, 0, 0, 0, 0, 0, 0, 0, 0, 0, 0])) = some (3, 1, 11, 0, 0) := by
  decide

/-- F50, F53 and F55: an unknown tag; a cut size field whatever the tag; the end of the stream. -/
theorem test_readFrame_errors :
    decOf (exec .readFrame (reading [7, 0, 0, 0, 0])) = some (3, 4, 15, 15, 0) ∧
    decOf (exec .readFrame (reading [7, 0, 0])) = some (3, 1, 16, 15, 0) ∧
    decOf (exec .readFrame (reading [])) = some (3, 1, 15, 15, 0) := by decide

/-- A skip needs no payload: the cursor may pass DLEN (45 R186). -/
theorem test_skipFrame :
    decOf (exec .skipFrame (reading [4, 0, 0, 0, 2, 0x83, 0x64])) = some (1, 0, 0, 22, 1) ∧
    decOf (exec .skipFrame (reading [1, 0, 0, 0, 12])) = some (1, 0, 0, 32, 1) := by decide

/-- S4: progress 0.5 of three records is record 1; progress 0 is record 0, from any position. -/
theorem test_seek :
    decOf (exec .seek { reading recordF1 with dec := { (reading recordF1).dec with progress := 0x40000000#32 } }) =
      some (1, 0, 0, 32, 1) ∧
    decOf (exec .seek { reading recordF1 with dec := { (reading recordF1).dec with
      frameIdx := 1#64, cursor := 32#64 } }) = some (1, 0, 0, 15, 0) := by decide

/-- K10: the second skip of a SEEK meets an unknown tag; cursor and index are those from before the SEEK. -/
theorem test_seek_error :
    decOf (exec .seek { reading [5, 0, 0, 0, 0, 9, 0, 0, 0, 0] with
      dec := { (reading []).dec with progress := 0x80000000#32 } }) = some (3, 4, 20, 15, 0) := by decide

/-- ST3 and ST5: a close, and a close of what is closed. -/
theorem test_dclose :
    decOf (exec .dclose start) = some (2, 0, 0, 0, 0) ∧
    decOf (exec .dclose { start with dec := { Decoder.reset with state := 2#2 } }) = some (2, 3, 0, 0, 0) := by decide

/-- ST7: DRESET of a faulted DEC. -/
theorem test_dreset :
    decOf (exec .dreset { start with dec := { Decoder.reset with state := 3#2, err := 5#8, errOffset := 20#64 } }) =
      some (0, 0, 0, 0, 0) := by decide

/-- RESET clears the FU registers and keeps the stream (70 R251). -/
theorem test_reset :
    ((nextState (exec .reset { onStream [1, 2] with fu := { FuncUnit.reset with color := 7#24 } })).map
      fun t => (t.fu.color, t.dlen)) = some (0#24, 2) := by decide

/-! ### ENC commands -/

/-- H22: the header bytes. -/
theorem test_writeHeader :
    ((nextState (exec .writeHeader { start with enc := { Encoder.reset with
      header := ⟨30#8, 320#16, 200#16, 2#8, 3#8, 300#32⟩ } })).map fun t => t.enc.estream.map fun x => x.2.toNat) =
      some [0x44, 0x55, 0x4D, 0, 0x1E, 0x01, 0x40, 0, 0xC8, 2, 3, 0, 0, 0x01, 0x2C] := by decide

/-- 43 R144: palette in first-seen order, then the indices. -/
theorem test_writeFrame_colorMapped :
    encOf (exec .writeFrame (writing 3 1 [color 9 9 9, color 1 2 3, color 9 9 9])) =
      some (1, 0, 30, [2, 0, 0, 0, 10, 2, 9, 9, 9, 1, 2, 3, 0, 1, 0]) := by decide

/-- 46 R202: a frame equal to the previous one. -/
theorem test_writeFrame_repeated :
    encOf (exec .writeFrame { writing 1 1 [color 9 9 9] with enc := { (writing 1 1 [color 9 9 9]).enc with
      prevValid := true, prevFrame := [color 9 9 9] } }) = some (1, 0, 20, [5, 0, 0, 0, 0]) := by decide

/-- 46 R205: close once, then ProtocolViolation. -/
theorem test_eclose :
    encOf (exec .eclose start) = some (2, 0, 0, []) ∧
    encOf (exec .eclose { start with enc := { Encoder.reset with state := 2#2 } }) = some (2, 3, 0, []) := by decide

/-- 70 R253: the header operands go back to 0, PIXIN stays. -/
theorem test_ereset :
    ((nextState (exec .ereset (writing 2 1 [color 9 9 9, color 1 2 3]))).map
      fun t => (t.enc.header.width, t.enc.cursor, t.pixin.length)) = some (0#16, 0#64, 2) := by decide

/-! ### FU commands -/

/-- Q4: a colour at the bucket boundaries, all four quantizer commands. -/
theorem test_quantizers :
    ((nextState (exec .quant7 { start with fu := { FuncUnit.reset with color := 0x204040#24 } })).map
      fun t => t.fu.value) = some 0x15#15 ∧
    ((nextState (exec .dequant7 { start with fu := { FuncUnit.reset with value := 0x15#15 } })).map
      fun t => t.fu.color) = some 0x305050#24 ∧
    ((nextState (exec .quant15 { start with fu := { FuncUnit.reset with color := 0x204040#24 } })).map
      fun t => t.fu.value) = some 0x1108#15 ∧
    ((nextState (exec .dequant15 { start with fu := { FuncUnit.reset with value := 0x1108#15 } })).map
      fun t => t.fu.color) = some 0x244444#24 := by decide

/-- Q26 and Q27: DEQUANT7 ignores bits 14:7 and QUANT7 writes them 0. -/
theorem test_quantizer_high_bits :
    ((nextState (exec .dequant7 { start with fu := { FuncUnit.reset with value := 0x7FE4#15 } })).map
      fun t => (t.fu.color, t.fu.value)) = some (0xD05010#24, 0x7FE4#15) ∧
    ((nextState (exec .quant7 { start with fu := { FuncUnit.reset with value := 0x7FFF#15 } })).map
      fun t => t.fu.value) = some 0#15 := by decide

/-- L24: runs of quantized values. -/
theorem test_rleEnc8 :
    fuOf (exec .rleEnc8 (fuInput [255, 255, 255, 255, 255, 255, 255, 255, 255, 0, 0, 0, 255, 255, 255, 255, 255, 255, 250,
      250, 250] 7)) = some (0, 5, [0x7F, 0x82, 0x00, 0x7F, 0x82]) := by decide

/-- L6: at a full run an equal value becomes a fresh literal. -/
theorem test_rleEncode_full :
    (rleEncode 2 (List.replicate 7 5#7)).map pack8 = [0x05#8, 0x82#8, 0x05#8, 0x82#8, 0x05#8] := by decide

/-- L11: two pixels in the 16-bit width. -/
theorem test_rleEnc16 :
    fuOf (exec .rleEnc16 (fuInput [200, 100, 50, 200, 100, 50] 2)) = some (0, 4, [0x65, 0x86, 0x80, 0x01]) := by decide

/-- D5 and D8: count 0 emits nothing; two runs. -/
theorem test_rleDec8 :
    fuOf (exec .rleDec8 (fuInput [0x64, 0x80] 2)) = some (0, 1, [0xD0, 0x50, 0x10]) ∧
    fuOf (exec .rleDec8 (fuInput [0x64, 0x81, 0x00, 0x81] 4)) =
      some (0, 4, [0xD0, 0x50, 0x10, 0xD0, 0x50, 0x10, 0x10, 0x10, 0x10, 0x10, 0x10, 0x10]) := by decide

/-- D12, D13 and D14: the odd length first; a leading marker; count 0. -/
theorem test_rleDec16 :
    fuOf (exec .rleDec16 (fuInput [0x80, 0x03, 0x65] 3)) = some (9, 0, []) ∧
    fuOf (exec .rleDec16 (fuInput [0x80, 0x03, 0x65, 0x86] 4)) = some (5, 0, []) ∧
    fuOf (exec .rleDec16 (fuInput [0x65, 0x86, 0x80, 0x00] 4)) = some (0, 1, [0xCC, 0x64, 0x34]) := by decide

/-! ### The host -/

/-- Q28 and H24: a write stores the low bits; E_WIDTH is locked once the header is written. -/
theorem test_host_writes :
    ((nextState (step (withMove (.writeReg 0x32 0xFFFF#64) start))).map fun t => t.fu.value) = some 0x7FFF#15 ∧
    ((nextState (step (withMove (.writeReg 0x25 9#64) (writing 4 4 [])))).map fun t => t.enc.header.width) =
      some 4#16 := by decide

/-- 10 R10, R37, 20 R43: the value the host reads from D_HEIGHT, a FU_OUT byte and an ESTREAM byte. -/
theorem test_host_reads :
    ((nextState (step (withMove (.readReg 0x16) { start with dec := { Decoder.reset with
      header := ⟨1#8, 7#16, 9#16, 1#8, 1#8, 2#32⟩ } }))).map fun t => t.hostData) = some 9#64 ∧
    ((nextState (step (withMove (.readFuOut 1) { start with fu := { FuncUnit.reset with
      fuOut := Memory.ofList 0 (bytes [0x64, 0xE3]) } }))).map fun t => t.hostData) = some 0xE3#64 ∧
    ((nextState (step (withMove (.readEstream 1) (writing 1 1 [])))).map fun t => t.hostData) = some 0x55#64 := by decide

/-! ### Witnesses: for each statement with hypotheses, a state and operands that meet them -/

theorem next_of_isSome {r : Result} (h : (nextState r).isSome = true) : ∃ t, r = .next t := by
  cases r with
  | next t => exact ⟨t, rfl⟩
  | fault f => cases h
  | refused f => cases h

theorem next_and {r : Result} {p : State → Bool} (h : ((nextState r).map p) = some true) :
    ∃ t, r = .next t ∧ p t = true := by
  cases r with
  | next t => exact ⟨t, rfl, by simpa [nextState] using h⟩
  | fault f => cases h
  | refused f => cases h

theorem witness_EncodeWritesBackDecode :
    decode .packed8 [0x64#8, 0x07#8] = .ok (.lit8 6#3 1#2 0#2, [0x07#8]) := by decide

theorem witness_StepRunsTheDecodedCommand :
    (withMove (.writeReg 0 0x1FF30#64) start).pending = .writeReg 0 0x1FF30#64 :: [] ∧
      decode .command [(0x1FF30#64).setWidth 8] = .ok (.quant7, []) := by decide

/-- Each clause, at both ends of its range. -/
theorem witness_ReservedCommandIsRefused :
    ∀ v ∈ [0x00#64, 0x02#64, 0x0F#64, 0x15#64, 0x1E#64, 0x23#64, 0x2E#64, 0x38#64, 0xFF#64, 0x100#64],
      (withMove (.writeReg 0 v) start).pending = .writeReg 0 v :: [] ∧
      (v.toNat % 256 = 0x00 ∨ (0x02 ≤ v.toNat % 256 ∧ v.toNat % 256 ≤ 0x0F) ∨
        (0x15 ≤ v.toNat % 256 ∧ v.toNat % 256 ≤ 0x1E) ∨ (0x23 ≤ v.toNat % 256 ∧ v.toNat % 256 ≤ 0x2E) ∨
        0x38 ≤ v.toNat % 256) := by
  refine fun v hv => ⟨rfl, ?_⟩
  revert v
  simp

theorem witness_ReadFrameRunsTheFetchedRecord :
    StreamAt (reading recordF1) (reading recordF1).dec.cursor.toNat (bytes [1, 0, 0, 0, 12]) ∧
      decode .frameRecord (bytes [1, 0, 0, 0, 12]) = .ok (.raw 12#32, []) :=
  ⟨⟨by unfold Memory.Holds; decide, by decide⟩, by decide⟩

theorem witness_RleDecodeRunsThePackedValues_8 :
    (bytes [0x64, 0x81]).length = (fuInput [0x64, 0x81] 2).fu.inLen.toNat ∧
    (bytes [0x64, 0x81]).length ≤ (fuInput [0x64, 0x81] 2).params.fuMax ∧
    Memory.Holds (fuInput [0x64, 0x81] 2).fuIn 0 (bytes [0x64, 0x81]) ∧
    (∀ p ∈ (bytes [0x64, 0x81]).head?, p.toNat < 128) ∧
    ∃ t, runAll ((bytes [0x64, 0x81]).map decodePacked8) { fuInput [0x64, 0x81] 2 with
      work := { Work.reset with runDec := RunDec.start .fu 0 } } = .next t ∧
      decide (3 * t.work.runDec.out.length ≤ 600) = true :=
  ⟨by decide, by decide, Memory.holds_ofList _ _, by decide, next_and (by decide)⟩

theorem witness_RleDecodeRunsThePackedValues_16 :
    2 * [0x6586#16, 0x8001#16].length = (fuInput [0x65, 0x86, 0x80, 0x01] 4).fu.inLen.toNat ∧
    2 * [0x6586#16, 0x8001#16].length ≤ (fuInput [0x65, 0x86, 0x80, 0x01] 4).params.fuMax ∧
    Memory.Holds (fuInput [0x65, 0x86, 0x80, 0x01] 4).fuIn 0 ([0x6586#16, 0x8001#16].flatMap be16) ∧
    (∀ p ∈ [0x6586#16, 0x8001#16].head?, p.toNat < 32768) ∧
    ∃ t, runAll ([0x6586#16, 0x8001#16].map decodePacked16) { fuInput [0x65, 0x86, 0x80, 0x01] 4 with
      work := { Work.reset with runDec := RunDec.start .fu 0 } } = .next t ∧
      decide (3 * t.work.runDec.out.length ≤ 600) = true :=
  ⟨by decide, by decide, by unfold Memory.Holds; decide, by simp, next_and (by decide)⟩

/-- A full run of equal values, then the same value again: a literal, a full marker, the literal again. -/
theorem rleEncode_fullRun {n maxRun : Nat} (v : BitVec n) (hm : 0 < maxRun) :
    rleEncode maxRun (v :: (List.replicate maxRun v ++ [v])) = [.lit v, .run (BitVec.ofNat n maxRun), .lit v] := by
  have h := rleEncodeFrom_replicate (maxRun := maxRun) maxRun (e := ⟨true, v, 0⟩) [v] rfl (by simp)
  rw [rleEncode, rleEncodeFrom_literal _ (by simp [RunEnc.start]), h, rleEncodeFrom_literal _ (by simp)]
  simp [rleFlush, RunEnc.start, rleEncodeFrom, hm]

/-- Every premise inside the shape, in both widths. -/
theorem witness_RleEncodeOutputShape :
    rleEncode 127 (5#7 :: (List.replicate 127 5#7 ++ [5#7])) = [.lit 5#7, .run 127#7, .lit 5#7] ∧
    rleEncode 127 [5#7, 9#7, 9#7] = [.lit 5#7, .lit 9#7, .run 1#7] ∧
    rleEncode 32767 (5#15 :: (List.replicate 32767 5#15 ++ [5#15])) = [.lit 5#15, .run 32767#15, .lit 5#15] ∧
    rleEncode 32767 [5#15, 9#15, 9#15] = [.lit 5#15, .lit 9#15, .run 1#15] :=
  ⟨rleEncode_fullRun 5#7 (by decide), by decide, rleEncode_fullRun 5#15 (by decide), by decide⟩

theorem witness_RleEncodeOfABlock :
    (1 ≤ 1 ∧ ([] : List (BitVec 7)).getLast? ≠ some 5#7 ∧ ([] : List (BitVec 7)).head? ≠ some 5#7) ∧
    (1 ≤ 128 ∧ [4#15].getLast? ≠ some 5#15 ∧ [6#15, 5#15].head? ≠ some 5#15) := by decide

theorem witness_OnlyALeadingRunIsMalformed :
    rleDecode dequantize7 1 [.run 0#7, .lit 5#7] (RunDec.start .dec 20) = .error 20 := by decide

theorem witness_PackedValuesEmitPixels :
    ({ start with work := { Work.reset with runDec := { RunDec.start .fu 0 with curValid := true } } } :
      State).work.runDec.curValid = true := by decide

theorem witness_RunBeforeLiteralIsMalformed :
    (start.work.runDec.curValid = false ∧ start.work.runDec.user = .fu) ∧
    (({ start with work := { Work.reset with runDec := RunDec.start .dec 20 } } : State).work.runDec.curValid = false ∧
     ({ start with work := { Work.reset with runDec := RunDec.start .dec 20 } } : State).work.runDec.user = .dec) := by
  decide

/-- `fuInput` with another FU_MAX. -/
def fuWith (fuMax : Nat) (l : List Nat) (len : Nat) : State :=
  { fuInput l len with params := { params with fuMax := fuMax } }

/-- The refused clause one above FU_MAX, the other at FU_MAX. -/
theorem witness_RleEnc_Results :
    ([color 1 2 3, color 4 5 6].length = (fuWith 5 [] 2).fu.inLen.toNat ∧
      (fuWith 5 [] 2).params.fuMax < 3 * [color 1 2 3, color 4 5 6].length) ∧
    ([color 1 2 3, color 4 5 6].length = (fuWith 6 [1, 2, 3, 4, 5, 6] 2).fu.inLen.toNat ∧
      3 * [color 1 2 3, color 4 5 6].length ≤ (fuWith 6 [1, 2, 3, 4, 5, 6] 2).params.fuMax ∧
      Memory.Holds (fuWith 6 [1, 2, 3, 4, 5, 6] 2).fuIn 0 (pixelBytes [color 1 2 3, color 4 5 6])) ∧
    2 * (rleEncode 32767 ([color 1 2 3, color 4 5 6].map quantize15)).length < 2 ^ 32 :=
  ⟨by decide, ⟨by decide, by decide, Memory.holds_ofList _ _⟩, by decide⟩

/-- RLE_DEC8: refused by its input; MalformedRun; refused by its output; one pixel at FU_MAX. -/
theorem witness_RleDec8Result :
    ((bytes [0x64, 0x64, 0x64, 0x64]).length = (fuWith 3 [0x64, 0x64, 0x64, 0x64] 4).fu.inLen.toNat ∧
      (fuWith 3 [0x64, 0x64, 0x64, 0x64] 4).params.fuMax < (bytes [0x64, 0x64, 0x64, 0x64]).length) ∧
    (Memory.Holds (fuWith 3 [0x80] 1).fuIn 0 (bytes [0x80]) ∧
      rleDecode dequantize7 1 ((bytes [0x80]).map unpack8) (RunDec.start .fu 0) = .error 0) ∧
    (Memory.Holds (fuWith 3 [0x64, 0x81] 2).fuIn 0 (bytes [0x64, 0x81]) ∧
      ∃ d, rleDecode dequantize7 1 ((bytes [0x64, 0x81]).map unpack8) (RunDec.start .fu 0) = .ok d ∧
        (fuWith 3 [0x64, 0x81] 2).params.fuMax < 3 * d.out.length) ∧
    (Memory.Holds (fuWith 3 [0x64] 1).fuIn 0 (bytes [0x64]) ∧
      ∃ d, rleDecode dequantize7 1 ((bytes [0x64]).map unpack8) (RunDec.start .fu 0) = .ok d ∧
        3 * d.out.length ≤ (fuWith 3 [0x64] 1).params.fuMax ∧ d.out.length < 2 ^ 32) :=
  ⟨by decide, ⟨Memory.holds_ofList _ _, by decide⟩, ⟨Memory.holds_ofList _ _, _, rfl, by decide⟩,
    ⟨Memory.holds_ofList _ _, _, rfl, by decide, by decide⟩⟩

/-- RLE_DEC16: refused by its input; an odd length; MalformedRun; refused by its output; one pixel. -/
theorem witness_RleDec16Result :
    (fuWith 3 [] 4).params.fuMax < (fuWith 3 [] 4).fu.inLen.toNat ∧
    ((fuWith 3 [] 3).fu.inLen.toNat ≤ (fuWith 3 [] 3).params.fuMax ∧ (fuWith 3 [] 3).fu.inLen.toNat % 2 = 1) ∧
    (2 * [0x8003#16].length = (fuWith 3 [0x80, 0x03] 2).fu.inLen.toNat ∧
      Memory.Holds (fuWith 3 [0x80, 0x03] 2).fuIn 0 ([0x8003#16].flatMap be16) ∧
      rleDecode dequantize15 2 ([0x8003#16].map unpack16) (RunDec.start .fu 0) = .error 0) ∧
    (2 * [0x6586#16, 0x8001#16].length ≤ (fuWith 5 [0x65, 0x86, 0x80, 0x01] 4).params.fuMax ∧
      Memory.Holds (fuWith 5 [0x65, 0x86, 0x80, 0x01] 4).fuIn 0 ([0x6586#16, 0x8001#16].flatMap be16) ∧
      ∃ d, rleDecode dequantize15 2 ([0x6586#16, 0x8001#16].map unpack16) (RunDec.start .fu 0) = .ok d ∧
        (fuWith 5 [0x65, 0x86, 0x80, 0x01] 4).params.fuMax < 3 * d.out.length) ∧
    (Memory.Holds (fuWith 3 [0x65, 0x86] 2).fuIn 0 ([0x6586#16].flatMap be16) ∧
      ∃ d, rleDecode dequantize15 2 ([0x6586#16].map unpack16) (RunDec.start .fu 0) = .ok d ∧
        3 * d.out.length ≤ (fuWith 3 [0x65, 0x86] 2).params.fuMax) :=
  ⟨by decide, by decide, ⟨by decide, by unfold Memory.Holds; decide, by decide⟩,
    ⟨by decide, by unfold Memory.Holds; decide, _, rfl, by decide⟩, ⟨by unfold Memory.Holds; decide, _, rfl, by decide⟩⟩

theorem witness_WriteHeaderResult :
    start.enc.state = 0#2 ∧ (writing 1 1 []).enc.state ≠ 0#2 := by decide

theorem witness_ReadHeaderParses :
    (onStream header22).dec.state = 0#2 ∧
      StreamAt (onStream header22) 0 [(onStream header22).params.magic.b0, (onStream header22).params.magic.b1,
        (onStream header22).params.magic.b2, (onStream header22).params.magic.b3, 1#8, 0#8, 2#8, 0#8, 2#8, 1#8, 1#8,
        0#8, 0#8, 0#8, 3#8] :=
  ⟨by decide, by unfold Memory.Holds; decide, by decide⟩

/-- A state that is not Created; and the three other clauses at the ends of their ranges: 0 and 3 bytes; 4 bytes that differ; 4 and 14 bytes that start with
MAGIC. -/
theorem witness_ReadHeaderErrors :
    (reading []).dec.state ≠ 0#2 ∧
    ((onStream []).dec.state = 0#2 ∧ (onStream []).dlen < 4) ∧
    ((∀ a < (onStream [0x44, 0x55, 0x4D]).dlen,
        (Memory.read (onStream [0x44, 0x55, 0x4D]).dstream a).isSome = true) ∧ (onStream [0x44, 0x55, 0x4D]).dlen < 4) ∧
    (4 ≤ (onStream [0x44, 0x55, 0x4D, 0x42]).dlen ∧
      ¬ Memory.Holds (onStream [0x44, 0x55, 0x4D, 0x42]).dstream 0 [0x44#8, 0x55#8, 0x4D#8, 0x00#8]) ∧
    (4 ≤ (onStream [0x44, 0x55, 0x4D, 0x00]).dlen ∧
      Memory.Holds (onStream [0x44, 0x55, 0x4D, 0x00]).dstream 0 [0x44#8, 0x55#8, 0x4D#8, 0x00#8]) ∧
    ((onStream (header22.take 14)).dlen < 15 ∧
      Memory.Holds (onStream (header22.take 14)).dstream 0 [0x44#8, 0x55#8, 0x4D#8, 0x00#8] ∧
      (∀ a < (onStream (header22.take 14)).dlen,
        (Memory.read (onStream (header22.take 14)).dstream a).isSome = true)) := by
  unfold Memory.Holds; decide

theorem witness_HeaderRoundTrips :
    start.enc.state = 0#2 ∧ start.enc.cursor = 0#64 ∧ ∃ t, exec .writeHeader start = .next t ∧
      (onStream ([0x44, 0x55, 0x4D] ++ List.replicate 12 0)).params.magic = start.params.magic ∧
      (onStream ([0x44, 0x55, 0x4D] ++ List.replicate 12 0)).dec.state = 0#2 ∧
      15 ≤ (onStream ([0x44, 0x55, 0x4D] ++ List.replicate 12 0)).dlen ∧
      (∀ a < 15, Memory.read (onStream ([0x44, 0x55, 0x4D] ++ List.replicate 12 0)).dstream a =
        Memory.read t.enc.estream a) :=
  ⟨by decide, by decide, _, rfl, by decide, by decide, by decide, by decide⟩

/-- Above a full frame; a whole frame; a cut one with two bytes over (F3); a prefix that ends at DLEN. -/
theorem witness_RawRecordDelivers :
    (FrameReady (reading [1, 0, 0, 0, 13]) ∧ 3 * (reading [1, 0, 0, 0, 13]).dec.header.pixels < (13#32).toNat) ∧
    (FrameReady (reading recordF1) ∧ (12#32).toNat ≤ 3 * (reading recordF1).dec.header.pixels ∧
      (reading recordF1).dec.cursor.toNat + 5 ≤ (reading recordF1).dlen ∧
      Memory.Holds (reading recordF1).dstream ((reading recordF1).dec.cursor.toNat + 5)
        (pixelBytes [color 10 20 30, color 40 50 60, color 70 80 90, color 100 110 120] ++ []) ∧
      3 * 4 + 0 = min (12#32).toNat ((reading recordF1).dlen - ((reading recordF1).dec.cursor.toNat + 5))) ∧
    (FrameReady (reading [1, 0, 0, 0, 12, 1, 2, 3, 4, 5, 6, 7, 8]) ∧
      Memory.Holds (reading [1, 0, 0, 0, 12, 1, 2, 3, 4, 5, 6, 7, 8]).dstream (15 + 5)
        (pixelBytes [color 1 2 3, color 4 5 6] ++ [7#8, 8#8]) ∧
      3 * 2 + 2 = min (12#32).toNat ((reading [1, 0, 0, 0, 12, 1, 2, 3, 4, 5, 6, 7, 8]).dlen - (15 + 5))) ∧
    (FrameReady (reading [1, 0, 0, 0, 12]) ∧
      (reading [1, 0, 0, 0, 12]).dec.cursor.toNat + 5 = (reading [1, 0, 0, 0, 12]).dlen ∧
      Memory.Holds (reading [1, 0, 0, 0, 12]).dstream (15 + 5) (pixelBytes [] ++ []) ∧
      3 * 0 + 0 = min (12#32).toNat ((reading [1, 0, 0, 0, 12]).dlen - (15 + 5))) := by
  unfold Memory.Holds; decide

theorem witness_ReadFrameDeliversRawRecord :
    FrameReady (reading recordF1) ∧ (12#32).toNat = 3 * 4 ∧ 4 = (reading recordF1).dec.header.pixels ∧
      StreamAt (reading recordF1) (reading recordF1).dec.cursor.toNat
        (0x01#8 :: be32 12#32 ++ pixelBytes [color 10 20 30, color 40 50 60, color 70 80 90, color 100 110 120]) :=
  ⟨by decide, by decide, by decide, by unfold Memory.Holds; decide, by decide⟩

/-- Clauses 1 to 3 of the rule: size 0; the palette size past the end; a size that does not fit it. -/
theorem witness_ColorMappedRecordDelivers_sizes :
    FrameReady (reading [2, 0, 0, 0, 0]) ∧
    (8#32 ≠ 0#32 ∧ (reading [2, 0, 0, 0, 8]).dlen ≤ (reading [2, 0, 0, 0, 8]).dec.cursor.toNat + 5) ∧
    (StreamAt (reading [2, 0, 0, 0, 7, 1, 9, 9, 9, 0, 0, 0]) (15 + 5) [1#8] ∧
      (7#32).toNat ≠ 1 + 3 * (1#8).toNat + (reading [2, 0, 0, 0, 7, 1, 9, 9, 9, 0, 0, 0]).dec.header.pixels) := by
  unfold StreamAt Memory.Holds; decide

/-- The cut palette (F17), the cut index (F16), the bad index (F12), the frame (F10). -/
theorem witness_ColorMappedRecordDelivers_payloads :
    ((8#32).toNat = 1 + 3 * (1#8).toNat + (reading [2, 0, 0, 0, 8, 1, 9]).dec.header.pixels ∧
      StreamAt (reading [2, 0, 0, 0, 8, 1, 9]) (15 + 5) (1#8 :: pixelBytes []) ∧
      (reading [2, 0, 0, 0, 8, 1, 9]).dlen < 15 + 5 + 1 + 3 * 0 + 3) ∧
    (StreamAt (reading [2, 0, 0, 0, 8, 1, 9, 9, 9, 0, 0]) (15 + 5) (1#8 :: pixelBytes [color 9 9 9] ++ [0#8, 0#8]) ∧
      (reading [2, 0, 0, 0, 8, 1, 9, 9, 9, 0, 0]).dlen = 15 + 5 + 1 + 3 * 1 + 2) ∧
    (StreamAt (reading [2, 0, 0, 0, 8, 1, 9, 9, 9, 0, 0, 1, 0]) (15 + 5)
        (1#8 :: pixelBytes [color 9 9 9] ++ [0#8, 0#8]) ∧ 1 ≤ (1#8).toNat ∧
      StreamAt (reading [2, 0, 0, 0, 8, 1, 9, 9, 9, 0, 0, 1, 0]) (15 + 5 + 1 + 3 * 1 + 2) [1#8]) ∧
    ((∀ k ∈ bytes [0, 1, 1, 0], k.toNat < [color 255 0 0, color 0 0 255].length) ∧
      StreamAt (reading [2, 0, 0, 0, 11, 2, 255, 0, 0, 0, 0, 255, 0, 1, 1, 0]) (15 + 5)
        (2#8 :: pixelBytes [color 255 0 0, color 0 0 255] ++ bytes [0, 1, 1, 0]) ∧
      (bytes [0, 1, 1, 0]).map (fun k => [color 255 0 0, color 0 0 255][k.toNat]?) =
        [color 255 0 0, color 0 0 255, color 0 0 255, color 255 0 0].map some) := by
  unfold StreamAt Memory.Holds; decide

/-- F23, F24, F27, F25 and F20: MalformedRun, too many, cut, too few, exact. -/
theorem witness_Quantized8RecordDelivers :
    (StreamAt (reading [4, 0, 0, 0, 2, 0x83, 0x64]) (15 + 5) (bytes [0x83, 0x64]) ∧
      rleDecode dequantize7 1 ((bytes [0x83, 0x64]).map unpack8) (RunDec.start .dec 20) = .error 20) ∧
    (∃ d, rleDecode dequantize7 1 ((bytes [0x64, 0x84]).map unpack8) (RunDec.start .dec 20) = .ok d ∧
      4 < d.out.length) ∧
    (StreamAt (reading [4, 0, 0, 0, 2, 0x64]) (15 + 5) (bytes [0x64]) ∧
      (reading [4, 0, 0, 0, 2, 0x64]).dlen = 15 + 5 + (bytes [0x64]).length ∧
      ∃ d, rleDecode dequantize7 1 ((bytes [0x64]).map unpack8) (RunDec.start .dec 20) = .ok d ∧ d.out.length ≤ 4) ∧
    (∃ d, rleDecode dequantize7 1 ((bytes [0x64, 0x82]).map unpack8) (RunDec.start .dec 20) = .ok d ∧
      d.out.length < 4) ∧
    (FrameReady (reading [4, 0, 0, 0, 2, 0x64, 0x83]) ∧
      StreamAt (reading [4, 0, 0, 0, 2, 0x64, 0x83]) (15 + 5) (bytes [0x64, 0x83]) ∧
      ∃ d, rleDecode dequantize7 1 ((bytes [0x64, 0x83]).map unpack8) (RunDec.start .dec 20) = .ok d ∧
        d.out.length = (reading [4, 0, 0, 0, 2, 0x64, 0x83]).dec.header.pixels) :=
  ⟨⟨⟨by unfold Memory.Holds; decide, by decide⟩, by decide⟩, ⟨_, rfl, by decide⟩,
    ⟨⟨by unfold Memory.Holds; decide, by decide⟩, by decide, _, rfl, by decide⟩, ⟨_, rfl, by decide⟩,
    ⟨by decide, ⟨by unfold Memory.Holds; decide, by decide⟩, _, rfl, by decide⟩⟩

/-- F32, F33, too many, F34, too few, F31. -/
theorem witness_Quantized16RecordDelivers :
    (FrameReady (reading [3, 0, 0, 0, 3]) ∧ (3#32).toNat % 2 = 1) ∧
    (StreamAt (reading [3, 0, 0, 0, 4, 0x80, 0x03, 0x65, 0x86]) (15 + 5) ([0x8003#16, 0x6586#16].flatMap be16) ∧
      rleDecode dequantize15 2 ([0x8003#16, 0x6586#16].map unpack16) (RunDec.start .dec 20) = .error 20) ∧
    (∃ d, rleDecode dequantize15 2 ([0x6586#16, 0x8004#16].map unpack16) (RunDec.start .dec 20) = .ok d ∧
      4 < d.out.length) ∧
    (StreamAt (reading [3, 0, 0, 0, 4, 0x65, 0x86, 0x80]) (15 + 5) ([0x6586#16].flatMap be16) ∧
      2 * [0x6586#16].length < (4#32).toNat ∧ (reading [3, 0, 0, 0, 4, 0x65, 0x86, 0x80]).dlen < 15 + 5 + 2 * 1 + 2) ∧
    (∃ d, rleDecode dequantize15 2 ([0x6586#16].map unpack16) (RunDec.start .dec 20) = .ok d ∧ d.out.length < 4) ∧
    (StreamAt (reading [3, 0, 0, 0, 6, 0x65, 0x86, 0x80, 0, 0x80, 3]) (15 + 5)
        ([0x6586#16, 0x8000#16, 0x8003#16].flatMap be16) ∧
      ∃ d, rleDecode dequantize15 2 ([0x6586#16, 0x8000#16, 0x8003#16].map unpack16) (RunDec.start .dec 20) = .ok d ∧
        d.out.length = (reading [3, 0, 0, 0, 6, 0x65, 0x86, 0x80, 0, 0x80, 3]).dec.header.pixels) :=
  ⟨by decide, ⟨⟨by unfold Memory.Holds; decide, by decide⟩, by decide⟩, ⟨_, rfl, by decide⟩,
    ⟨⟨by unfold Memory.Holds; decide, by decide⟩, by decide, by decide⟩, ⟨_, rfl, by decide⟩,
    ⟨⟨by unfold Memory.Holds; decide, by decide⟩, _, rfl, by decide⟩⟩

theorem witness_RepeatedRecordDelivers :
    FrameReady (reading [5, 0, 0, 0, 0]) ∧ 1#32 ≠ 0#32 ∧ (reading [5, 0, 0, 0, 0]).dec.lastValid = false ∧
      ({ (reading [5, 0, 0, 0, 0]).dec with lastValid := true } : Decoder).lastValid = true := by decide

/-- `s` with another NPIX_MAX. -/
def withNpixMax (n : Nat) (s : State) : State := { s with params := { s.params with npixMax := n } }

theorem witness_FrameCommandStateCheck :
    start.dec.state ≠ 1#2 ∧
      ((withNpixMax 3 (reading [])).dec.state = 1#2 ∧
        (withNpixMax 3 (reading [])).params.npixMax < (withNpixMax 3 (reading [])).dec.header.pixels) := by decide

/-- DEC at record `idx`, with a progress, on two records of which the second has no assigned tag (K10). -/
def seekingBad (idx progress : Nat) : State :=
  { reading [5, 0, 0, 0, 0, 9, 0, 0, 0, 0] with dec := { (reading []).dec with
      frameIdx := BitVec.ofNat 64 idx, progress := BitVec.ofNat 32 progress } }

theorem seekingBad_record1 (idx progress : Nat) : RecordAt (seekingBad idx progress) 1 20 :=
  .next (ft := .repeated) (size := 0#32) .first
    (show PrefixAt (reading [5, 0, 0, 0, 0, 9, 0, 0, 0, 0]) 15 .repeated 0#32 from
      ⟨by unfold Memory.Holds; decide, by decide⟩)

/-- A SEEK forward (target 3 from index 0) and one back (target 2 from index 3) come to the second record; SKIP_FRAME and
READ_FRAME come to the record at D_CURSOR. -/
theorem witness_RecordFetchErrors_seek :
    ((seekingBad 0 0x80000000).dec.state = 1#2 ∧ ComesToFetch (seekingBad 0 0x80000000) .seek 20) ∧
    ((seekingBad 3 0x60000000).dec.state = 1#2 ∧ ComesToFetch (seekingBad 3 0x60000000) .seek 20) ∧
    StreamAt (reading [5, 0, 0, 0, 0, 9, 0, 0, 0, 0]) 20 [9#8, 0#8, 0#8, 0#8, 0#8] ∧
    ComesToFetch (reading []) .skipFrame 15 ∧ ComesToFetch (reading []) .readFrame 15 :=
  ⟨⟨by decide, .inr (.inr ⟨rfl, 1, seekingBad_record1 _ _, by decide, .inr ⟨by decide, .first⟩⟩)⟩,
    ⟨by decide, .inr (.inr ⟨rfl, 1, seekingBad_record1 _ _, by decide, .inl ⟨by decide, by decide⟩⟩)⟩,
    ⟨by unfold Memory.Holds; decide, by decide⟩, .inl ⟨rfl, by decide⟩, .inr (.inl ⟨rfl, by decide, by decide⟩)⟩

/-- No tag byte; a tag and no size field, at both ends; tags 0, 6 and 255. -/
theorem witness_RecordFetchErrors :
    ((reading []).dec.state = 1#2 ∧ (reading []).dec.header.pixels ≤ (reading []).params.npixMax ∧
      (reading []).dlen ≤ (reading []).dec.cursor.toNat) ∧
    (StreamAt (reading [7]) 15 [7#8] ∧ (reading [7]).dlen < 15 + 5) ∧
    (StreamAt (reading [1, 0, 0, 0]) 15 [1#8] ∧ (reading [1, 0, 0, 0]).dlen < 15 + 5) ∧
    (StreamAt (reading [0, 0, 0, 0, 0]) 15 [0#8, 0#8, 0#8, 0#8, 0#8] ∧ (0#8).toNat = 0) ∧
    (StreamAt (reading [6, 255, 255, 255, 255]) 15 [6#8, 255#8, 255#8, 255#8, 255#8] ∧ 5 < (6#8).toNat) ∧
    (StreamAt (reading [255, 0, 0, 0, 0]) 15 [255#8, 0#8, 0#8, 0#8, 0#8] ∧ 5 < (255#8).toNat) := by
  unfold StreamAt Memory.Holds; decide

theorem witness_SkipFrameMovesPastRecord :
    (reading [1, 0, 0, 0, 12]).dec.state = 1#2 ∧ PrefixAt (reading [1, 0, 0, 0, 12]) 15 .raw 12#32 :=
  ⟨by decide, by unfold Memory.Holds; decide, by decide⟩

/-- DEC at record `idx` of F1's stream and a REPEATED record, with a progress. -/
def seeking (idx cursor progress : Nat) : State :=
  { reading (recordF1 ++ [5, 0, 0, 0, 0]) with dec := { (reading (recordF1 ++ [5, 0, 0, 0, 0])).dec with
      frameIdx := BitVec.ofNat 64 idx, cursor := BitVec.ofNat 64 cursor, progress := BitVec.ofNat 32 progress } }

theorem seeking_record1 (idx cursor progress : Nat) : RecordAt (seeking idx cursor progress) 1 32 :=
  .next (ft := .raw) (size := 12#32) .first
    (show PrefixAt (reading (recordF1 ++ [5, 0, 0, 0, 0])) 15 .raw 12#32 from
      ⟨by unfold Memory.Holds; decide, by decide⟩)

theorem seeking_record2 (idx cursor progress : Nat) : RecordAt (seeking idx cursor progress) 2 37 :=
  .next (ft := .repeated) (size := 0#32) (seeking_record1 idx cursor progress)
    (show PrefixAt (reading (recordF1 ++ [5, 0, 0, 0, 0])) 32 .repeated 0#32 from
      ⟨by unfold Memory.Holds; decide, by decide⟩)

/-- Forward from record 0 to record 2, and back from record 1 to record 0. -/
theorem witness_SeekReachesTheTarget :
    ((seeking 0 15 0x60000000).dec.state = 1#2 ∧ (seeking 0 15 0x60000000).dec.headerSize = 15#64 ∧
      RecordAt (seeking 0 15 0x60000000) (seeking 0 15 0x60000000).dec.frameIdx.toNat
        (seeking 0 15 0x60000000).dec.cursor.toNat ∧
      RecordAt (seeking 0 15 0x60000000) ((seeking 0 15 0x60000000).dec.header.frameCount.toNat *
        (seeking 0 15 0x60000000).dec.progress.toNat / 2 ^ 31) 37) ∧
    (RecordAt (seeking 1 32 0) (seeking 1 32 0).dec.frameIdx.toNat (seeking 1 32 0).dec.cursor.toNat ∧
      RecordAt (seeking 1 32 0) ((seeking 1 32 0).dec.header.frameCount.toNat *
        (seeking 1 32 0).dec.progress.toNat / 2 ^ 31) 15) :=
  ⟨⟨by decide, by decide, .first, seeking_record2 0 15 0x60000000⟩, seeking_record1 1 32 0, .first⟩

theorem witness_StreamErrorIsPrecise :
    (reading []).dec.state ≠ 3#2 ∧ ∃ t, exec .readFrame (reading []) = .next t ∧ t.dec.state = 3#2 :=
  ⟨by decide, _, rfl, by decide⟩

/-- A state of DEC and one command to run in it. -/
def inState (d : BitVec 2) (code : BitVec 64) : State :=
  withMove (.writeReg 0 code) { start with dec := { Decoder.reset with state := d } }

theorem step_inState_closed_first : (nextState (step (inState 2#2 0x10#64))).isSome = true := by decide

theorem step_inState_faulted_last : (nextState (step (inState 3#2 0x14#64))).isSome = true := by decide

/-- Closed with the first and Faulted with the last of the DEC commands. -/
theorem witness_FaultedUntilReset :
    ((inState 2#2 0x10#64).dec.state = 2#2 ∧ (∃ t, step (inState 2#2 0x10#64) = .next t) ∧
      (inState 2#2 0x10#64).pending = .writeReg 0 0x10#64 :: [] ∧
      (0x10#64).toNat % 256 ≠ 0x01 ∧ (0x10#64).toNat % 256 ≠ 0x1F) ∧
    ((inState 3#2 0x14#64).dec.state = 3#2 ∧ (∃ t, step (inState 3#2 0x14#64) = .next t) ∧
      (inState 3#2 0x14#64).pending = .writeReg 0 0x14#64 :: [] ∧
      (0x14#64).toNat % 256 ≠ 0x01 ∧ (0x14#64).toNat % 256 ≠ 0x1F) :=
  ⟨⟨rfl, next_of_isSome step_inState_closed_first, rfl, by simp, by simp⟩,
    ⟨rfl, next_of_isSome step_inState_faulted_last, rfl, by simp, by simp⟩⟩

theorem witness_CloseCommands :
    (inState 2#2 0).dec.state = 2#2 ∧ (inState 3#2 0).dec.state = 3#2 ∧
      (start.dec.state ≠ 2#2 ∧ start.dec.state ≠ 3#2) ∧ start.enc.state ≠ 2#2 ∧
      ({ Encoder.reset with state := 2#2 } : Encoder).state = 2#2 := by decide

theorem witness_WriteFramePrechecks :
    start.enc.state ≠ 1#2 ∧
      ({ (writing 1 1 []).enc with quality := 3#2 } : Encoder).state = 1#2 ∧
      ({ (writing 1 1 []).enc with quality := 3#2 } : Encoder).quality = 3#2 := by decide

theorem witness_EqualFrameIsRepeated :
    ∃ s, WriteReady s [color 9 9 9] ∧ s.enc.prevValid = true ∧ s.enc.prevFrame = [color 9 9 9] :=
  ⟨{ writing 1 1 [color 9 9 9] with
      enc := { (writing 1 1 [color 9 9 9]).enc with prevValid := true, prevFrame := [color 9 9 9] } },
    ⟨by decide, by decide, by decide, by decide, Memory.holds_ofList _ _⟩, rfl, rfl⟩

/-- A frame of `n` pixels, all different up to 256. -/
def greys (n : Nat) : List Color := (List.range n).map fun k => color k 0 0

theorem greys_length (n : Nat) : (greys n).length = n := by simp [greys]

theorem greys_card {n : Nat} (h : n ≤ 256) : (greys n).toFinset.card = n := by
  rw [List.toFinset_card_of_nodup, greys_length]
  refine List.Nodup.map_on (fun a ha b hb hab => ?_) List.nodup_range
  rw [List.mem_range] at ha hb
  have := congrArg (fun c => c.r.toNat) hab
  simpa [color, Nat.mod_eq_of_lt (show a < 256 by omega), Nat.mod_eq_of_lt (show b < 256 by omega)] using this

/-- 255 colours, and 256 colours at each quality. -/
theorem witness_WriteFrameSelectsRecord :
    (WriteReady (writing 255 1 (greys 255)) (greys 255) ∧ ¬ ((writing 255 1 (greys 255)).enc.prevValid = true) ∧
      (greys 255).toFinset.card < 256) ∧
    ∀ q ∈ [0#2, 1#2, 2#2],
      WriteReady { writing 256 1 (greys 256) with enc := { (writing 256 1 (greys 256)).enc with quality := q } }
        (greys 256) ∧ 256 ≤ (greys 256).toFinset.card := by
  refine ⟨⟨⟨rfl, by decide, by decide, greys_length 255, Memory.holds_ofList _ _⟩, by decide, ?_⟩, fun q hq => ?_⟩
  · rw [greys_card (by omega)]; omega
  · refine ⟨⟨rfl, ?_, (show 256 * 1 ≤ 1000 by omega), greys_length 256, Memory.holds_ofList _ _⟩, ?_⟩
    · simp only [List.mem_cons, List.not_mem_nil, or_false] at hq
      rcases hq with rfl | rfl | rfl <;> decide
    · rw [greys_card (by omega)]

theorem witness_PayloadSizesFit :
    (greys 383).length ≤ 1431655765 ∧ 383 ≤ (greys 383).length := by
  rw [greys_length]; omega

/-- DEC in HeaderRead on a record that ENC selected. -/
def readingBack (q : BitVec 2) (px : List Color) : State :=
  { reading [] with
    dstream := Memory.ofList 15 (recordBytes (selectAndEncode q px Work.reset))
    dlen := 15 + (recordBytes (selectAndEncode q px Work.reset)).length
    dec := { (reading []).dec with header := ⟨1#8, BitVec.ofNat 16 px.length, 1#16, 1#8, 1#8, 3#32⟩ } }

/-- Every quality, for a frame of few colours and for one of 256. -/
theorem witness_WrittenRecordReadsBack (q : BitVec 2) :
    ∀ n ∈ [4, 256], FrameReady (readingBack q (greys n)) ∧
      (greys n).length = (readingBack q (greys n)).dec.header.pixels ∧ (greys n).length ≤ 1431655765 ∧
      StreamAt (readingBack q (greys n)) (readingBack q (greys n)).dec.cursor.toNat
        (recordBytes (selectAndEncode q (greys n) Work.reset)) := by
  intro n hn
  have hp : (readingBack q (greys n)).dec.header.pixels = n := by
    simp only [List.mem_cons, List.not_mem_nil, or_false] at hn
    rcases hn with rfl | rfl <;> simp [readingBack, greys, Header.pixels]
  refine ⟨⟨rfl, ?_⟩, ?_, ?_, Memory.holds_ofList _ _, Nat.le_refl _⟩
  · rw [hp]
    show n ≤ 1000
    simp only [List.mem_cons, List.not_mem_nil, or_false] at hn
    omega
  · rw [hp, greys_length]
  · rw [greys_length]; simp only [List.mem_cons, List.not_mem_nil, or_false] at hn; omega

theorem witness_WrittenBytesAreNeverRewritten :
    (∃ t, exec .writeFrame (writing 1 1 [color 9 9 9]) = .next t) ∧ 14 < (writing 1 1 [color 9 9 9]).enc.cursor.toNat :=
  ⟨next_of_isSome (by decide), by decide⟩

theorem witness_CursorIsStreamLength :
    (∃ t, exec .writeFrame (writing 1 1 [color 9 9 9]) = .next t) ∧
      (writing 1 1 [color 9 9 9]).params.npixMax ≤ 1431655765 ∧
      (writing 1 1 [color 9 9 9]).enc.cursor.toNat + 2 ^ 33 ≤ 2 ^ 64 ∧
      (∀ a, (Memory.read (writing 1 1 [color 9 9 9]).enc.estream a).isSome = true ↔
        a < (writing 1 1 [color 9 9 9]).enc.cursor.toNat) := by
  refine ⟨next_of_isSome (by decide), by decide, by decide, fun a => ?_⟩
  simp [writing, Memory.read_ofList, bytes, header22]

theorem witness_UnitsAreIsolated :
    (∃ t, exec .skipFrame (reading recordF1) = .next t) ∧ (∃ t, exec .writeHeader start = .next t) ∧
      ∃ t, exec .rleDec8 (fuInput [0x64] 1) = .next t :=
  ⟨next_of_isSome (by decide), next_of_isSome (by decide), next_of_isSome (by decide)⟩

theorem witness_OversizeFramesAreRefused :
    ((withNpixMax 3 (reading [])).dec.state = 1#2 ∧
      (withNpixMax 3 (reading [])).params.npixMax < (withNpixMax 3 (reading [])).dec.header.pixels) ∧
    ((withNpixMax 3 (writing 2 2 [])).enc.state = 1#2 ∧ (withNpixMax 3 (writing 2 2 [])).enc.quality ≠ 3#2 ∧
      (withNpixMax 3 (writing 2 2 [])).params.npixMax < (withNpixMax 3 (writing 2 2 [])).enc.header.pixels) := by decide

theorem witness_UnwrittenInputFaults :
    (writing 2 1 [color 9 9 9]).enc.state = 1#2 ∧ (writing 2 1 [color 9 9 9]).enc.quality ≠ 3#2 ∧
      (writing 2 1 [color 9 9 9]).enc.header.pixels ≤ (writing 2 1 [color 9 9 9]).params.npixMax ∧
      1 < (writing 2 1 [color 9 9 9]).enc.header.pixels ∧ Memory.read (writing 2 1 [color 9 9 9]).pixin 1 = none := by
  decide

/-- The last byte each RLE command reads is the one that is missing, at FU_MAX. -/
theorem witness_UnwrittenInputFaults_fuIn :
    (3 * (fuWith 3 [1, 2] 1).fu.inLen.toNat ≤ (fuWith 3 [1, 2] 1).params.fuMax ∧
      2 < 3 * (fuWith 3 [1, 2] 1).fu.inLen.toNat ∧ Memory.read (fuWith 3 [1, 2] 1).fuIn 2 = none) ∧
    ((fuWith 4 [1, 2, 3] 4).fu.inLen.toNat ≤ (fuWith 4 [1, 2, 3] 4).params.fuMax ∧
      (fuWith 4 [1, 2, 3] 4).fu.inLen.toNat % 2 = 0 ∧ 3 < (fuWith 4 [1, 2, 3] 4).fu.inLen.toNat ∧
      Memory.read (fuWith 4 [1, 2, 3] 4).fuIn 3 = none) := by decide

/-- A writable register, a header operand unlocked and locked, and the first and last numbers that are not writable. -/
theorem witness_HostWritesRegisters :
    ((withMove (.writeReg 0x32 0xFFFF#64) start).pending = .writeReg 0x32 0xFFFF#64 :: [] ∧ 0x32 ≠ 0 ∧
      (0x32, 15) ∈ [(0x1F, 32), (0x23, 2), (0x31, 24), (0x32, 15), (0x33, 32)]) ∧
    ((0x25, 16) ∈ [(0x24, 8), (0x25, 16), (0x26, 16), (0x27, 8), (0x28, 8), (0x29, 32)] ∧ start.enc.state = 0#2 ∧
      (writing 1 1 []).enc.state ≠ 0#2) ∧
    (∀ n ∈ [0x01, 0x34, 0x40], n ∉ [0x1F, 0x23, 0x24, 0x25, 0x26, 0x27, 0x28, 0x29, 0x31, 0x32, 0x33]) := by decide

/-- The first and last numbers of the map, and the numbers beside it. -/
theorem witness_HostReadsRegisters :
    (withMove (.readReg 0x34) start).pending = .readReg 0x34 :: [] ∧ (0x00, 0) ∈ registerMap start ∧
      (0x34, 0) ∈ registerMap start ∧ (∀ n ∈ [0x01, 0x35], n ∉ (registerMap start).map Prod.fst) := by decide

/-- A delivered cell, and the first and the last of the others. -/
theorem witness_HostReadsOutputCells_pixout :
    (∃ s : State, s.dec = Decoder.reset.delivered [color 1 2 3] false 3 ∧ 1 ≤ s.params.npixMax ∧
      s.params.npixMax < 2 ^ 32 ∧ s.pending = .readPixout 0 :: []) ∧
    [color 1 2 3][0]? = some (color 1 2 3) ∧ ([color 1 2 3].length ≤ 1 ∧ 999 < params.npixMax) :=
  ⟨⟨{ withMove (.readPixout 0) start with dec := Decoder.reset.delivered [color 1 2 3] false 3 }, rfl, by decide,
    by decide, rfl⟩, by decide, by decide⟩

/-- A FU_OUT byte, the first unspecified one, and the last cell; the last ESTREAM byte; and the first cell outside each
space. -/
theorem witness_HostReadsOutputCells_bytes :
    (∃ s : State, s.pending = .readFuOut 1 :: [] ∧ 1 < s.params.fuMax ∧ Memory.read s.fu.fuOut 1 = some 0xE3#8 ∧
      Memory.read s.fu.fuOut 2 = none ∧ 599 < s.params.fuMax ∧ Memory.read s.fu.fuOut 599 = none ∧
      s.params.fuMax ≤ 600 ∧ s.params.npixMax ≤ 1000) ∧
    ((withMove (.readEstream 14) (writing 1 1 [])).pending = .readEstream 14 :: [] ∧
      14 < (writing 1 1 []).enc.cursor.toNat ∧ Memory.read (writing 1 1 []).enc.estream 14 = some 3#8 ∧
      (writing 1 1 []).enc.cursor.toNat ≤ 15) :=
  ⟨⟨withMove (.readFuOut 1) { start with fu := { FuncUnit.reset with fuOut := Memory.ofList 0 (bytes [0x64, 0xE3]) } },
    by decide⟩, by decide⟩

theorem witness_HostWritesInputCells :
    ((withMove (.writePixin 999 (color 1 2 3)) start).pending = .writePixin 999 (color 1 2 3) :: [] ∧
      999 < start.params.npixMax) ∧
    ((withMove (.writeFuIn 599 7#8) start).pending = .writeFuIn 599 7#8 :: [] ∧ 599 < start.params.fuMax) := by decide

theorem witness_HostAttachesStream :
    (withMove (.attach [1#8]) start).pending = .attach [1#8] :: [] ∧ start.dec.state = 0#2 ∧
      [1#8].length < 2 ^ 63 ∧ (withMove (.attach [1#8]) (reading [])).dec.state ≠ 0#2 := by decide

/-- B2, B5 and B8: loads at the last offsets that fit, at odd alignments. -/
theorem witness_BytePrimitivesRoundTrip :
    StreamAt (onStream header22) 14 [3#8] ∧ StreamAt (onStream header22) 13 (be16 3#16) ∧
      StreamAt (onStream header22) 11 (be32 3#32) := by
  unfold StreamAt Memory.Holds; decide

/-- The invariant holds of a DEC in the middle of a stream, and a step goes on from it. -/
theorem witness_StepKeepsInvariant :
    (withMove (.writeReg 0 0x11#64) (reading recordF1)).Inv ∧
      ∃ t, step (withMove (.writeReg 0 0x11#64) (reading recordF1)) = .next t :=
  ⟨by constructor <;> decide, next_of_isSome (by decide)⟩

end Sys2Proof.Tests
end

section
/-! PROOFS. The scope of the block (00_scope.md): an instruction changes the state of one unit only, and a frame above
NPIX_MAX is refused. -/

namespace Sys2Proof.Machine

variable {s t : State} {i : Instr}

/-! ### What the instructions of one unit may change

Each predicate gives the whole next state, so that everything it does not name is unchanged by reading it. -/

/-- `t` is `s` but for DEC and the command-local registers. -/
def ChangesOnlyDec (s t : State) : Prop := ∃ d w, t = { s with dec := d, work := w }

/-- `t` is `s` but for ENC and the command-local registers. -/
def ChangesOnlyEnc (s t : State) : Prop := ∃ e w, t = { s with enc := e, work := w }

/-- `t` is `s` but for FU, the command-local registers and the count of draws (log 27). -/
def ChangesOnlyFu (s t : State) : Prop := ∃ f w n, t = { s with fu := f, work := w, draws := n }

theorem changesOnlyDec_precheckDec (k : ErrKind) : ChangesOnlyDec s (precheckDec k s) := ⟨_, _, rfl⟩

theorem changesOnlyDec_streamError (k : ErrKind) (o : Nat) : ChangesOnlyDec s (streamError k o s) := ⟨_, _, rfl⟩

theorem changesOnlyDec_moveCursor (c n : Nat) : ChangesOnlyDec s (moveCursor c n s) := ⟨_, _, rfl⟩

theorem changesOnlyDec_completeFrame (f : FrameRead) (a n : Nat) : ChangesOnlyDec s (completeFrame f a n s) :=
  ⟨_, _, rfl⟩

theorem changesOnlyEnc_precheckEnc (k : ErrKind) : ChangesOnlyEnc s (precheckEnc k s) := ⟨_, _, rfl⟩

theorem changesOnlyEnc_completeWrite (px : List Color) (f : FrameWrite) : ChangesOnlyEnc s (completeWrite px f s) :=
  ⟨_, _, rfl⟩

theorem changesOnlyFu_fuError (k : ErrKind) : ChangesOnlyFu s (fuError k s) := ⟨_, _, _, rfl⟩

theorem changesOnlyFu_storeFuOut (bytes : List Byte) (len : Nat) (w : Work) :
    ChangesOnlyFu s (storeFuOut bytes len w s) := ⟨_, _, _, rfl⟩

/-! ### DEC -/

/-- The instructions of the record space are the records of 30 R62. -/
theorem eq_record_of_space (hi : i.space = .frameRecord) : ∃ ft size, i = FrameType.record ft size := by
  cases i with
  | raw size => exact ⟨.raw, size, rfl⟩
  | colorMapped size => exact ⟨.colorMapped, size, rfl⟩
  | quantized16 size => exact ⟨.quantized16, size, rfl⟩
  | quantized8 size => exact ⟨.quantized8, size, rfl⟩
  | repeated size => exact ⟨.repeated, size, rfl⟩
  | _ => cases hi

theorem exec_record_changesOnlyDec (hi : i.space = .frameRecord) (h : exec i s = .next t) : ChangesOnlyDec s t := by
  obtain ⟨ft, size, rfl⟩ := eq_record_of_space hi
  rcases exec_record_eq_next h with ⟨-, rfl⟩ | ⟨-, f, -, rfl⟩ | ⟨-, k, o, -, rfl⟩
  · exact changesOnlyDec_precheckDec _
  · exact changesOnlyDec_completeFrame _ _ _
  · exact changesOnlyDec_streamError k o

theorem execReadHeader_changesOnlyDec (h : execReadHeader s = .next t) : ChangesOnlyDec s t := by
  rcases execReadHeader_eq_next h with ⟨-, rfl⟩ | ⟨-, k, o, -, rfl⟩ | ⟨-, hd, -, rfl⟩
  · exact changesOnlyDec_precheckDec _
  · exact changesOnlyDec_streamError k o
  · exact ⟨_, _, rfl⟩

theorem execReadFrame_changesOnlyDec (h : execReadFrame s = .next t) : ChangesOnlyDec s t := by
  rcases execReadFrame_eq_next h with
    ⟨-, rfl⟩ | ⟨-, k, o, -, rfl⟩ | ⟨-, ft, size, -, ⟨f, -, rfl⟩ | ⟨k, o, -, rfl⟩⟩
  · exact changesOnlyDec_precheckDec _
  · exact changesOnlyDec_streamError k o
  · exact changesOnlyDec_completeFrame _ _ _
  · exact changesOnlyDec_streamError k o

theorem execSkipFrame_changesOnlyDec (h : execSkipFrame s = .next t) : ChangesOnlyDec s t := by
  rcases execSkipFrame_eq_next h with ⟨-, rfl⟩ | ⟨-, b, k, o, -, rfl⟩ | ⟨-, ft, size, -, rfl⟩
  · exact changesOnlyDec_precheckDec _
  · exact changesOnlyDec_streamError k o
  · exact changesOnlyDec_moveCursor _ _

theorem execSeek_changesOnlyDec (h : execSeek s = .next t) : ChangesOnlyDec s t := by
  rcases execSeek_eq_next h with ⟨-, rfl⟩ | ⟨-, b, k, o, -, rfl⟩ | ⟨-, n, a, b, -, -, rfl⟩
  · exact changesOnlyDec_precheckDec _
  · exact changesOnlyDec_streamError k o
  · exact changesOnlyDec_moveCursor _ _

theorem execDclose_changesOnlyDec (h : execDclose s = .next t) : ChangesOnlyDec s t := by
  unfold execDclose at h
  split at h
  · cases h; exact changesOnlyDec_precheckDec _
  · cases h; exact ⟨_, _, rfl⟩

theorem exec_decCommand_changesOnlyDec
    (hi : i ∈ [Instr.readHeader, .readFrame, .skipFrame, .seek, .dclose, .dreset]) (h : exec i s = .next t) :
    ChangesOnlyDec s t := by
  simp only [List.mem_cons, List.not_mem_nil, or_false] at hi
  rcases hi with rfl | rfl | rfl | rfl | rfl | rfl
  · exact execReadHeader_changesOnlyDec h
  · exact execReadFrame_changesOnlyDec h
  · exact execSkipFrame_changesOnlyDec h
  · exact execSeek_changesOnlyDec h
  · exact execDclose_changesOnlyDec h
  · cases h; exact ⟨_, _, rfl⟩

/-! ### ENC -/

theorem execWriteHeader_changesOnlyEnc (h : execWriteHeader s = .next t) : ChangesOnlyEnc s t := by
  unfold execWriteHeader at h
  split at h
  · cases h; exact changesOnlyEnc_precheckEnc _
  · cases h; exact ⟨_, _, rfl⟩

theorem execWriteFrame_changesOnlyEnc (h : execWriteFrame s = .next t) : ChangesOnlyEnc s t := by
  rcases execWriteFrame_eq_next h with ⟨-, rfl⟩ | ⟨-, -, rfl⟩ | ⟨px, -, rfl⟩
  · exact changesOnlyEnc_precheckEnc _
  · exact changesOnlyEnc_precheckEnc _
  · exact changesOnlyEnc_completeWrite _ _

theorem execEclose_changesOnlyEnc (h : execEclose s = .next t) : ChangesOnlyEnc s t := by
  unfold execEclose at h
  split at h
  · cases h; exact changesOnlyEnc_precheckEnc _
  · cases h; exact ⟨_, _, rfl⟩

theorem exec_encCommand_changesOnlyEnc (hi : i ∈ [Instr.writeHeader, .writeFrame, .eclose, .ereset])
    (h : exec i s = .next t) : ChangesOnlyEnc s t := by
  simp only [List.mem_cons, List.not_mem_nil, or_false] at hi
  rcases hi with rfl | rfl | rfl | rfl
  · exact execWriteHeader_changesOnlyEnc h
  · exact execWriteFrame_changesOnlyEnc h
  · exact execEclose_changesOnlyEnc h
  · cases h; exact ⟨_, _, rfl⟩

/-! ### FU -/

theorem FuNext.changesOnlyFu (h : FuNext s t) : ChangesOnlyFu s t := by
  rcases h with ⟨_, _, _, _, -, -, rfl⟩ | ⟨k, -, rfl⟩
  · exact changesOnlyFu_storeFuOut _ _ _
  · exact changesOnlyFu_fuError k

theorem exec_fuCommand_changesOnlyFu
    (hi : i ∈ [Instr.quant7, .dequant7, .quant15, .dequant15, .rleEnc8, .rleDec8, .rleEnc16, .rleDec16])
    (h : exec i s = .next t) : ChangesOnlyFu s t := by
  simp only [List.mem_cons, List.not_mem_nil, or_false] at hi
  rcases hi with rfl | rfl | rfl | rfl | rfl | rfl | rfl | rfl
  · cases h; exact ⟨_, _, _, rfl⟩
  · cases h; exact ⟨_, _, _, rfl⟩
  · cases h; exact ⟨_, _, _, rfl⟩
  · cases h; exact ⟨_, _, _, rfl⟩
  · exact (execRleEnc8_eq_next h).changesOnlyFu
  · exact (execRleDec8_eq_next h).changesOnlyFu
  · exact (execRleEnc16_eq_next h).changesOnlyFu
  · exact (execRleDec16_eq_next h).changesOnlyFu

/-! ### Packed values -/

/-- A packed value works for the unit whose payload is decoded (42 R124, log 6). -/
theorem runPacked_changesOneUnit {n : Nat} {deq : BitVec n → Color} {width : Nat} {p : Packed n}
    (h : runPacked deq width p s = .next t) : ChangesOnlyDec s t ∨ ChangesOnlyFu s t := by
  rcases runPacked_eq_next h with ⟨d, -, rfl⟩ | ⟨-, rfl⟩
  · exact .inl ⟨_, _, rfl⟩
  · unfold malformedRun
    split
    · exact .inl (changesOnlyDec_streamError _ _)
    · exact .inr (changesOnlyFu_fuError _)

/-! ### Every instruction -/

/-- No instruction but RESET changes more than one unit. -/
theorem exec_changesOneUnit (hne : i ≠ .reset) (h : exec i s = .next t) :
    ChangesOnlyDec s t ∨ ChangesOnlyEnc s t ∨ ChangesOnlyFu s t := by
  cases i with
  | reset => exact absurd rfl hne
  | raw _ | colorMapped _ | quantized16 _ | quantized8 _ | repeated _ => exact .inl (exec_record_changesOnlyDec rfl h)
  | lit8 r g b => exact (runPacked_changesOneUnit (deq := dequantize7) (p := .lit (join7 r g b)) h).imp_right .inr
  | run8 c => exact (runPacked_changesOneUnit (deq := dequantize7) (p := .run c) h).imp_right .inr
  | lit16 r g b => exact (runPacked_changesOneUnit (deq := dequantize15) (p := .lit (join15 r g b)) h).imp_right .inr
  | run16 c => exact (runPacked_changesOneUnit (deq := dequantize15) (p := .run c) h).imp_right .inr
  | readHeader | readFrame | skipFrame | seek | dclose | dreset =>
    exact .inl (exec_decCommand_changesOnlyDec (by simp) h)
  | writeHeader | writeFrame | eclose | ereset => exact .inr (.inl (exec_encCommand_changesOnlyEnc (by simp) h))
  | quant7 | dequant7 | quant15 | dequant15 | rleEnc8 | rleDec8 | rleEnc16 | rleDec16 =>
    exact .inr (.inr (exec_fuCommand_changesOnlyFu (by simp) h))

/-- The host's input cells change by RESET alone (20 R40, log 12). -/
theorem exec_keeps_inputCells (hne : i ≠ .reset) (h : exec i s = .next t) : t.pixin = s.pixin ∧ t.fuIn = s.fuIn := by
  rcases exec_changesOneUnit hne h with ⟨_, _, rfl⟩ | ⟨_, _, rfl⟩ | ⟨_, _, _, rfl⟩
  · exact ⟨rfl, rfl⟩
  · exact ⟨rfl, rfl⟩
  · exact ⟨rfl, rfl⟩

/-- The parameters, the attached stream and the host's moves are no state of the block: RESET keeps them too. -/
theorem exec_keeps_environment (h : exec i s = .next t) :
    t.params = s.params ∧ t.dstream = s.dstream ∧ t.dlen = s.dlen ∧ t.pending = s.pending := by
  by_cases hi : i = .reset
  · subst hi; cases h; exact ⟨rfl, rfl, rfl, rfl⟩
  · rcases exec_changesOneUnit hi h with ⟨_, _, rfl⟩ | ⟨_, _, rfl⟩ | ⟨_, _, _, rfl⟩
    · exact ⟨rfl, rfl, rfl, rfl⟩
    · exact ⟨rfl, rfl, rfl, rfl⟩
    · exact ⟨rfl, rfl, rfl, rfl⟩

/-- Settles O50: the next state is the old one but for the instruction's own unit. -/
theorem unitsAreIsolated : Obligations.UnitsAreIsolated := by
  intro i s t h
  refine ⟨fun hi => ?_, fun hi => ?_, fun hi => ?_, fun hne => exec_keeps_inputCells hne h, exec_keeps_environment h⟩
  · obtain ⟨_, _, rfl⟩ : ChangesOnlyDec s t :=
      hi.elim (exec_record_changesOnlyDec · h) (exec_decCommand_changesOnlyDec · h)
    exact ⟨rfl, rfl⟩
  · obtain ⟨_, _, rfl⟩ := exec_encCommand_changesOnlyEnc hi h
    exact ⟨rfl, rfl⟩
  · obtain ⟨_, _, _, rfl⟩ := exec_fuCommand_changesOnlyFu hi h
    exact ⟨rfl, rfl⟩

/-! ### The refusal of a frame above NPIX_MAX -/

theorem whenFrameReady_of_oversize {k : Result} (hs : s.dec.state = 1#2)
    (hn : s.params.npixMax < s.dec.header.pixels) :
    whenFrameReady s k = .refused (.frameTooLarge s.dec.header.pixels) := by
  rw [whenFrameReady, whenHeaderRead_of_eq hs, if_pos hn]

theorem execWriteFrame_of_oversize (hs : s.enc.state = 1#2) (hq : s.enc.quality ≠ 3#2)
    (hn : s.params.npixMax < s.enc.header.pixels) :
    execWriteFrame s = .refused (.frameTooLarge s.enc.header.pixels) := by
  rw [execWriteFrame, if_neg (not_not.mpr hs), if_neg hq, if_pos hn]

/-- Settles O51: past its checks each frame command meets the refusal of 00 R3 before it looks at a byte or a pixel. -/
theorem oversizeFramesAreRefused : Obligations.OversizeFramesAreRefused :=
  fun _ => ⟨whenFrameReady_of_oversize, execWriteFrame_of_oversize⟩

end Sys2Proof.Machine
end

section
/-! PROOFS. The invariant (10_state.md sections 2 to 8): it is one predicate for each unit, each operation on a unit keeps
that unit's predicate, and every command and every host access is one of these operations. -/

namespace Sys2Proof.Machine

variable {s t : State} {N L F : Nat}

/-! ### The invariant, unit by unit

`State.Inv` is the conjunction of five predicates that share only the parameters and DLEN, so that a change of one unit is
checked against that unit's predicate alone. -/

/-- The part of the invariant about the parameters and the host's inputs. -/
structure InputsInv (p : Params) (dstream : Memory Byte) (dlen : Nat) (pixin : Memory Color) (fuIn : Memory Byte) :
    Prop where
  npix_pos : 1 ≤ p.npixMax
  npix_le : p.npixMax ≤ 1431655765
  fu_ge : 3 ≤ p.fuMax
  dlen_lt : dlen < 2 ^ 63
  dstream_wf : Memory.wf dstream = true
  dstream_full : ∀ a < dlen, (Memory.read dstream a).isSome = true
  pixin_wf : Memory.wf pixin = true
  pixin_range : ∀ x ∈ pixin, x.1 < p.npixMax
  fuIn_wf : Memory.wf fuIn = true
  fuIn_range : ∀ x ∈ fuIn, x.1 < p.fuMax

/-- The part of the invariant about DEC, for NPIX_MAX `N` and DLEN `L`. -/
structure Decoder.Inv (N L : Nat) (d : Decoder) : Prop where
  pixout_cells : d.pixout.map Prod.fst = List.range d.outCount.toNat
  pixout_size : d.outCount.toNat ≤ N
  last_size : d.lastFrame.length ≤ N
  last_none : d.lastValid = false → d.lastFrame = []
  err_code : d.err ∈ [0#8, 1#8, 2#8, 3#8, 4#8, 5#8, 6#8, 9#8, 10#8]
  created : d.state = 0#2 → d.cursor = 0#64 ∧ d.frameIdx = 0#64 ∧ d.lastValid = false ∧ d.header = Header.reset ∧
    d.headerSize = 0#64
  headerRead : d.state = 1#2 → d.headerSize = 15#64 ∧ d.fileSize = BitVec.ofNat 64 L ∧ 15 ≤ d.cursor.toNat

/-- The part of the invariant about ENC, for NPIX_MAX `N`. -/
structure Encoder.Inv (N : Nat) (e : Encoder) : Prop where
  estream_wf : Memory.wf e.estream = true
  prev_size : e.prevFrame.length ≤ N
  prev_none : e.prevValid = false → e.prevFrame = []
  prev_count : e.prevValid = true → e.prevFrame.length = e.header.pixels
  err_code : e.err ∈ [0#8, 3#8, 7#8]
  state_ne : e.state ≠ 3#2
  created : e.state = 0#2 → e.cursor = 0#64 ∧ e.frameIdx = 0#64 ∧ e.estream = [] ∧ e.prevValid = false

/-- The part of the invariant about FU, for FU_MAX `F`. -/
structure FuncUnit.Inv (F : Nat) (f : FuncUnit) : Prop where
  fuOut_wf : Memory.wf f.fuOut = true
  fuOut_range : ∀ x ∈ f.fuOut, x.1 < F
  err_code : f.err ∈ [0#8, 5#8, 9#8]

/-- The part of the invariant about the command-local registers. -/
structure Work.Inv (w : Work) : Prop where
  pal_size : w.pal.length ≤ 255
  run_size : w.runEnc.run ≤ 32767

theorem State.inv_iff :
    s.Inv ↔ InputsInv s.params s.dstream s.dlen s.pixin s.fuIn ∧ s.dec.Inv s.params.npixMax s.dlen ∧
      s.enc.Inv s.params.npixMax ∧ s.fu.Inv s.params.fuMax ∧ s.work.Inv := by
  constructor
  · intro h
    exact ⟨⟨h.npix_pos, h.npix_le, h.fu_ge, h.dlen_lt, h.dstream_wf, h.dstream_full, h.pixin_wf, h.pixin_range, h.fuIn_wf,
        h.fuIn_range⟩,
      ⟨h.pixout_cells, h.pixout_size, h.last_size, h.last_none, h.dec_err, h.dec_created, h.dec_header⟩,
      ⟨h.estream_wf, h.prev_size, h.prev_none, h.prev_count, h.enc_err, h.enc_state, h.enc_created⟩,
      ⟨h.fuOut_wf, h.fuOut_range, h.fu_err⟩, ⟨h.pal_size, h.run_size⟩⟩
  · rintro ⟨hi, hd, he, hf, hw⟩
    exact ⟨hi.npix_pos, hi.npix_le, hi.fu_ge, hi.dlen_lt, hi.dstream_wf, hi.dstream_full, hi.pixin_wf, hi.pixin_range,
      hi.fuIn_wf, hi.fuIn_range, hf.fuOut_wf, hf.fuOut_range, he.estream_wf, hd.pixout_cells, hd.pixout_size, hd.last_size,
      hd.last_none, he.prev_size, he.prev_none, he.prev_count, hd.err_code, he.err_code, hf.err_code, he.state_ne,
      hd.created, hd.headerRead, he.created, hw.pal_size, hw.run_size⟩

theorem State.Inv.inputs (h : s.Inv) : InputsInv s.params s.dstream s.dlen s.pixin s.fuIn := (State.inv_iff.mp h).1

theorem State.Inv.decoder (h : s.Inv) : s.dec.Inv s.params.npixMax s.dlen := (State.inv_iff.mp h).2.1

theorem State.Inv.encoder (h : s.Inv) : s.enc.Inv s.params.npixMax := (State.inv_iff.mp h).2.2.1

theorem State.Inv.funcUnit (h : s.Inv) : s.fu.Inv s.params.fuMax := (State.inv_iff.mp h).2.2.2.1

theorem State.Inv.registers (h : s.Inv) : s.work.Inv := (State.inv_iff.mp h).2.2.2.2

theorem State.Inv.withDec {d : Decoder} {w : Work} (h : s.Inv) (hd : d.Inv s.params.npixMax s.dlen) (hw : w.Inv) :
    State.Inv { s with dec := d, work := w } :=
  State.inv_iff.mpr ⟨h.inputs, hd, h.encoder, h.funcUnit, hw⟩

theorem State.Inv.withEnc {e : Encoder} {w : Work} (h : s.Inv) (he : e.Inv s.params.npixMax) (hw : w.Inv) :
    State.Inv { s with enc := e, work := w } :=
  State.inv_iff.mpr ⟨h.inputs, h.decoder, he, h.funcUnit, hw⟩

theorem State.Inv.withFu {f : FuncUnit} {w : Work} {n : Nat} (h : s.Inv) (hf : f.Inv s.params.fuMax) (hw : w.Inv) :
    State.Inv { s with fu := f, work := w, draws := n } :=
  State.inv_iff.mpr ⟨h.inputs, h.decoder, h.encoder, hf, hw⟩

/-- The host's list of moves, the value it read last and the count of draws are free. -/
theorem State.Inv.withHost {moves : List HostMove} {v : BitVec 64} {n : Nat} (h : s.Inv) :
    State.Inv { s with pending := moves, hostData := v, draws := n } :=
  State.inv_iff.mpr ⟨h.inputs, h.decoder, h.encoder, h.funcUnit, h.registers⟩

/-! ### Reset -/

theorem Decoder.inv_reset : Decoder.reset.Inv N L where
  pixout_cells := rfl
  pixout_size := Nat.zero_le _
  last_size := Nat.zero_le _
  last_none _ := rfl
  err_code := by decide
  created _ := ⟨rfl, rfl, rfl, rfl, rfl⟩
  headerRead h := absurd h (by decide)

theorem Encoder.inv_reset : Encoder.reset.Inv N where
  estream_wf := rfl
  prev_size := Nat.zero_le _
  prev_none _ := rfl
  prev_count h := absurd h (by decide)
  err_code := by decide
  state_ne := by decide
  created _ := ⟨rfl, rfl, rfl, rfl⟩

theorem FuncUnit.inv_reset : FuncUnit.reset.Inv F where
  fuOut_wf := rfl
  fuOut_range _ hx := absurd hx (by simp [FuncUnit.reset])
  err_code := by decide

theorem Work.inv_reset : Work.reset.Inv where
  pal_size := Nat.zero_le _
  run_size := Nat.zero_le _

theorem execReset_keeps_inv (hs : s.Inv) (h : execReset s = .next t) : t.Inv := by
  cases h
  have hi := hs.inputs
  exact State.inv_iff.mpr ⟨{ hi with
    pixin_wf := rfl, pixin_range := fun _ hx => absurd hx List.not_mem_nil
    fuIn_wf := rfl, fuIn_range := fun _ hx => absurd hx List.not_mem_nil },
    Decoder.inv_reset, Encoder.inv_reset, FuncUnit.inv_reset, Work.inv_reset⟩

/-! ### DEC -/

section decoder
variable {d : Decoder}

/-- Every error but UnsupportedQuality has a code that D_ERR may hold (60 R220, R223). -/
theorem ErrKind.code_mem_decCodes {k : ErrKind} (hk : k ≠ .unsupportedQuality) :
    k.code ∈ [0#8, 1#8, 2#8, 3#8, 4#8, 5#8, 6#8, 9#8, 10#8] := by
  cases k with
  | unsupportedQuality => exact absurd rfl hk
  | _ => decide

theorem Decoder.Inv.withErr {c : BitVec 8} (h : d.Inv N L) (hc : c ∈ [0#8, 1#8, 2#8, 3#8, 4#8, 5#8, 6#8, 9#8, 10#8]) :
    Decoder.Inv N L { d with err := c } :=
  { h with err_code := hc }

theorem Decoder.Inv.faulted {c : BitVec 8} {o : Nat} (h : d.Inv N L)
    (hc : c ∈ [0#8, 1#8, 2#8, 3#8, 4#8, 5#8, 6#8, 9#8, 10#8]) : (d.faulted c o).Inv N L where
  pixout_cells := rfl
  pixout_size := Nat.zero_le _
  last_size := h.last_size
  last_none := h.last_none
  err_code := hc
  created hs := absurd hs (by simp [Decoder.faulted])
  headerRead hs := absurd hs (by simp [Decoder.faulted])

/-- The cursor may move anywhere past the header in HeaderRead (10 R17). -/
theorem Decoder.Inv.withCursor {c i : BitVec 64} (h : d.Inv N L) (hs : d.state = 1#2) (hc : 15 ≤ c.toNat) :
    Decoder.Inv N L { d with cursor := c, frameIdx := i, err := 0#8 } where
  pixout_cells := h.pixout_cells
  pixout_size := h.pixout_size
  last_size := h.last_size
  last_none := h.last_none
  err_code := by simp
  created h0 := absurd (h0.symm.trans hs) (by decide)
  headerRead _ := ⟨(h.headerRead hs).1, (h.headerRead hs).2.1, hc⟩

/-- A delivered frame fits PIXOUT, and D_OUT_COUNT counts its cells (10 R19, R31). -/
theorem Decoder.Inv.delivered {frame : List Color} {short : Bool} {size : Nat} (h : d.Inv N L) (hs : d.state = 1#2)
    (hN : N < 2 ^ 32) (hf : frame.length ≤ N) (hc : d.cursor.toNat + 5 + size < 2 ^ 64) :
    (d.delivered frame short size).Inv N L := by
  obtain ⟨h1, h2, h3⟩ := h.headerRead hs
  have hlen : (BitVec.ofNat 32 frame.length).toNat = frame.length := by
    rw [BitVec.toNat_ofNat, Nat.mod_eq_of_lt (by omega)]
  refine ⟨?_, ?_, hf, fun hv => absurd hv (by simp [Decoder.delivered]), by simp [Decoder.delivered], fun h0 => ?_,
    fun _ => ⟨h1, h2, ?_⟩⟩
  · rw [Decoder.delivered, Memory.map_fst_ofList, hlen, List.range_eq_range']
  · exact hlen.trans_le hf
  · exact absurd (h0.symm.trans hs) (by decide)
  · rw [Decoder.delivered, BitVec.toNat_ofNat, Nat.mod_eq_of_lt hc]
    omega

end decoder

theorem precheckDec_keeps_inv (hs : s.Inv) : (precheckDec .protocolViolation s).Inv :=
  hs.withDec (hs.decoder.withErr (by decide)) hs.registers

theorem streamError_keeps_inv {k : ErrKind} {o : Nat} (hs : s.Inv) (hk : k ≠ .unsupportedQuality) :
    (streamError k o s).Inv :=
  hs.withDec (hs.decoder.faulted (ErrKind.code_mem_decCodes hk)) hs.registers

theorem moveCursor_keeps_inv {c i : Nat} (hs : s.Inv) (hst : s.dec.state = 1#2) (h1 : 15 ≤ c) (h2 : c < 2 ^ 64) :
    (moveCursor c i s).Inv :=
  hs.withDec (hs.decoder.withCursor hst (by rwa [BitVec.toNat_ofNat, Nat.mod_eq_of_lt h2])) hs.registers

/-- A frame that a read rule gave, from a record whose first five bytes are inside DSTREAM, keeps the invariant. -/
theorem completeFrame_keeps_inv {ft ft' : FrameType} {size : BitVec 32} {f : FrameRead} (hs : s.Inv) (hr : FrameReady s)
    (hp : PrefixAt s s.dec.cursor.toNat ft' size) (hf : readRule ft s size.toNat = .ok f) :
    (completeFrame f s.dec.cursor.toNat size.toNat s).Inv := by
  obtain ⟨hframe, hrun, hpal⟩ := readRule_eq_ok hf
  have hN := hs.npix_le
  have hlen : f.frame.length ≤ s.params.npixMax := by
    rcases hframe with h | ⟨-, h⟩
    · exact h.trans hr.2
    · exact h ▸ hs.last_size
  have hcur : s.dec.cursor.toNat + 5 + size.toNat < 2 ^ 64 := by
    have := hp.2
    have := hs.dlen_lt
    have := size.isLt
    simp only [List.length_cons, be32_length] at *
    omega
  refine hs.withDec (hs.decoder.delivered hr.1 (by omega) hlen hcur) ⟨?_, hrun ▸ hs.run_size⟩
  exact hpal.elim (fun h => h ▸ hs.pal_size) id

theorem readRule_raise_ne {ft : FrameType} {size : Nat} {k : ErrKind} {o : Nat}
    (h : readRule ft s size = .error (.raise k o)) : k ≠ .unsupportedQuality := by
  rintro rfl
  simpa using readRule_eq_raise h

theorem fetchRecord_raise_ne {a : Nat} {k : ErrKind} {o : Nat} (h : fetchRecord s a = .error (.raise k o)) :
    k ≠ .unsupportedQuality := by
  rintro rfl
  simpa using fetchRecord_eq_raise h

theorem execReadFrame_keeps_inv (hs : s.Inv) (h : execReadFrame s = .next t) : t.Inv := by
  rcases execReadFrame_eq_next h with
    ⟨-, rfl⟩ | ⟨-, k, o, he, rfl⟩ | ⟨hr, ft, size, hp, ⟨f, hf, rfl⟩ | ⟨k, o, he, rfl⟩⟩
  · exact precheckDec_keeps_inv hs
  · exact streamError_keeps_inv hs (fetchRecord_raise_ne he)
  · exact completeFrame_keeps_inv hs hr hp hf
  · exact streamError_keeps_inv hs (readRule_raise_ne he)

/-- A skip never goes back, and ends where it began or no further past DLEN than one record's size field reaches. -/
theorem skipRecords_eq_ok_bounds {n a b : Nat} (h : skipRecords s n a = .ok b) :
    a ≤ b ∧ (b = a ∨ b < s.dlen + 2 ^ 32) := by
  induction n generalizing a with
  | zero => cases h; exact ⟨le_refl _, .inl rfl⟩
  | succ n ih =>
    obtain ⟨ft, size, hp, h'⟩ := skipRecords_succ_ok.mp h
    have hle := hp.2
    have := size.isLt
    have := ih h'
    simp only [List.length_cons, be32_length] at hle
    omega

theorem execSkipFrame_keeps_inv (hs : s.Inv) (h : execSkipFrame s = .next t) : t.Inv := by
  rcases execSkipFrame_eq_next h with ⟨-, rfl⟩ | ⟨-, b, k, o, he, rfl⟩ | ⟨hst, ft, size, hp, rfl⟩
  · exact precheckDec_keeps_inv hs
  · exact streamError_keeps_inv hs (fetchRecord_raise_ne he)
  · have hb := skipRecords_eq_ok_bounds (skipRecords_succ_ok.mpr ⟨ft, size, hp, skipRecords_zero⟩)
    obtain ⟨-, -, hc⟩ := hs.dec_header hst
    have := hs.dlen_lt
    have := s.dec.cursor.isLt
    exact moveCursor_keeps_inv hs hst (by omega) (by omega)

theorem execSeek_keeps_inv (hs : s.Inv) (h : execSeek s = .next t) : t.Inv := by
  rcases execSeek_eq_next h with ⟨-, rfl⟩ | ⟨-, b, k, o, he, rfl⟩ | ⟨hst, n, a, b, ha, hb, rfl⟩
  · exact precheckDec_keeps_inv hs
  · exact streamError_keeps_inv hs (fetchRecord_raise_ne he)
  · obtain ⟨hsize, -, hc⟩ := hs.dec_header hst
    have hstart : 15 ≤ a ∧ a < 2 ^ 64 := by
      rcases ha with rfl | rfl
      · rw [hsize]; decide
      · exact ⟨hc, s.dec.cursor.isLt⟩
    have hbounds := skipRecords_eq_ok_bounds hb
    have := hs.dlen_lt
    exact moveCursor_keeps_inv hs hst (by omega) (by omega)

theorem execReadHeader_keeps_inv (hs : s.Inv) (h : execReadHeader s = .next t) : t.Inv := by
  rcases execReadHeader_eq_next h with ⟨-, rfl⟩ | ⟨-, k, o, he, rfl⟩ | ⟨-, hd, -, rfl⟩
  · exact precheckDec_keeps_inv hs
  · refine streamError_keeps_inv hs ?_
    rcases parseHeader_eq_raise he with rfl | rfl <;> decide
  · have hdec := hs.decoder
    refine hs.withDec { hdec with err_code := ?_, created := ?_, headerRead := ?_ } hs.registers
    · simp
    · exact fun h0 => absurd h0 (by simp)
    · exact fun _ => ⟨rfl, rfl, by simp⟩

theorem execDclose_keeps_inv (hs : s.Inv) (h : execDclose s = .next t) : t.Inv := by
  unfold execDclose at h
  split at h
  · cases h; exact precheckDec_keeps_inv hs
  · cases h
    have hdec := hs.decoder
    refine hs.withDec { hdec with err_code := ?_, created := ?_, headerRead := ?_ } hs.registers
    · simp
    · exact fun h0 => absurd h0 (by simp)
    · exact fun h1 => absurd h1 (by simp)

/-! ### ENC -/

section encoder
variable {e : Encoder}

theorem Encoder.Inv.withErr {c : BitVec 8} (h : e.Inv N) (hc : c ∈ [0#8, 3#8, 7#8]) :
    Encoder.Inv N { e with err := c } :=
  { h with err_code := hc }

/-- Bytes may be appended where ENC leaves Created (44 R170). -/
theorem Encoder.Inv.headerWritten (h : e.Inv N) (bytes : List Byte) :
    Encoder.Inv N { putBytes bytes e with state := 1#2, err := 0#8 } where
  estream_wf := Memory.wf_writeList _ _ h.estream_wf
  prev_size := h.prev_size
  prev_none := h.prev_none
  prev_count := h.prev_count
  err_code := by simp
  state_ne := by simp
  created h0 := absurd h0 (by simp)

/-- The frame that WRITE_FRAME remembers has the locked resolution (46 R202). -/
theorem Encoder.Inv.frameWritten {px : List Color} {i : BitVec 64} (h : e.Inv N) (f : FrameWrite) (hs : e.state = 1#2)
    (hl : px.length = e.header.pixels) (hN : px.length ≤ N) :
    (writtenFlags { emitRecord f e with prevFrame := px, frameIdx := i, err := 0#8 }).Inv N where
  estream_wf := Memory.wf_writeList _ _ h.estream_wf
  prev_size := hN
  prev_none hv := absurd hv (by simp [writtenFlags])
  prev_count _ := hl
  err_code := by simp [writtenFlags]
  state_ne := h.state_ne
  created h0 := absurd (hs.symm.trans h0) (by decide)

theorem Encoder.Inv.closed (h : e.Inv N) : Encoder.Inv N { e with state := 2#2, err := 0#8 } :=
  { h with err_code := by simp, state_ne := by simp, created := fun h0 => absurd h0 (by simp) }

end encoder

theorem precheckEnc_keeps_inv {k : ErrKind} (hs : s.Inv) (hk : k.code ∈ [0#8, 3#8, 7#8]) : (precheckEnc k s).Inv :=
  hs.withEnc (hs.encoder.withErr hk) hs.registers

/-- What WRITE_FRAME writes is one of the five records, COLOR_MAPPED only for fewer than 256 colours (46 R203). -/
theorem chooseRecord_cases (s : State) (px : List Color) :
    chooseRecord s px = repeatedWrite s.work ∨
    ((palette px).length ≤ 255 ∧ chooseRecord s px = cmapWrite px s.work) ∨
    chooseRecord s px = q8Write px s.work ∨ chooseRecord s px = q16Write px s.work ∨
    chooseRecord s px = rawWrite px s.work := by
  unfold chooseRecord selectAndEncode
  split_ifs with hrep hpal
  · exact .inl rfl
  · exact .inr (.inl ⟨by omega, rfl⟩)
  · exact .inr (.inr (.inl rfl))
  · exact .inr (.inr (.inr (.inl rfl)))
  · exact .inr (.inr (.inr (.inr rfl)))

theorem chooseRecord_work_inv (px : List Color) (h : s.work.Inv) : (chooseRecord s px).work.Inv := by
  rcases chooseRecord_cases s px with hc | ⟨hpal, hc⟩ | hc | hc | hc <;> rw [hc]
  · exact h
  · exact { h with pal_size := hpal }
  · have hrun := rleEncodeFrom_run_le (maxRun := maxRun8) (px.map quantize7) (e := RunEnc.start 7) (Nat.zero_le _)
    exact { h with run_size := hrun.trans (by decide) }
  · have hrun := rleEncodeFrom_run_le (maxRun := maxRun16) (px.map quantize15) (e := RunEnc.start 15) (Nat.zero_le _)
    exact { h with run_size := hrun }
  · exact h

theorem execWriteHeader_keeps_inv (hs : s.Inv) (h : execWriteHeader s = .next t) : t.Inv := by
  unfold execWriteHeader at h
  split at h
  · cases h; exact precheckEnc_keeps_inv hs (by decide)
  · cases h; exact hs.withEnc (hs.encoder.headerWritten _) hs.registers

theorem execWriteFrame_keeps_inv (hs : s.Inv) (h : execWriteFrame s = .next t) : t.Inv := by
  rcases execWriteFrame_eq_next h with ⟨-, rfl⟩ | ⟨-, -, rfl⟩ | ⟨px, ⟨hst, -, hN, hl, -⟩, rfl⟩
  · exact precheckEnc_keeps_inv hs (by decide)
  · exact precheckEnc_keeps_inv hs (by decide)
  · exact hs.withEnc (hs.encoder.frameWritten _ hst hl (hl.trans_le hN)) (chooseRecord_work_inv px hs.registers)

theorem execEclose_keeps_inv (hs : s.Inv) (h : execEclose s = .next t) : t.Inv := by
  unfold execEclose at h
  split at h
  · cases h; exact precheckEnc_keeps_inv hs (by decide)
  · cases h; exact hs.withEnc hs.encoder.closed hs.registers

/-! ### FU -/

/-- A quantizer command clears F_ERR and writes an operand register (41 R110 to R113). -/
theorem FuncUnit.Inv.withOperands {f : FuncUnit} {c : BitVec 24} {v : BitVec 15} (h : f.Inv F) :
    FuncUnit.Inv F { f with color := c, value := v, err := 0#8 } :=
  { h with err_code := by simp }

/-- The output of an RLE command fits FU_OUT, and an FU error has one of two codes. -/
theorem FuNext.keeps_inv (hs : s.Inv) (h : FuNext s t) : t.Inv := by
  rcases h with ⟨bytes, len, runEnc, runDec, hlen, hrun, rfl⟩ | ⟨k, hk, rfl⟩
  · refine hs.withFu ⟨Memory.wf_ofList _ _, fun x hx => ?_, by simp⟩ ⟨hs.pal_size, ?_⟩
    · have := (Memory.mem_ofList hx).2
      omega
    · exact hrun.elim (fun h => h.trans hs.run_size) id
  · refine hs.withFu ⟨rfl, fun _ hx => absurd hx List.not_mem_nil, ?_⟩ hs.registers
    rcases hk with rfl | rfl <;> simp [ErrKind.code]

/-! ### Every command -/

theorem execCommand_keeps_inv {i : Instr} (hi : i.space = .command) (hs : s.Inv) (h : exec i s = .next t) : t.Inv := by
  cases i with
  | raw _ | colorMapped _ | quantized16 _ | quantized8 _ | repeated _ => cases hi
  | lit8 _ _ _ | run8 _ | lit16 _ _ _ | run16 _ => cases hi
  | reset => exact execReset_keeps_inv hs h
  | readHeader => exact execReadHeader_keeps_inv hs h
  | readFrame => exact execReadFrame_keeps_inv hs h
  | skipFrame => exact execSkipFrame_keeps_inv hs h
  | seek => exact execSeek_keeps_inv hs h
  | dclose => exact execDclose_keeps_inv hs h
  | dreset => cases h; exact hs.withDec Decoder.inv_reset hs.registers
  | writeHeader => exact execWriteHeader_keeps_inv hs h
  | writeFrame => exact execWriteFrame_keeps_inv hs h
  | eclose => exact execEclose_keeps_inv hs h
  | ereset => cases h; exact hs.withEnc Encoder.inv_reset hs.registers
  | quant7 | dequant7 | quant15 | dequant15 => cases h; exact hs.withFu hs.funcUnit.withOperands hs.registers
  | rleEnc8 => exact (execRleEnc8_eq_next h).keeps_inv hs
  | rleDec8 => exact (execRleDec8_eq_next h).keeps_inv hs
  | rleEnc16 => exact (execRleEnc16_eq_next h).keeps_inv hs
  | rleDec16 => exact (execRleDec16_eq_next h).keeps_inv hs

/-! ### Every host access -/

/-- A write of a cell inside a space keeps every cell inside it. -/
theorem Memory.write_range {α : Type} {m : Memory α} {a n : Nat} {v : α} (ha : a < n) (h : ∀ x ∈ m, x.1 < n) :
    ∀ x ∈ Memory.write m a v, x.1 < n := by
  intro x hx
  rcases Memory.mem_write hx with rfl | hx
  · exact ha
  · exact h x hx

/-- The header operands are locked from the first header on, so a write of them meets no remembered frame (10 R25). -/
theorem writeRegister_keeps_inv (n : Nat) (v : BitVec 64) (hs : s.Inv) : (writeRegister s n v).Inv := by
  have hd := hs.decoder
  have he := hs.encoder
  have hf := hs.funcUnit
  rcases writeRegister_cases (s := s) n v with h | ⟨p, h⟩ | ⟨q, h⟩ | ⟨h0, hdr, h⟩ | ⟨c, w, l, h⟩ <;> rw [h]
  · exact hs
  · exact hs.withDec { hd with } hs.registers
  · exact hs.withEnc { he with } hs.registers
  · obtain ⟨-, -, -, hv⟩ := he.created h0
    exact hs.withEnc { he with prev_count := fun h1 => absurd (hv.symm.trans h1) (by decide) } hs.registers
  · exact hs.withFu { hf with } hs.registers

/-- A stream is attached in Created only, where D_FILE_SIZE holds nothing yet (10 R16, 70 R263). -/
theorem attach_keeps_inv {bytes : List Byte} (hs : s.Inv) (h0 : s.dec.state = 0#2) (hl : bytes.length < 2 ^ 63) :
    State.Inv { s with dstream := Memory.ofList 0 bytes, dlen := bytes.length } := by
  have hi := hs.inputs
  have hd := hs.decoder
  refine State.inv_iff.mpr ⟨{ hi with dlen_lt := hl, dstream_wf := Memory.wf_ofList _ _, dstream_full := fun a ha => ?_ },
    { hd with headerRead := fun h1 => absurd (h0.symm.trans h1) (by decide) }, hs.encoder, hs.funcUnit, hs.registers⟩
  rw [Memory.read_ofList, if_pos (Nat.zero_le _), Nat.sub_zero, List.getElem?_eq_getElem ha]
  rfl

theorem hostAccess_keeps_inv {m : HostMove} (hs : s.Inv) (h : hostAccess m s = .next t) : t.Inv := by
  have hi := hs.inputs
  rcases hostAccess_eq_next h with ⟨n, v, -, rfl⟩ | ⟨v, rfl⟩ | ⟨v, rfl⟩ | ⟨i, c, -, hlt, rfl⟩ | ⟨a, b, -, hlt, rfl⟩ |
    ⟨bytes, -, h0, hl, rfl⟩
  · exact writeRegister_keeps_inv n v hs
  · exact hs.withHost
  · exact hs.withHost
  · exact State.inv_iff.mpr ⟨{ hi with
      pixin_wf := Memory.wf_write _ _ hs.pixin_wf, pixin_range := Memory.write_range hlt hs.pixin_range },
      hs.decoder, hs.encoder, hs.funcUnit, hs.registers⟩
  · exact State.inv_iff.mpr ⟨{ hi with
      fuIn_wf := Memory.wf_write _ _ hs.fuIn_wf, fuIn_range := Memory.write_range hlt hs.fuIn_range },
      hs.decoder, hs.encoder, hs.funcUnit, hs.registers⟩
  · exact attach_keeps_inv hs h0 hl

/-- Settles O60: a step is idle, a command or an access between commands, and each keeps the invariant of the unit it
changes. -/
theorem stepKeepsInvariant : Obligations.StepKeepsInvariant := by
  intro s t hs h
  rcases step_eq_next h with ⟨-, rfl⟩ | ⟨v, rest, i, -, hd, he⟩ | ⟨m, rest, -, -, ha⟩
  · exact hs
  · exact execCommand_keeps_inv (decodeCommand_space hd) hs.withHost he
  · exact hostAccess_keeps_inv hs.withHost ha

end Sys2Proof.Machine
end

section
/-! PROOFS. ESTREAM ends at E_CURSOR (10 R26, 20 R43): an instruction leaves the stream, empties it, or appends to it. -/

namespace Sys2Proof.Machine

variable {s t : State} {i : Instr}

/-! ### Memories without holes -/

/-- The listed cells of `m` are exactly those below address `n`. -/
def Memory.EndsAt {α : Type} (m : Memory α) (n : Nat) : Prop := ∀ a, (Memory.read m a).isSome = true ↔ a < n

theorem Memory.endsAt_nil {α : Type} : Memory.EndsAt ([] : Memory α) 0 := by simp [Memory.EndsAt]

/-- A string written at the end moves the end past it. -/
theorem Memory.EndsAt.writeList {α : Type} {m : Memory α} {n : Nat} (h : Memory.EndsAt m n) (vs : List α) :
    Memory.EndsAt (Memory.writeList m n vs) (n + vs.length) := by
  intro a
  by_cases ha : n ≤ a ∧ a < n + vs.length
  · obtain ⟨k, rfl⟩ := Nat.exists_eq_add_of_le ha.1
    rw [Memory.read_writeList_inside _ _ _ _ (by omega), List.getElem?_eq_getElem (by omega)]
    exact iff_of_true rfl ha.2
  · rw [Memory.read_writeList_outside _ _ _ _ (by omega), h a]
    omega

/-! ### How much WRITE_FRAME appends -/

theorem recordBytes_length (f : FrameWrite) : (recordBytes f).length = f.payload.length + 5 := by
  simp only [recordBytes, List.length_cons, List.length_append, be32_length]
  omega

/-- No payload is longer than three bytes for each pixel and a full palette with its size byte (43 R141). -/
theorem chooseRecord_payload_length_le (s : State) (px : List Color) :
    (chooseRecord s px).payload.length ≤ 3 * px.length + 766 := by
  rcases chooseRecord_cases s px with hc | ⟨hpal, hc⟩ | hc | hc | hc <;> rw [hc]
  · exact Nat.zero_le _
  · simp only [cmapWrite, List.length_cons, List.length_append, pixelBytes_length, List.length_map]
    omega
  · have hl := rleEncodeFrom_length_le (maxRun := maxRun8) (px.map quantize7) (RunEnc.start 7)
    simp only [q8Write, bytesOf8_length, RunEnc.start, List.length_map] at hl ⊢
    omega
  · have hl := rleEncodeFrom_length_le (maxRun := maxRun16) (px.map quantize15) (RunEnc.start 15)
    simp only [q16Write, bytesOf16_length, RunEnc.start, List.length_map] at hl ⊢
    omega
  · rw [rawWrite, pixelBytes_length]
    omega

/-! ### ESTREAM after an instruction -/

/-- What an instruction does to ESTREAM and E_CURSOR: nothing, the reset of ENC, or one append of bounded size. -/
def StreamNext (s t : State) : Prop :=
  (t.enc.estream = s.enc.estream ∧ t.enc.cursor = s.enc.cursor) ∨ t.enc = Encoder.reset ∨
  ∃ bytes, bytes.length ≤ 3 * s.params.npixMax + 771 ∧ t.enc.estream = (putBytes bytes s.enc).estream ∧
    t.enc.cursor = (putBytes bytes s.enc).cursor

theorem streamNext_of_enc_eq (h : t.enc = s.enc) : StreamNext s t := .inl (h ▸ ⟨rfl, rfl⟩)

theorem execWriteHeader_streamNext (h : execWriteHeader s = .next t) : StreamNext s t := by
  unfold execWriteHeader at h
  split at h
  · cases h; exact .inl ⟨rfl, rfl⟩
  · cases h
    refine .inr (.inr ⟨headerBytes s.params.magic s.enc.header, ?_, rfl, rfl⟩)
    simp [headerBytes, Magic.bytes]

theorem execWriteFrame_streamNext (h : execWriteFrame s = .next t) : StreamNext s t := by
  rcases execWriteFrame_eq_next h with ⟨-, rfl⟩ | ⟨-, -, rfl⟩ | ⟨px, ⟨-, -, hN, hl, -⟩, rfl⟩
  · exact .inl ⟨rfl, rfl⟩
  · exact .inl ⟨rfl, rfl⟩
  · have := chooseRecord_payload_length_le s px
    exact .inr (.inr ⟨recordBytes (chooseRecord s px), by rw [recordBytes_length]; omega, rfl, rfl⟩)

theorem execEclose_streamNext (h : execEclose s = .next t) : StreamNext s t := by
  unfold execEclose at h
  split at h <;> cases h <;> exact .inl ⟨rfl, rfl⟩

theorem runPacked_keeps_enc {n : Nat} {deq : BitVec n → Color} {width : Nat} {p : Packed n}
    (h : runPacked deq width p s = .next t) : t.enc = s.enc := by
  rcases runPacked_changesOneUnit h with ⟨_, _, rfl⟩ | ⟨_, _, _, rfl⟩ <;> rfl

theorem exec_streamNext (h : exec i s = .next t) : StreamNext s t := by
  cases i with
  | raw _ | colorMapped _ | quantized16 _ | quantized8 _ | repeated _ =>
    obtain ⟨_, _, rfl⟩ := exec_record_changesOnlyDec rfl h
    exact streamNext_of_enc_eq rfl
  | lit8 r g b => exact streamNext_of_enc_eq (runPacked_keeps_enc (deq := dequantize7) (p := .lit (join7 r g b)) h)
  | run8 c => exact streamNext_of_enc_eq (runPacked_keeps_enc (deq := dequantize7) (p := .run c) h)
  | lit16 r g b => exact streamNext_of_enc_eq (runPacked_keeps_enc (deq := dequantize15) (p := .lit (join15 r g b)) h)
  | run16 c => exact streamNext_of_enc_eq (runPacked_keeps_enc (deq := dequantize15) (p := .run c) h)
  | readHeader | readFrame | skipFrame | seek | dclose | dreset =>
    obtain ⟨_, _, rfl⟩ := exec_decCommand_changesOnlyDec (by simp) h
    exact streamNext_of_enc_eq rfl
  | quant7 | dequant7 | quant15 | dequant15 | rleEnc8 | rleDec8 | rleEnc16 | rleDec16 =>
    obtain ⟨_, _, _, rfl⟩ := exec_fuCommand_changesOnlyFu (by simp) h
    exact streamNext_of_enc_eq rfl
  | writeHeader => exact execWriteHeader_streamNext h
  | writeFrame => exact execWriteFrame_streamNext h
  | eclose => exact execEclose_streamNext h
  | reset | ereset => cases h; exact .inr (.inl rfl)

/-- Settles O49: an append at the end of ESTREAM moves E_CURSOR to the new end, which 2^33 bytes of room keep inside the 64
bits. -/
theorem cursorIsStreamLength : Obligations.CursorIsStreamLength := by
  intro i s t h hN hroom hends
  change Memory.EndsAt t.enc.estream t.enc.cursor.toNat
  rcases exec_streamNext h with ⟨he, hc⟩ | he | ⟨bytes, hlen, he, hc⟩
  · rw [he, hc]
    exact hends
  · rw [he]
    exact Memory.endsAt_nil
  · rw [he, hc, putBytes_estream, putBytes_cursor, BitVec.toNat_ofNat, Nat.mod_eq_of_lt (by omega)]
    exact Memory.EndsAt.writeList hends bytes

end Sys2Proof.Machine
end

section
/-! PROOFS. The host's accesses between commands (10_state.md, 20_memory.md, 70 R271): what each reads or writes, and that it
touches nothing else. -/

namespace Sys2Proof.Machine

variable {s : State} {rest : List HostMove}

/-! ### The step that takes a host move -/

/-- A host move that is no command is an access on the state without the move. -/
theorem step_of_access {m : HostMove} (hp : s.pending = m :: rest) (hm : commandByte m = none) :
    step s = hostAccess m { s with pending := rest } := by
  rw [step, takeMove, hp]
  simp only [hm]

/-- A write to CMD runs the command that its low byte names (10 R11, log 15). -/
theorem step_of_command {v : BitVec 64} {i : Instr} (hp : s.pending = .writeReg 0 v :: rest)
    (hi : decodeCommand (v.setWidth 8) = .ok i) : step s = exec i { s with pending := rest } := by
  rw [step, takeMove, hp]
  simp only [commandByte, hi]

theorem decode_command_eq_ok {code : Byte} {i : Instr} {tail : List Byte} (h : decode .command [code] = .ok (i, tail)) :
    decodeCommand code = .ok i := by
  cases hc : decodeCommand code with
  | error e => simp [decode, hc, Except.map] at h
  | ok j =>
    simp only [decode, hc, Except.map, Except.ok.injEq, Prod.mk.injEq] at h
    rw [h.1]

/-- Settles O4: CMD's low byte is decoded as a command, and the step is that command's meaning. -/
theorem stepRunsTheDecodedCommand : Obligations.StepRunsTheDecodedCommand :=
  fun _ _ _ _ hp hd => step_of_command hp (decode_command_eq_ok hd)

/-! ### Output cells -/

/-- The value handed over for a Color is its 24-bit word (log 21). -/
theorem setWidth_wordOfColor (c : Color) :
    (wordOfColor c).setWidth 64 = BitVec.ofNat 64 (c.r.toNat * 65536 + c.g.toNat * 256 + c.b.toNat) := by
  rw [← wordOfColor_toNat, BitVec.ofNat_toNat]

/-- The cell of PIXOUT that the host sees: one below D_OUT_COUNT that a frame filled (10 R31). -/
def Decoder.outputCell (d : Decoder) (i : Nat) : Option Color :=
  if i < d.outCount.toNat then Memory.read d.pixout i else none

/-- The cells of a delivered frame are its Colors: D_OUT_COUNT hides none of them (10 R19, R31). -/
theorem outputCell_delivered {d : Decoder} {frame : List Color} {short : Bool} {size i : Nat}
    (hl : frame.length < 2 ^ 32) : (d.delivered frame short size).outputCell i = frame[i]? := by
  have hc : (BitVec.ofNat 32 frame.length).toNat = frame.length := by rw [BitVec.toNat_ofNat, Nat.mod_eq_of_lt hl]
  rw [Decoder.outputCell, Decoder.delivered, hc, Memory.read_ofList, if_pos (Nat.zero_le _), Nat.sub_zero]
  split_ifs with hi
  · rfl
  · rw [List.getElem?_eq_none (Nat.not_lt.mp hi)]

theorem step_readPixout_of_cell {i : Nat} {c : Color} (hp : s.pending = .readPixout i :: rest)
    (hi : i < s.params.npixMax) (hc : s.dec.outputCell i = some c) :
    step s = .next (give ((wordOfColor c).setWidth 64) { s with pending := rest }) := by
  rw [Decoder.outputCell] at hc
  rw [step_of_access hp rfl]
  simp only [hostAccess, hi, if_true, hc]

theorem step_readPixout_of_unspecified {i : Nat} (hp : s.pending = .readPixout i :: rest)
    (hi : i < s.params.npixMax) (hc : s.dec.outputCell i = none) :
    step s = .next (giveDraw (fun k => (Config.freePixel k).setWidth 64) { s with pending := rest }) := by
  rw [Decoder.outputCell] at hc
  rw [step_of_access hp rfl]
  simp only [hostAccess, hi, if_true, hc]

/-- Settles O55: in each output space the access hands over the cell where the space holds one, a draw where the cell is
unspecified, and faults outside the space. -/
theorem hostReadsOutputCells : Obligations.HostReadsOutputCells := by
  refine ⟨?_, ?_, ?_, ?_⟩
  · intro s d frame short size i rest hd hl hN hp
    have hcell : s.dec.outputCell i = frame[i]? := by
      rw [hd]
      exact outputCell_delivered (by omega)
    refine ⟨fun c hc => ?_, fun hi hlt => ?_⟩
    · have hi := (List.getElem?_eq_some_iff.mp hc).1
      rw [step_readPixout_of_cell hp (by omega) (hcell.trans hc), setWidth_wordOfColor, give]
    · exact ⟨_, step_readPixout_of_unspecified hp hlt (hcell.trans (List.getElem?_eq_none hi))⟩
  · intro s i rest hp hi
    rw [step_of_access hp rfl, hostAccess, if_neg (Nat.not_lt.mpr hi)]
  · intro s a rest hp
    rw [step_of_access hp rfl, hostAccess]
    refine ⟨fun b ha hb => ?_, fun ha hb => ?_, fun ha => if_neg (Nat.not_lt.mpr ha)⟩
    · simp only [ha, if_true, hb, give, BitVec.ofNat_toNat]
    · simp only [ha, if_true, hb]
      exact ⟨_, rfl⟩
  · intro s a rest hp
    rw [step_of_access hp rfl, hostAccess]
    refine ⟨fun b ha hb => ?_, fun ha => ?_⟩
    · simp only [ha, if_true, hb, give, BitVec.ofNat_toNat]
    · simp only [Nat.not_lt.mpr ha, if_false]

/-! ### Input cells -/

/-- Settles O56: the access is one `Memory.write` of the space. -/
theorem hostWritesInputCells : Obligations.HostWritesInputCells := by
  constructor
  · intro s i c rest hp hi
    refine ⟨{ s with pending := rest, pixin := Memory.write s.pixin i c }, ?_, Memory.read_write_self _ _ _,
      fun k hk => Memory.read_write_ne _ _ hk, rfl⟩
    rw [step_of_access hp rfl, hostAccess, if_pos hi]
  · intro s a b rest hp ha
    refine ⟨{ s with pending := rest, fuIn := Memory.write s.fuIn a b }, ?_, Memory.read_write_self _ _ _,
      fun k hk => Memory.read_write_ne _ _ hk, rfl⟩
    rw [step_of_access hp rfl, hostAccess, if_pos ha]

end Sys2Proof.Machine
end

section
/-! PROOFS. The register map as the host reads and writes it (10_state.md R10 to R29). -/

namespace Sys2Proof.Machine

variable {s : State} {rest : List HostMove}

/-! ### Reads -/

/-- D_FLAGS has SHORT in bit 0 and LAST_VALID in bit 1 (10 R14). -/
theorem dFlags_setWidth (d : Decoder) :
    (dFlags d).setWidth 64 = BitVec.ofNat 64 ((if d.short then 1 else 0) + (if d.lastValid then 2 else 0)) := by
  unfold dFlags
  cases d.short <;> cases d.lastValid <;> rfl

/-- E_FLAGS has PREV_VALID in bit 0 (10 R23). -/
theorem eFlags_setWidth (e : Encoder) : (eFlags e).setWidth 64 = BitVec.ofNat 64 (if e.prevValid then 1 else 0) := by
  unfold eFlags
  cases e.prevValid <;> rfl

/-- Every entry of the register map is what a read of its number gives. -/
theorem readRegister_of_mem {n v : Nat} (h : (n, v) ∈ registerMap s) : readRegister s n = some (BitVec.ofNat 64 v) := by
  have hall : ∀ x ∈ registerMap s, readRegister s x.1 = some (BitVec.ofNat 64 x.2) := by
    simp [registerMap, readRegister, dFlags_setWidth, eFlags_setWidth]
  exact hall (n, v) h

/-- A read of any other number gives nothing. -/
theorem readRegister_of_notMem {n : Nat} (h : n ∉ (registerMap s).map Prod.fst) : readRegister s n = none := by
  unfold readRegister
  split <;> simp [registerMap] at h ⊢

theorem step_readReg_of_some {n : Nat} {v : BitVec 64} (hp : s.pending = .readReg n :: rest)
    (hv : readRegister s n = some v) : step s = .next { s with pending := rest, hostData := v } := by
  have hv' : readRegister { s with pending := rest } n = some v := hv
  rw [step_of_access hp rfl]
  simp only [hostAccess, hv', give]

theorem step_readReg_of_none {n : Nat} (hp : s.pending = .readReg n :: rest) (hv : readRegister s n = none) :
    step s = .refused (.unmappedRegister n) := by
  have hv' : readRegister { s with pending := rest } n = none := hv
  rw [step_of_access hp rfl]
  simp only [hostAccess, hv']

/-- Settles O54: a read hands over what `readRegister` gives, which is the register map's entry and nothing outside it. -/
theorem hostReadsRegisters : Obligations.HostReadsRegisters :=
  fun _ _ _ hp => ⟨fun _ hv => step_readReg_of_some hp (readRegister_of_mem hv),
    fun hn => step_readReg_of_none hp (readRegister_of_notMem hn), fun _ _ => readRegister_of_mem,
    fun _ => readRegister_of_notMem⟩

/-! ### Writes

A write is seen through the register map: the map after it is the map before it with one entry set, whatever the width and
the unit of the register. -/

/-- The entries of `l` with the value of number `n` set to `x`. -/
def setEntry (n x : Nat) (l : List (Nat × Nat)) : List (Nat × Nat) := l.map fun e => if e.1 = n then (n, x) else e

theorem map_fst_setEntry (n x : Nat) (l : List (Nat × Nat)) : (setEntry n x l).map Prod.fst = l.map Prod.fst := by
  rw [setEntry, List.map_map]
  refine List.map_congr_left fun e _ => ?_
  by_cases he : e.1 = n
  · simp [he]
  · simp [he]

theorem mem_setEntry_self {n : Nat} (x : Nat) {l : List (Nat × Nat)} (h : n ∈ l.map Prod.fst) :
    (n, x) ∈ setEntry n x l := by
  obtain ⟨e, he, rfl⟩ := List.mem_map.mp h
  exact List.mem_map.mpr ⟨e, he, if_pos rfl⟩

theorem mem_setEntry_of_ne {n m y : Nat} (x : Nat) {l : List (Nat × Nat)} (hm : m ≠ n) (h : (m, y) ∈ l) :
    (m, y) ∈ setEntry n x l :=
  List.mem_map.mpr ⟨(m, y), h, if_neg hm⟩

section setEntry
variable {t : State} {n x : Nat}

theorem readRegister_of_setEntry_ne (h : registerMap t = setEntry n x (registerMap s)) {m : Nat} (hm : m ≠ n) :
    readRegister t m = readRegister s m := by
  by_cases hmem : m ∈ (registerMap s).map Prod.fst
  · obtain ⟨⟨_, y⟩, he, rfl⟩ := List.mem_map.mp hmem
    rw [readRegister_of_mem he, readRegister_of_mem (h ▸ mem_setEntry_of_ne x hm he)]
  · rw [readRegister_of_notMem hmem, readRegister_of_notMem]
    rwa [h, map_fst_setEntry]

theorem readRegister_of_setEntry_self (h : registerMap t = setEntry n x (registerMap s))
    (hn : n ∈ (registerMap s).map Prod.fst) : readRegister t n = some (BitVec.ofNat 64 x) :=
  readRegister_of_mem (h ▸ mem_setEntry_self x hn)

end setEntry

/-- The registers the host may write in every state, with their widths (10 R20, R24, R28, R29). -/
def freeOperands : List (Nat × Nat) := [(0x1F, 32), (0x23, 2), (0x31, 24), (0x32, 15), (0x33, 32)]

/-- The header operands of ENC, with their widths, which the host may write in Created only (10 R25). -/
def headerOperands : List (Nat × Nat) := [(0x24, 8), (0x25, 16), (0x26, 16), (0x27, 8), (0x28, 8), (0x29, 32)]

theorem operands_mapped {n w : Nat} (h : (n, w) ∈ freeOperands ++ headerOperands) : n ∈ (registerMap s).map Prod.fst := by
  have hall : ∀ x ∈ freeOperands ++ headerOperands, x.1 ∈ (registerMap s).map Prod.fst := by
    simp [freeOperands, headerOperands, registerMap]
  exact hall (n, w) h

/-- A write of a header operand is the whole state with the locked header (10 R25). -/
theorem writeEncHeader_eq (h : Header) :
    writeEncHeader s h = { s with enc := { s.enc with header := lockedHeader s.enc h } } := by
  unfold writeEncHeader lockedHeader
  split <;> rfl

theorem registerMap_writeRegister_free {n w : Nat} (v : BitVec 64) (h : (n, w) ∈ freeOperands) :
    registerMap (writeRegister s n v) = setEntry n (v.toNat % 2 ^ w) (registerMap s) := by
  simp only [freeOperands, List.mem_cons, Prod.mk.injEq, List.not_mem_nil, or_false] at h
  rcases h with ⟨rfl, rfl⟩ | ⟨rfl, rfl⟩ | ⟨rfl, rfl⟩ | ⟨rfl, rfl⟩ | ⟨rfl, rfl⟩ <;>
    simp [writeRegister, registerMap, setEntry]

theorem registerMap_writeRegister_header {n w : Nat} (v : BitVec 64) (h0 : s.enc.state = 0#2)
    (h : (n, w) ∈ headerOperands) :
    registerMap (writeRegister s n v) = setEntry n (v.toNat % 2 ^ w) (registerMap s) := by
  simp only [headerOperands, List.mem_cons, Prod.mk.injEq, List.not_mem_nil, or_false] at h
  rcases h with ⟨rfl, rfl⟩ | ⟨rfl, rfl⟩ | ⟨rfl, rfl⟩ | ⟨rfl, rfl⟩ | ⟨rfl, rfl⟩ | ⟨rfl, rfl⟩ <;>
    simp [writeRegister, writeEncHeader_eq, lockedHeader, h0, registerMap, setEntry]

theorem writeRegister_of_locked {n w : Nat} (v : BitVec 64) (h0 : s.enc.state ≠ 0#2) (h : (n, w) ∈ headerOperands) :
    writeRegister s n v = s := by
  simp only [headerOperands, List.mem_cons, Prod.mk.injEq, List.not_mem_nil, or_false] at h
  rcases h with ⟨rfl, -⟩ | ⟨rfl, -⟩ | ⟨rfl, -⟩ | ⟨rfl, -⟩ | ⟨rfl, -⟩ | ⟨rfl, -⟩ <;> exact if_neg h0

theorem writeRegister_of_notWritable {n : Nat} (v : BitVec 64)
    (h : n ∉ [0x1F, 0x23, 0x24, 0x25, 0x26, 0x27, 0x28, 0x29, 0x31, 0x32, 0x33]) : writeRegister s n v = s := by
  unfold writeRegister
  split <;> simp at h ⊢

/-- The frame of a register write. -/
theorem readRegister_writeRegister_ne {n m : Nat} (v : BitVec 64) (hm : m ≠ n) :
    readRegister (writeRegister s n v) m = readRegister s m := by
  by_cases hw : n ∈ (freeOperands ++ headerOperands).map Prod.fst
  · obtain ⟨⟨_, w⟩, he, rfl⟩ := List.mem_map.mp hw
    rcases List.mem_append.mp he with he | he
    · exact readRegister_of_setEntry_ne (registerMap_writeRegister_free v he) hm
    · by_cases h0 : s.enc.state = 0#2
      · exact readRegister_of_setEntry_ne (registerMap_writeRegister_header v h0 he) hm
      · rw [writeRegister_of_locked v h0 he]
  · rw [writeRegister_of_notWritable v fun h => hw (by
      simpa [freeOperands, headerOperands, or_comm, or_left_comm, or_assoc] using h)]

theorem readRegister_writeRegister_free {n w : Nat} (v : BitVec 64) (h : (n, w) ∈ freeOperands) :
    readRegister (writeRegister s n v) n = some (BitVec.ofNat 64 (v.toNat % 2 ^ w)) :=
  readRegister_of_setEntry_self (registerMap_writeRegister_free v h) (operands_mapped (List.mem_append_left _ h))

theorem readRegister_writeRegister_header {n w : Nat} (v : BitVec 64) (h : (n, w) ∈ headerOperands) :
    readRegister (writeRegister s n v) n =
      if s.enc.state = 0#2 then some (BitVec.ofNat 64 (v.toNat % 2 ^ w)) else readRegister s n := by
  split_ifs with h0
  · exact readRegister_of_setEntry_self (registerMap_writeRegister_header v h0 h)
      (operands_mapped (List.mem_append_right _ h))
  · rw [writeRegister_of_locked v h0 h]

theorem step_writeReg {n : Nat} {v : BitVec 64} (hn : n ≠ 0) (hp : s.pending = .writeReg n v :: rest) :
    step s = .next (writeRegister { s with pending := rest } n v) := by
  refine step_of_access hp ?_
  unfold commandByte
  split
  · rename_i heq
    cases heq
    exact absurd rfl hn
  · rfl

/-- Settles O53: the step is `writeRegister`, one update for each writable number; what a read of any number gives after it
follows from the register map with one entry set. -/
theorem hostWritesRegisters : Obligations.HostWritesRegisters := by
  intro s n v rest hn hp
  refine ⟨_, step_writeReg hn hp, ?_, ?_, ?_, ?_, ?_, ?_, ?_, ?_, ?_, ?_, ?_,
    writeRegister_of_notWritable v, fun m hm => readRegister_writeRegister_ne v hm,
    fun w hw => readRegister_writeRegister_free v hw, fun w hw => readRegister_writeRegister_header v hw⟩ <;>
    rintro rfl <;> simp only [writeRegister, writeEncHeader_eq, BitVec.ofNat_toNat]

end Sys2Proof.Machine
end

section
/-! PROOFS. The two streams of the memory (20_memory.md section 2): ESTREAM only grows by appending, and DSTREAM is the
string the host attached. -/

namespace Sys2Proof.Machine

variable {s t : State} {i : Instr}

/-! ### ESTREAM below E_CURSOR -/

/-- ESTREAM of `t` is ESTREAM of `s` with a string, which may be empty, stored from E_CURSOR on (20 R43). -/
def StreamAppends (s t : State) : Prop := ∃ bytes, t.enc.estream = (putBytes bytes s.enc).estream

theorem streamAppends_of_estream_eq (h : t.enc.estream = s.enc.estream) : StreamAppends s t := ⟨[], h⟩

theorem streamAppends_of_enc_eq (h : t.enc = s.enc) : StreamAppends s t :=
  streamAppends_of_estream_eq (congrArg Encoder.estream h)

/-- A store begins at E_CURSOR, whatever follows it, so it reaches no byte below. -/
theorem StreamAppends.read_below (h : StreamAppends s t) {a : Nat} (ha : a < s.enc.cursor.toNat) :
    Memory.read t.enc.estream a = Memory.read s.enc.estream a := by
  obtain ⟨bytes, he⟩ := h
  rw [he, putBytes_estream, Memory.read_writeList_outside _ _ _ _ (.inl ha)]

theorem execWriteHeader_streamAppends (h : execWriteHeader s = .next t) : StreamAppends s t := by
  unfold execWriteHeader at h
  split at h
  · cases h; exact streamAppends_of_estream_eq rfl
  · cases h; exact ⟨headerBytes s.params.magic s.enc.header, rfl⟩

theorem execWriteFrame_streamAppends (h : execWriteFrame s = .next t) : StreamAppends s t := by
  rcases execWriteFrame_eq_next h with ⟨-, rfl⟩ | ⟨-, -, rfl⟩ | ⟨px, -, rfl⟩
  · exact streamAppends_of_estream_eq rfl
  · exact streamAppends_of_estream_eq rfl
  · exact ⟨recordBytes (chooseRecord s px), rfl⟩

theorem execEclose_streamAppends (h : execEclose s = .next t) : StreamAppends s t := by
  unfold execEclose at h
  split at h
  · cases h; exact streamAppends_of_estream_eq rfl
  · cases h; exact streamAppends_of_estream_eq rfl

/-- The resets of ENC aside, an instruction appends to ESTREAM or is none of ENC's and leaves it alone. -/
theorem exec_streamAppends (hreset : i ≠ .reset) (hereset : i ≠ .ereset) (h : exec i s = .next t) :
    StreamAppends s t := by
  obtain ⟨hdec, -, hfu, -⟩ := unitsAreIsolated i s t h
  cases i with
  | reset => exact absurd rfl hreset
  | ereset => exact absurd rfl hereset
  | writeHeader => exact execWriteHeader_streamAppends h
  | writeFrame => exact execWriteFrame_streamAppends h
  | eclose => exact execEclose_streamAppends h
  | raw _ | colorMapped _ | quantized16 _ | quantized8 _ | repeated _ =>
    exact streamAppends_of_enc_eq (hdec (.inl rfl)).1
  | readHeader | readFrame | skipFrame | seek | dclose | dreset =>
    exact streamAppends_of_enc_eq (hdec (.inr (by simp))).1
  | quant7 | dequant7 | quant15 | dequant15 | rleEnc8 | rleDec8 | rleEnc16 | rleDec16 =>
    exact streamAppends_of_enc_eq (hfu (by simp)).2
  | lit8 r g b => exact streamAppends_of_enc_eq (runPacked_keeps_enc (deq := dequantize7) (p := .lit (join7 r g b)) h)
  | run8 c => exact streamAppends_of_enc_eq (runPacked_keeps_enc (deq := dequantize7) (p := .run c) h)
  | lit16 r g b => exact streamAppends_of_enc_eq (runPacked_keeps_enc (deq := dequantize15) (p := .lit (join15 r g b)) h)
  | run16 c => exact streamAppends_of_enc_eq (runPacked_keeps_enc (deq := dequantize15) (p := .run c) h)

/-- Settles O48: every instruction but the two resets appends at E_CURSOR, and an append keeps the bytes below. -/
theorem writtenBytesAreNeverRewritten : Obligations.WrittenBytesAreNeverRewritten :=
  fun _ _ _ h hreset hereset _ ha => (exec_streamAppends hreset hereset h).read_below ha

/-! ### DSTREAM as the host attaches it -/

/-- The memory of a string placed at offset 0 is the string itself, cell by cell. -/
theorem Memory.read_ofList_zero {α : Type} (vs : List α) (a : Nat) :
    Memory.read (Memory.ofList 0 vs) a = vs[a]? := by
  rw [Memory.read_ofList, if_pos (Nat.zero_le a), Nat.sub_zero]

/-- Settles O57: in Created the access replaces DSTREAM by the memory of the string and DLEN by its length; its first check
refuses every other state. -/
theorem hostAttachesStream : Obligations.HostAttachesStream := by
  intro s bytes rest hp
  rw [step_of_access hp rfl, hostAccess]
  constructor
  · intro hcreated hlen
    refine ⟨{ s with pending := rest, dstream := Memory.ofList 0 bytes, dlen := bytes.length }, ?_, rfl,
      Memory.read_ofList_zero bytes, rfl⟩
    rw [if_neg (not_not.mpr hcreated), if_neg (Nat.not_le.mpr hlen)]
  · intro hbusy
    exact if_pos hbusy

end Sys2Proof.Machine
end

section
/-! PROOFS. The encoding (30_encoding.md): decoder and encoder undo one another in every space, and a reserved command code is
refused. -/

namespace Sys2Proof

/-! ### Commands (30 R75, R76) -/

/-- An instruction of the command space is one code, which names it. -/
theorem decodeCommand_of_encode {i : Instr} (hi : i.space = .command) :
    ∃ code, encode i = [code] ∧ decodeCommand code = .ok i := by
  cases i with
  | raw _ | colorMapped _ | quantized16 _ | quantized8 _ | repeated _ | lit8 _ _ _ | run8 _ | lit16 _ _ _ | run16 _ =>
    cases hi
  | _ => exact ⟨_, rfl, rfl⟩

/-- No two codes name one command: a code that names a command is that command's. -/
theorem encode_of_decodeCommand {code : Byte} {i : Instr} (h : decodeCommand code = .ok i) : encode i = [code] := by
  unfold decodeCommand at h
  split at h <;> cases h
  all_goals
    rename_i hcode
    exact congrArg ([·]) (BitVec.eq_of_toNat_eq hcode.symm)

/-- The codes that 30 R76 reserves, as numbers: the gaps of the table of 30 R75. -/
def ReservedCode (n : Nat) : Prop :=
  n = 0x00 ∨ (0x02 ≤ n ∧ n ≤ 0x0F) ∨ (0x15 ≤ n ∧ n ≤ 0x1E) ∨ (0x23 ≤ n ∧ n ≤ 0x2E) ∨ 0x38 ≤ n

theorem decodeCommand_of_reserved {code : Byte} (h : ReservedCode code.toNat) :
    decodeCommand code = .error (.reservedCommand code) := by
  unfold ReservedCode at h
  unfold decodeCommand
  split
  case h_20 => rfl
  all_goals omega

/-! ### Records (30 R62, R63) -/

theorem encode_record (ft : FrameType) (size : BitVec 32) : encode (ft.record size) = ft.code :: be32 size := by
  cases ft <;> rfl

theorem space_record (ft : FrameType) (size : BitVec 32) : (ft.record size).space = .frameRecord := by
  cases ft <;> rfl

/-! ### Packed values (30 R68, R69, R71) -/

theorem decodePacked8_pack8_run (c : BitVec 7) : decodePacked8 (pack8 (.run c)) = .run8 c := by
  simp only [decodePacked8, unpack8_pack8]

theorem decodePacked16_pack16_run (c : BitVec 15) : decodePacked16 (pack16 (.run c)) = .run16 c := by
  simp only [decodePacked16, unpack16_pack16]

/-- An instruction of the PV8 space is what some byte decodes to. -/
theorem eq_decodePacked8_of_space {i : Instr} (hi : i.space = .packed8) : ∃ p, i = decodePacked8 p := by
  cases i with
  | lit8 r g b => exact ⟨_, (decodePacked8_pack8_lit r g b).symm⟩
  | run8 c => exact ⟨_, (decodePacked8_pack8_run c).symm⟩
  | _ => cases hi

/-- An instruction of the PV16 space is what some 16-bit value decodes to. -/
theorem eq_decodePacked16_of_space {i : Instr} (hi : i.space = .packed16) : ∃ p, i = decodePacked16 p := by
  cases i with
  | lit16 r g b => exact ⟨_, (decodePacked16_pack16_lit r g b).symm⟩
  | run16 c => exact ⟨_, (decodePacked16_pack16_run c).symm⟩
  | _ => cases hi

theorem encode_decodePacked8 (p : Byte) : encode (decodePacked8 p) = [p] := by
  rw [← pack8_unpack8 p]
  cases unpack8 p with
  | lit v => simp only [decodePacked8, unpack8_pack8, encode, join7_fields]
  | run c => simp only [decodePacked8, unpack8_pack8, encode]

theorem encode_decodePacked16 (p : BitVec 16) : encode (decodePacked16 p) = be16 p := by
  rw [← pack16_unpack16 p]
  cases unpack16 p with
  | lit v => simp only [decodePacked16, unpack16_pack16, encode, join15_fields]
  | run c => simp only [decodePacked16, unpack16_pack16, encode]

theorem space_decodePacked8 (p : Byte) : (decodePacked8 p).space = .packed8 := by
  unfold decodePacked8
  cases unpack8 p <;> rfl

theorem space_decodePacked16 (p : BitVec 16) : (decodePacked16 p).space = .packed16 := by
  unfold decodePacked16
  cases unpack16 p <;> rfl

/-! ### The decoder, one rule per space -/

theorem decode_command {code : Byte} {i : Instr} (rest : List Byte) (h : decodeCommand code = .ok i) :
    decode .command (code :: rest) = .ok (i, rest) := by
  rw [decode, h]
  rfl

theorem decode_frameRecord (ft : FrameType) (size : BitVec 32) (rest : List Byte) :
    decode .frameRecord (ft.code :: be32 size ++ rest) = .ok (ft.record size, rest) := by
  simp only [be32, List.cons_append, List.nil_append, decode, frameTypeOf_code, ofBe32_be32]

theorem decode_packed8 (p : Byte) (rest : List Byte) :
    decode .packed8 (p :: rest) = .ok (decodePacked8 p, rest) := rfl

theorem decode_packed16 (p : BitVec 16) (rest : List Byte) :
    decode .packed16 (be16 p ++ rest) = .ok (decodePacked16 p, rest) := by
  simp only [be16, List.cons_append, List.nil_append, decode, ofBe16_be16]

/-- What decodes in a space: a code that names a command, a record tag and its payload_size, or any one or two bytes of a packed
value; the bytes after it are the rest. -/
theorem decode_eq_ok {sp : Space} {bytes rest : List Byte} {i : Instr} (h : decode sp bytes = .ok (i, rest)) :
    (∃ code, sp = .command ∧ bytes = code :: rest ∧ decodeCommand code = .ok i) ∨
    (∃ (ft : FrameType) (size : BitVec 32), sp = .frameRecord ∧ bytes = ft.code :: be32 size ++ rest ∧ i = ft.record size) ∨
    (∃ p, sp = .packed8 ∧ bytes = p :: rest ∧ i = decodePacked8 p) ∨
    ∃ p, sp = .packed16 ∧ bytes = be16 p ++ rest ∧ i = decodePacked16 p := by
  unfold decode at h
  split at h
  next code tail =>
    cases hc : decodeCommand code with
    | error e => rw [hc] at h; cases h
    | ok j => rw [hc] at h; cases h; exact .inl ⟨code, rfl, rfl, hc⟩
  next tag b0 b1 b2 b3 tail =>
    split at h
    next ft hft =>
      cases h
      exact .inr (.inl ⟨ft, _, rfl, by rw [code_of_frameTypeOf hft, be32_ofBe32]; rfl, rfl⟩)
    next => cases h
  next p tail =>
    cases h
    exact .inr (.inr (.inl ⟨p, rfl, rfl, rfl⟩))
  next hi lo tail =>
    cases h
    exact .inr (.inr (.inr ⟨_, rfl, by rw [be16_ofBe16]; rfl, rfl⟩))
  next => cases h

/-! ### The statements -/

/-- Settles O1, by the space of the instruction: each one there is what some bytes decode to, and those bytes are its
encoding. -/
theorem decodeReadsBackEncode : Obligations.DecodeReadsBackEncode := by
  intro i rest
  cases hsp : i.space with
  | command =>
    obtain ⟨code, he, hc⟩ := decodeCommand_of_encode hsp
    rw [he]
    exact decode_command rest hc
  | frameRecord =>
    obtain ⟨ft, size, rfl⟩ := Machine.eq_record_of_space hsp
    rw [encode_record]
    exact decode_frameRecord ft size rest
  | packed8 =>
    obtain ⟨p, rfl⟩ := eq_decodePacked8_of_space hsp
    rw [encode_decodePacked8]
    exact decode_packed8 p rest
  | packed16 =>
    obtain ⟨p, rfl⟩ := eq_decodePacked16_of_space hsp
    rw [encode_decodePacked16]
    exact decode_packed16 p rest

/-- Settles O2, by what decodes in each space: encoding it writes the same bytes. -/
theorem encodeWritesBackDecode : Obligations.EncodeWritesBackDecode := by
  intro sp bytes i rest h
  rcases decode_eq_ok h with ⟨code, rfl, rfl, hc⟩ | ⟨ft, size, rfl, rfl, rfl⟩ | ⟨p, rfl, rfl, rfl⟩ | ⟨p, rfl, rfl, rfl⟩
  · exact ⟨Machine.decodeCommand_space hc, by rw [encode_of_decodeCommand hc]; rfl⟩
  · exact ⟨space_record ft size, by rw [encode_record]⟩
  · exact ⟨space_decodePacked8 p, by rw [encode_decodePacked8]; rfl⟩
  · exact ⟨space_decodePacked16 p, by rw [encode_decodePacked16]⟩

/-- Settles O3: every word is closed, so the decoder evaluates on it. -/
theorem specWordsDecode : Obligations.SpecWordsDecode :=
  ⟨rfl, rfl, rfl, rfl, rfl, rfl, rfl, rfl⟩

end Sys2Proof

namespace Sys2Proof.Machine

/-- A write to CMD whose low byte names no command is refused with that byte (30 R76, log 15). -/
theorem step_of_undecodedCommand {s : State} {v : BitVec 64} {rest : List HostMove} {e : DecodeError}
    (hp : s.pending = .writeReg 0 v :: rest) (he : decodeCommand (v.setWidth 8) = .error e) :
    step s = .refused (.reservedCommand (v.setWidth 8)) := by
  rw [step, takeMove, hp]
  simp only [commandByte, he, refuseCode]

/-- Settles O5: the low byte of the value is a reserved code, which decodes to no command. -/
theorem reservedCommandIsRefused : Obligations.ReservedCommandIsRefused := by
  intro s v rest hp hv
  have hcode : ReservedCode (v.setWidth 8).toNat := by
    rw [BitVec.toNat_setWidth]
    exact hv
  exact step_of_undecodedCommand hp (decodeCommand_of_reserved hcode)

end Sys2Proof.Machine
end

section
/-! PROOFS. The byte primitives (40_byte_primitives.md): what a store places at a cursor, the load of that width reads
back, and the bytes of a loaded value are the bytes that stood there. -/

namespace Sys2Proof.Machine

variable {s : State} {a : Nat}

/-- Two bytes of the stream read as the value they assemble to (40 R91). -/
theorem getU16_of_bytes {b1 b0 : Byte} (h : StreamAt s a [b1, b0]) : getU16 s a = .ok (ofBe16 b1 b0) :=
  getU16_eq_ok.mpr (by rwa [be16_ofBe16])

/-- Four bytes of the stream read as the value they assemble to (40 R92). -/
theorem getU32_of_bytes {b3 b2 b1 b0 : Byte} (h : StreamAt s a [b3, b2, b1, b0]) :
    getU32 s a = .ok (ofBe32 b3 b2 b1 b0) :=
  getU32_eq_ok.mpr (by rwa [be32_ofBe32])

/-- A store leaves its bytes at the cursor (40 R97). -/
theorem putBytes_holds (bytes : List Byte) (e : Encoder) :
    Memory.Holds (putBytes bytes e).estream e.cursor.toNat bytes :=
  (putBytes_spec bytes e).1

/-- Settles O58: a load answers exactly the value whose bytes stand at its offset, a store leaves its bytes at the
cursor, and splitting an assembled value gives its bytes back. -/
theorem bytePrimitivesRoundTrip : Obligations.BytePrimitivesRoundTrip := by
  refine ⟨?loadU8, ?loadU16, ?loadU32, ?storeU8, ?storeU16, ?storeU32, ?bytesU8, ?bytesU16, ?bytesU32⟩
  case loadU8 => exact fun _ _ _ => getU8_eq_ok.mpr
  case loadU16 => exact fun _ _ _ => getU16_eq_ok.mpr
  case loadU32 => exact fun _ _ _ => getU32_eq_ok.mpr
  case storeU8 => exact fun e v => putBytes_holds [v] e
  case storeU16 => exact fun e v => putBytes_holds (be16 v) e
  case storeU32 => exact fun e v => putBytes_holds (be32 v) e
  case bytesU8 => exact fun _ _ b h => ⟨b, getU8_eq_ok.mpr h, rfl⟩
  case bytesU16 => exact fun _ _ b1 b0 h => ⟨ofBe16 b1 b0, getU16_of_bytes h, be16_ofBe16 b1 b0⟩
  case bytesU32 => exact fun _ _ b3 b2 b1 b0 h => ⟨ofBe32 b3 b2 b1 b0, getU32_of_bytes h, be32_ofBe32 b3 b2 b1 b0⟩

end Sys2Proof.Machine
end

section
/-! PROOFS. The colour quantizer (41_quantizer.md): each channel is cut to cells of 32, 64 or 8 values, quantizing keeps
the cell, and dequantizing answers the value that lies the bias above the cell's lowest one. -/

namespace Sys2Proof.Machine

theorem color_eq_iff_toNat {c c' : Color} :
    c = c' ↔ c.r.toNat = c'.r.toNat ∧ c.g.toNat = c'.g.toNat ∧ c.b.toNat = c'.b.toNat := by
  cases c
  cases c'
  simp only [Color.mk.injEq, BitVec.toNat_inj]

/-! ### Quantizing keeps the cell -/

/-- Every 7-bit value comes back through its colour (41 R104): the bias is below the width of a cell. -/
@[simp] theorem quantize7_dequantize7 (v : BitVec 7) : quantize7 (dequantize7 v) = v := by
  apply BitVec.eq_of_toNat_eq
  rw [quantize7_toNat, dequantize7_r, dequantize7_g, dequantize7_b]
  omega

/-- Every 15-bit value comes back through its colour (41 R104): the bias is below the width of a cell. -/
@[simp] theorem quantize15_dequantize15 (v : BitVec 15) : quantize15 (dequantize15 v) = v := by
  apply BitVec.eq_of_toNat_eq
  rw [quantize15_toNat, dequantize15_r, dequantize15_g, dequantize15_b]
  omega

/-- The 7-bit quantizer merges the colours of one cell and no others (41 R108): its fields do not overlap. -/
theorem quantize7_eq_iff (c c' : Color) :
    quantize7 c = quantize7 c' ↔ c.r.toNat / 32 = c'.r.toNat / 32 ∧ c.g.toNat / 64 = c'.g.toNat / 64 ∧
      c.b.toNat / 64 = c'.b.toNat / 64 := by
  have := c.g.isLt
  have := c.b.isLt
  have := c'.g.isLt
  have := c'.b.isLt
  rw [← BitVec.toNat_inj, quantize7_toNat, quantize7_toNat]
  omega

/-- The 15-bit quantizer merges the colours of one cell and no others (41 R108): its fields do not overlap. -/
theorem quantize15_eq_iff (c c' : Color) :
    quantize15 c = quantize15 c' ↔ c.r.toNat / 8 = c'.r.toNat / 8 ∧ c.g.toNat / 8 = c'.g.toNat / 8 ∧
      c.b.toNat / 8 = c'.b.toNat / 8 := by
  have := c.g.isLt
  have := c.b.isLt
  have := c'.g.isLt
  have := c'.b.isLt
  rw [← BitVec.toNat_inj, quantize15_toNat, quantize15_toNat]
  omega

/-! ### The round trip of a colour replaces the dropped bits of a channel by the bias -/

/-- The 7-bit round trip moves a channel by BIAS7 less its dropped bits (41 R105). -/
theorem roundTrip7_toNat (c : Color) :
    (dequantize7 (quantize7 c)).r.toNat + c.r.toNat % 32 = c.r.toNat + 16 ∧
    (dequantize7 (quantize7 c)).g.toNat + c.g.toNat % 64 = c.g.toNat + 16 ∧
    (dequantize7 (quantize7 c)).b.toNat + c.b.toNat % 64 = c.b.toNat + 16 := by
  have := c.g.isLt
  have := c.b.isLt
  rw [dequantize7_r, dequantize7_g, dequantize7_b, quantize7_toNat]
  omega

/-- The 15-bit round trip moves a channel by BIAS15 less its dropped bits (41 R105). -/
theorem roundTrip15_toNat (c : Color) :
    (dequantize15 (quantize15 c)).r.toNat + c.r.toNat % 8 = c.r.toNat + 4 ∧
    (dequantize15 (quantize15 c)).g.toNat + c.g.toNat % 8 = c.g.toNat + 4 ∧
    (dequantize15 (quantize15 c)).b.toNat + c.b.toNat % 8 = c.b.toNat + 4 := by
  have := c.g.isLt
  have := c.b.isLt
  rw [dequantize15_r, dequantize15_g, dequantize15_b, quantize15_toNat]
  omega

/-- A colour is its own 7-bit round trip exactly when its dropped bits are the bias (41 R105). -/
theorem dequantize7_quantize7_eq_iff (c : Color) :
    dequantize7 (quantize7 c) = c ↔ c.r.toNat % 32 = 16 ∧ c.g.toNat % 64 = 16 ∧ c.b.toNat % 64 = 16 := by
  have hmoved := roundTrip7_toNat c
  rw [color_eq_iff_toNat]
  omega

/-- A colour is its own 15-bit round trip exactly when its dropped bits are the bias (41 R105). -/
theorem dequantize15_quantize15_eq_iff (c : Color) :
    dequantize15 (quantize15 c) = c ↔ c.r.toNat % 8 = 4 ∧ c.g.toNat % 8 = 4 ∧ c.b.toNat % 8 = 4 := by
  have hmoved := roundTrip15_toNat c
  rw [color_eq_iff_toNat]
  omega

/-! ### The laws of the quantizer -/

/-- Settles O12: each clause about colours is the inverse law at the value of the colour. -/
theorem quantizerIsIdempotent : Obligations.QuantizerIsIdempotent :=
  ⟨quantize7_dequantize7, quantize15_dequantize15,
    fun c => quantize7_dequantize7 (quantize7 c), fun c => quantize15_dequantize15 (quantize15 c),
    fun c => congrArg dequantize7 (quantize7_dequantize7 (quantize7 c)),
    fun c => congrArg dequantize15 (quantize15_dequantize15 (quantize15 c))⟩

/-- Settles O13: in each scheme a value is the cell of its colour. -/
theorem quantizeMergesExactly : Obligations.QuantizeMergesExactly :=
  fun c c' => ⟨quantize7_eq_iff c c', quantize15_eq_iff c c'⟩

/-- Settles O14: the dropped bits of a channel are 0 to 31, 63 or 7, and the error is the bias less them. -/
theorem quantizerErrorIsBounded : Obligations.QuantizerErrorIsBounded := by
  intro c
  obtain ⟨hr7, hg7, hb7⟩ := roundTrip7_toNat c
  obtain ⟨hr15, hg15, hb15⟩ := roundTrip15_toNat c
  exact ⟨by omega, by omega, by omega, by omega, by omega, by omega, dequantize7_quantize7_eq_iff c,
    dequantize15_quantize15_eq_iff c⟩

/-! ### The four commands -/

/-- The value of a colour word, from the word's bytes (41 R110, 10 R28). -/
theorem quantize7_colorOfWord (w : BitVec 24) :
    (quantize7 (colorOfWord w)).setWidth 15 =
      BitVec.ofNat 15 (w.toNat / 65536 / 32 * 16 + w.toNat / 256 % 256 / 64 * 4 + w.toNat % 256 / 64) := by
  rw [← BitVec.ofNat_toNat, quantize7_toNat, colorOfWord_r, colorOfWord_g, colorOfWord_b]

/-- The value of a colour word, from the word's bytes (41 R112, 10 R28). -/
theorem quantize15_colorOfWord (w : BitVec 24) :
    quantize15 (colorOfWord w) =
      BitVec.ofNat 15 (w.toNat / 65536 / 8 * 1024 + w.toNat / 256 % 256 / 8 * 32 + w.toNat % 256 / 8) := by
  rw [← colorOfWord_r, ← colorOfWord_g, ← colorOfWord_b, ← quantize15_toNat, BitVec.ofNat_toNat, BitVec.setWidth_eq]

theorem wordOfColor_eq_ofNat (c : Color) :
    wordOfColor c = BitVec.ofNat 24 (c.r.toNat * 65536 + c.g.toNat * 256 + c.b.toNat) := by
  rw [← wordOfColor_toNat, BitVec.ofNat_toNat, BitVec.setWidth_eq]

/-- The colour word that DEQUANT7 makes of the low seven bits of F_VALUE (41 R111). -/
theorem wordOfColor_dequantize7 (v : BitVec 15) :
    wordOfColor (dequantize7 (v.extractLsb' 0 7)) =
      BitVec.ofNat 24 ((v.toNat / 16 % 8 * 32 + 16) * 65536 + (v.toNat / 4 % 4 * 64 + 16) * 256 +
        (v.toNat % 4 * 64 + 16)) := by
  have hlow : (v.extractLsb' 0 7).toNat = v.toNat % 128 := by
    rw [BitVec.extractLsb'_toNat, Nat.shiftRight_zero]
  have hr : v.toNat % 128 / 16 = v.toNat / 16 % 8 := by omega
  have hg : v.toNat % 128 / 4 % 4 = v.toNat / 4 % 4 := by omega
  have hb : v.toNat % 128 % 4 = v.toNat % 4 := by omega
  rw [wordOfColor_eq_ofNat, dequantize7_r, dequantize7_g, dequantize7_b, hlow, hr, hg, hb]

/-- The colour word that DEQUANT15 makes of F_VALUE (41 R113). -/
theorem wordOfColor_dequantize15 (v : BitVec 15) :
    wordOfColor (dequantize15 v) =
      BitVec.ofNat 24 ((v.toNat / 1024 * 8 + 4) * 65536 + (v.toNat / 32 % 32 * 8 + 4) * 256 +
        (v.toNat % 32 * 8 + 4)) := by
  rw [wordOfColor_eq_ofNat, dequantize15_r, dequantize15_g, dequantize15_b]

/-- Settles O8: the command runs to a store of the quantized value, which has that number. -/
theorem quant7PacksTopBits : Obligations.Quant7PacksTopBits := by
  refine ⟨decode_command [] rfl, fun s => ?_⟩
  rw [← quantize7_colorOfWord]
  rfl

/-- Settles O9: the command runs to a store of the dequantized colour's word, which has that number. -/
theorem dequant7RebuildsColor : Obligations.Dequant7RebuildsColor := by
  refine ⟨decode_command [] rfl, fun s => ?_⟩
  rw [← wordOfColor_dequantize7]
  rfl

/-- Settles O10: the command runs to a store of the quantized value, which has that number. -/
theorem quant15PacksTopBits : Obligations.Quant15PacksTopBits := by
  refine ⟨decode_command [] rfl, fun s => ?_⟩
  rw [← quantize15_colorOfWord]
  rfl

/-- Settles O11: the command runs to a store of the dequantized colour's word, which has that number. -/
theorem dequant15RebuildsColor : Obligations.Dequant15RebuildsColor := by
  refine ⟨decode_command [] rfl, fun s => ?_⟩
  rw [← wordOfColor_dequantize15]
  rfl

end Sys2Proof.Machine
end

section
/-! PROOFS. The run-length decoder (42_run_length.md R124 to R128): it undoes the encoder, and stops only at a leading run
marker. -/

namespace Sys2Proof.Machine

variable {n : Nat} {deq : BitVec n → Color} {width maxRun : Nat} {e : RunEnc n} {d : RunDec}

/-! ### The decoder undoes the encoder (42 R127)

The encoder holds back a pending run. A decoder that has read the output so far knows the current colour, and lacks just
the pixels of that run. -/

/-- The decoder's current colour is the encoder's last literal, and no run is pending before a first literal. -/
def InStep (deq : BitVec n → Color) (e : RunEnc n) (d : RunDec) : Prop :=
  (e.haveLit = true → d.curValid = true ∧ d.cur = deq e.lit) ∧ (0 < e.run → e.haveLit = true)

theorem inStep_start (deq : BitVec n → Color) (user : RunUser) (a : Nat) :
    InStep deq (RunEnc.start n) (RunDec.start user a) := by
  simp [InStep, RunEnc.start]

/-- A flush emits the pixels of the pending run. -/
theorem rleDecode_rleFlush (h : InStep deq e d) (hr : e.run < 2 ^ n) :
    ∃ d', rleDecode deq width (rleFlush e) d = .ok d' ∧ d'.out = d.out ++ List.replicate e.run (deq e.lit) := by
  obtain ⟨hcur, hpending⟩ := h
  rcases Nat.eq_zero_or_pos e.run with h0 | hpos
  · refine ⟨d, ?_, ?_⟩ <;> simp [rleFlush, rleDecode, h0]
  · obtain ⟨hvalid, hlit⟩ := hcur (hpending hpos)
    refine ⟨_, by rw [rleFlush, if_pos hpos, rleDecode, rleDecodeStep, if_pos hvalid]; rfl, ?_⟩
    rw [BitVec.toNat_ofNat, Nat.mod_eq_of_lt hr, hlit]

/-- From registers in step, the decoder answers the pending pixels and then one pixel for each value. -/
theorem rleDecode_rleEncodeFrom (hm : maxRun < 2 ^ n) (vs : List (BitVec n)) (h : InStep deq e d) (hr : e.run ≤ maxRun) :
    ∃ d', rleDecode deq width (rleEncodeFrom maxRun e vs).1 d = .ok d' ∧
      d'.out = d.out ++ (List.replicate e.run (deq e.lit) ++ vs.map deq) := by
  induction vs generalizing e d with
  | nil => simpa [rleEncodeFrom_nil] using rleDecode_rleFlush h (Nat.lt_of_le_of_lt hr hm)
  | cons v vs ih =>
    by_cases habsorb : e.haveLit = true ∧ v = e.lit ∧ e.run < maxRun
    · obtain ⟨hl, rfl, hlt⟩ := habsorb
      rw [rleEncodeFrom_absorb vs hl hlt]
      obtain ⟨d', hd', hout⟩ := ih (e := { e with run := e.run + 1 }) (d := d) ⟨h.1, fun _ => hl⟩ hlt
      exact ⟨d', hd', by simp [hout, List.replicate_succ']⟩
    · rw [rleEncodeFrom_literal vs habsorb]
      obtain ⟨d1, hd1, hout1⟩ := rleDecode_rleFlush (width := width) h (Nat.lt_of_le_of_lt hr hm)
      obtain ⟨d', hd', hout⟩ := ih (e := ⟨true, v, 0⟩)
        (d := { d1 with curValid := true, cur := deq v, out := d1.out ++ [deq v], offset := d1.offset + width })
        ⟨fun _ => ⟨rfl, rfl⟩, fun _ => rfl⟩ (Nat.zero_le _)
      refine ⟨d', ?_, by simp [hout, hout1]⟩
      rw [rleDecode_append, hd1]
      exact hd'

/-- Decoding an encoded sequence answers its dequantized values, at any width whose `max_run` fits the count field. -/
theorem rleDecode_rleEncode (hm : maxRun < 2 ^ n) (vals : List (BitVec n)) (user : RunUser) (a : Nat) :
    ∃ d, rleDecode deq width (rleEncode maxRun vals) (RunDec.start user a) = .ok d ∧ d.out = vals.map deq := by
  simpa [rleEncode, RunEnc.start, RunDec.start] using
    rleDecode_rleEncodeFrom (width := width) hm vals (inStep_start deq user a) (Nat.zero_le maxRun)

/-- Settles O15: the inverse law at the two widths, and after it the bytes of the packed values read back. -/
theorem rleDecodeInvertsEncode : Obligations.RleDecodeInvertsEncode := by
  refine ⟨fun vals user a => rleDecode_rleEncode (by decide) vals user a,
    fun vals user a => rleDecode_rleEncode (by decide) vals user a, fun px user a => ?_, fun px user a => ?_⟩
  · rw [map_unpack8_bytesOf8]
    simpa [Function.comp_def] using
      rleDecode_rleEncode (deq := dequantize7) (width := 1) (maxRun := 127) (by decide) (px.map quantize7) user a
  · rw [packed16sOf_bytesOf16]
    simpa [Function.comp_def] using
      rleDecode_rleEncode (deq := dequantize15) (width := 2) (maxRun := 32767) (by decide) (px.map quantize15) user a

/-! ### What alone is malformed (42 R128) -/

theorem rleDecode_leadingRun (c : BitVec n) (ps : List (Packed n)) (user : RunUser) (a : Nat) :
    rleDecode deq width (.run c :: ps) (RunDec.start user a) = .error a := rfl

/-- A payload with no leading run marker decodes. -/
theorem rleDecode_start_eq_ok {ps : List (Packed n)} (h : ∀ c, ps.head? ≠ some (.run c)) (user : RunUser) (a : Nat) :
    ∃ d, rleDecode deq width ps (RunDec.start user a) = .ok d := by
  match ps, h with
  | [], _ => exact ⟨_, rfl⟩
  | .lit v :: ps, _ => exact rleDecode_of_curValid ps rfl
  | .run c :: _, h => exact absurd rfl (h c)

/-- Settles O18: a leading run marker is met with no current colour, and after a literal the decoder never stops. -/
theorem onlyALeadingRunIsMalformed : Obligations.OnlyALeadingRunIsMalformed := by
  intro n deq width ps user a
  by_cases h : ∃ c rest, ps = .run c :: rest
  · obtain ⟨c, rest, rfl⟩ := h
    rw [rleDecode_leadingRun]
    exact ⟨⟨fun _ => ⟨c, rest, rfl⟩, fun _ => ⟨a, rfl⟩⟩, fun e he => (Except.error.inj he).symm⟩
  · obtain ⟨d, hd⟩ := rleDecode_start_eq_ok (deq := deq) (width := width) (ps := ps)
      (fun c hc => h ⟨c, ps.tail, List.eq_cons_of_mem_head? hc⟩) user a
    simp [hd, h]

end Sys2Proof.Machine
end

section
/-! PROOFS. The shape of the run-length encoder's output (42_run_length.md R122, R123): what may follow a literal, and that
a block of equal values is encoded by itself. -/

namespace Sys2Proof.Machine

variable {n : Nat} {maxRun : Nat} {e : RunEnc n}

/-! ### From a literal on -/

/-- The encoding of a sequence that is not empty starts with its first value. -/
theorem rleEncode_cons (v : BitVec n) (vs : List (BitVec n)) :
    rleEncode maxRun (v :: vs) = .lit v :: (rleEncodeFrom maxRun ⟨true, v, 0⟩ vs).1 := by
  rw [rleEncode, rleEncodeFrom_literal vs (by simp [RunEnc.start])]
  rfl

/-- What 42 R122 (b) to (e) let the encoder write after a literal `v`: a different literal, or a run marker with a count in
range, which ends the output or stands before a literal that repeats `v` only after a full run. -/
inductive AfterLit (maxRun : Nat) : BitVec n → List (Packed n) → Prop where
  | nil {v : BitVec n} : AfterLit maxRun v []
  | lit {v w : BitVec n} {ps : List (Packed n)} : v ≠ w → AfterLit maxRun w ps → AfterLit maxRun v (.lit w :: ps)
  | lastRun {v c : BitVec n} : 1 ≤ c.toNat → c.toNat ≤ maxRun → AfterLit maxRun v [.run c]
  | run {v c w : BitVec n} {ps : List (Packed n)} : 1 ≤ c.toNat → c.toNat ≤ maxRun → (v = w → c.toNat = maxRun) →
      AfterLit maxRun w ps → AfterLit maxRun v (.run c :: .lit w :: ps)

/-- After a literal the encoder writes only what may follow it. -/
theorem afterLit_rleEncodeFrom (h0 : 0 < maxRun) (hm : maxRun < 2 ^ n) (vs : List (BitVec n)) (hl : e.haveLit = true)
    (hr : e.run ≤ maxRun) : AfterLit maxRun e.lit (rleEncodeFrom maxRun e vs).1 := by
  have hcount : (BitVec.ofNat n e.run).toNat = e.run := Nat.mod_eq_of_lt (by omega)
  induction vs generalizing e with
  | nil =>
    rw [rleEncodeFrom_nil, rleFlush]
    split
    · next hpos => exact .lastRun (by omega) (by omega)
    · exact .nil
  | cons w vs ih =>
    by_cases habsorb : e.haveLit = true ∧ w = e.lit ∧ e.run < maxRun
    · obtain ⟨-, rfl, hlt⟩ := habsorb
      rw [rleEncodeFrom_absorb vs hl hlt]
      exact ih (e := { e with run := e.run + 1 }) hl hlt (Nat.mod_eq_of_lt (Nat.lt_of_le_of_lt hlt hm))
    · have hfull : e.lit = w → e.run = maxRun := fun h =>
        Nat.le_antisymm hr (Nat.not_lt.mp fun hlt => habsorb ⟨hl, h.symm, hlt⟩)
      have hrest := ih (e := ⟨true, w, 0⟩) rfl (Nat.zero_le _) (by simp)
      rw [rleEncodeFrom_literal vs habsorb, rleFlush]
      split
      · next hpos => exact .run (by omega) (by omega) (hcount.trans ∘ hfull) hrest
      · next hpos => exact .lit (fun h => by have := hfull h; omega) hrest

/-- The output for a sequence that is not empty: its first value, and what may follow it. -/
theorem rleEncode_shape (h0 : 0 < maxRun) (hm : maxRun < 2 ^ n) (v : BitVec n) (vs : List (BitVec n)) :
    ∃ ps, rleEncode maxRun (v :: vs) = .lit v :: ps ∧ AfterLit maxRun v ps :=
  ⟨_, rleEncode_cons v vs, afterLit_rleEncodeFrom (e := ⟨true, v, 0⟩) h0 hm vs rfl (Nat.zero_le _)⟩

section afterLit
variable {u : BitVec n} {out : List (Packed n)}

theorem AfterLit.count_range (h : AfterLit maxRun u out) {c : BitVec n} (hc : .run c ∈ out) :
    1 ≤ c.toNat ∧ c.toNat ≤ maxRun := by
  induction h with
  | nil => cases hc
  | lit _ _ ih => exact ih (by simpa using hc)
  | lastRun h1 h2 => cases List.mem_singleton.mp hc; exact ⟨h1, h2⟩
  | run h1 h2 _ _ ih =>
    rcases List.mem_cons.mp hc with hc | hc
    · cases hc; exact ⟨h1, h2⟩
    · exact ih (by simpa using hc)

theorem AfterLit.lit_before_run (h : AfterLit maxRun u out) {i : Nat} {c : BitVec n}
    (hc : (Packed.lit u :: out)[i]? = some (.run c)) :
    ∃ j v, i = j + 1 ∧ (Packed.lit u :: out)[j]? = some (.lit v) := by
  induction h generalizing i with
  | nil => match i with | 0 | _ + 1 => simp at hc
  | lit _ _ ih =>
    cases i with
    | zero => simp at hc
    | succ i =>
      obtain ⟨j, v, rfl, hj⟩ := ih (i := i) hc
      exact ⟨j + 1, v, rfl, hj⟩
  | lastRun =>
    match i with
    | 0 => simp at hc
    | 1 => exact ⟨0, _, rfl, rfl⟩
    | _ + 2 => simp at hc
  | run _ _ _ _ ih =>
    match i with
    | 0 => simp at hc
    | 1 => exact ⟨0, _, rfl, rfl⟩
    | i + 2 =>
      obtain ⟨j, v, rfl, hj⟩ := ih (i := i) hc
      exact ⟨j + 2, v, rfl, hj⟩

theorem AfterLit.adjacent_lits_ne (h : AfterLit maxRun u out) {i : Nat} {v w : BitVec n}
    (hv : (Packed.lit u :: out)[i]? = some (.lit v)) (hw : (Packed.lit u :: out)[i + 1]? = some (.lit w)) : v ≠ w := by
  induction h generalizing i with
  | nil => simp at hw
  | lit hne _ ih =>
    cases i with
    | zero => cases hv; cases hw; exact hne
    | succ i => exact ih (i := i) hv hw
  | lastRun => match i with | 0 | _ + 1 => simp at hw
  | run _ _ _ _ ih =>
    match i with
    | 0 => simp at hw
    | 1 => simp at hv
    | i + 2 => exact ih (i := i) hv hw

theorem AfterLit.repeated_lit_after_full_run (h : AfterLit maxRun u out) {i : Nat} {v c : BitVec n}
    (hv : (Packed.lit u :: out)[i]? = some (.lit v)) (hc : (Packed.lit u :: out)[i + 1]? = some (.run c))
    (hw : (Packed.lit u :: out)[i + 2]? = some (.lit v)) : c.toNat = maxRun := by
  induction h generalizing i with
  | nil => simp at hc
  | lit _ _ ih =>
    cases i with
    | zero => simp at hc
    | succ i => exact ih (i := i) hv hc hw
  | lastRun => match i with | 0 | _ + 1 => simp at hw
  | run _ _ hfull _ ih =>
    match i with
    | 0 => cases hv; cases hc; cases hw; exact hfull rfl
    | 1 => simp at hv
    | i + 2 => exact ih (i := i) hv hc hw

end afterLit

theorem rleEncode_length_le (vals : List (BitVec n)) : (rleEncode maxRun vals).length ≤ vals.length := by
  simpa [rleEncode, RunEnc.start] using rleEncodeFrom_length_le (maxRun := maxRun) vals (RunEnc.start n)

/-- The shape at any width whose `max_run` fits the count field. -/
theorem rleOutputShape (h0 : 0 < maxRun) (hm : maxRun < 2 ^ n) {bits : Packed n → Nat} (hb : ∀ p, bits p < 2 ^ (n + 1)) :
    RleOutputShape n maxRun bits := by
  intro vals
  cases vals with
  | nil => simp [rleEncode, rleEncodeFrom_nil, rleFlush, RunEnc.start]
  | cons v vs =>
    have hlen := rleEncode_length_le (maxRun := maxRun) (v :: vs)
    obtain ⟨ps, hps, hafter⟩ := rleEncode_shape h0 hm v vs
    rw [hps] at hlen ⊢
    exact ⟨fun _ => ⟨v, rfl⟩, fun c hc => hafter.count_range (by simpa using hc), fun _ _ => hafter.lit_before_run,
      fun _ _ _ => hafter.adjacent_lits_ne, fun _ _ _ => hafter.repeated_lit_after_full_run, fun p _ => hb p, hlen⟩

/-- Settles O16: the shape at the two widths, whose packed values are words of 8 and 16 bits. -/
theorem rleEncodeOutputShape : Obligations.RleEncodeOutputShape :=
  ⟨rleOutputShape (by decide) (by decide) fun p => (pack8 p).isLt,
    rleOutputShape (by decide) (by decide) fun p => (pack16 p).isLt⟩

/-! ### A block of equal values (42 R123) -/

/-- The value a next equal one could be taken into a run of. -/
def RunEnc.last (e : RunEnc n) : Option (BitVec n) := if e.haveLit then some e.lit else none

/-- Whatever a value does, it is the last one after its step. -/
theorem last_rleEncodeStep (v : BitVec n) : (rleEncodeStep maxRun e v).2.last = some v := by
  rcases rleEncodeStep_cases (maxRun := maxRun) e v with ⟨hl, rfl, -, h⟩ | ⟨-, h⟩ <;> rw [h]
  · exact if_pos hl
  · rfl

/-- Before a value that differs from the last one, the encoder starts anew. -/
theorem rleEncodeFrom_restart {ys : List (BitVec n)} (h : ∀ w ∈ ys.head?, w ∉ e.last) :
    (rleEncodeFrom maxRun e ys).1 = rleFlush e ++ rleEncode maxRun ys := by
  cases ys with
  | nil => simp [rleEncode, rleEncodeFrom_nil, rleFlush, RunEnc.start]
  | cons w ys =>
    have hlit : ¬ (e.haveLit = true ∧ w = e.lit ∧ e.run < maxRun) := by
      rintro ⟨hl, rfl, -⟩
      exact h e.lit rfl (if_pos hl)
    rw [rleEncodeFrom_literal ys hlit, rleEncode_cons]

/-- Two parts whose values at the seam differ are encoded one by one. -/
theorem rleEncodeFrom_append (xs : List (BitVec n)) {ys : List (BitVec n)}
    (h : ∀ w ∈ ys.head?, w ∉ xs.getLast?.or e.last) :
    (rleEncodeFrom maxRun e (xs ++ ys)).1 = (rleEncodeFrom maxRun e xs).1 ++ rleEncode maxRun ys := by
  induction xs generalizing e with
  | nil => exact rleEncodeFrom_restart h
  | cons x xs ih =>
    have hseam : ∀ w ∈ ys.head?, w ∉ xs.getLast?.or (rleEncodeStep maxRun e x).2.last := by
      simpa [last_rleEncodeStep, List.getLast?_cons, Option.or_some] using h
    rw [List.cons_append, rleEncodeFrom_cons, rleEncodeFrom_cons]
    dsimp only
    rw [ih hseam, List.append_assoc]

theorem rleEncode_append {xs ys : List (BitVec n)} (h : ∀ w ∈ ys.head?, w ∉ xs.getLast?) :
    rleEncode maxRun (xs ++ ys) = rleEncode maxRun xs ++ rleEncode maxRun ys :=
  rleEncodeFrom_append xs (by simpa [RunEnc.last, RunEnc.start] using h)

/-- Equal values that one run can take. -/
theorem rleEncode_replicate_of_le {v : BitVec n} {j : Nat} (hj : j ≤ maxRun) :
    rleEncode maxRun (List.replicate (j + 1) v) = .lit v :: rleFlush ⟨true, v, j⟩ := by
  have hrun := rleEncodeFrom_replicate (maxRun := maxRun) j (e := ⟨true, v, 0⟩) [] rfl (by simpa using hj)
  rw [List.append_nil] at hrun
  rw [List.replicate_succ, rleEncode_cons, hrun, rleEncodeFrom_nil, Nat.zero_add]

/-- A full run of equal values, and one equal value after it. -/
theorem rleEncode_replicate_full (h0 : 0 < maxRun) (v : BitVec n) (j : Nat) :
    rleEncode maxRun (List.replicate (j + (maxRun + 1) + 1) v) =
      .lit v :: .run (BitVec.ofNat n maxRun) :: rleEncode maxRun (List.replicate (j + 1) v) := by
  have hsplit : List.replicate (j + (maxRun + 1) + 1) v = v :: (List.replicate maxRun v ++ v :: List.replicate j v) := by
    rw [← List.replicate_succ, List.replicate_append_replicate, ← List.replicate_succ]
    congr 1; omega
  have hrun := rleEncodeFrom_replicate (maxRun := maxRun) maxRun (e := ⟨true, v, 0⟩) (v :: List.replicate j v) rfl
    (by simp)
  rw [hsplit, rleEncode_cons, hrun, rleEncodeFrom_literal _ (by simp), List.replicate_succ, rleEncode_cons]
  simp [rleFlush, h0]

theorem rleBlock_of_le {v : BitVec n} {j : Nat} (hj : j ≤ maxRun) :
    rleBlock maxRun v (j + 1) = .lit v :: rleFlush ⟨true, v, j⟩ := by
  simp [rleBlock, rleFlush, Nat.div_eq_of_lt (Nat.lt_succ_of_le hj), Nat.mod_eq_of_lt (Nat.lt_succ_of_le hj)]

theorem rleBlock_add_full (v : BitVec n) (j : Nat) :
    rleBlock maxRun v (j + (maxRun + 1) + 1) =
      .lit v :: .run (BitVec.ofNat n maxRun) :: rleBlock maxRun v (j + 1) := by
  simp [rleBlock, List.replicate_succ]

/-- A block alone: each full run takes `max_run + 1` values off it. -/
theorem rleEncode_replicate (h0 : 0 < maxRun) (v : BitVec n) (j : Nat) :
    rleEncode maxRun (List.replicate (j + 1) v) = rleBlock maxRun v (j + 1) := by
  induction j using Nat.strongRecOn with
  | ind j ih =>
    by_cases hj : j ≤ maxRun
    · rw [rleEncode_replicate_of_le hj, rleBlock_of_le hj]
    · obtain ⟨i, rfl⟩ : ∃ i, j = i + (maxRun + 1) := ⟨j - (maxRun + 1), by omega⟩
      rw [rleEncode_replicate_full h0, rleBlock_add_full, ih i (by omega)]

/-- A block between different values, or nothing. -/
theorem rleEncode_block (h0 : 0 < maxRun) {v : BitVec n} {k : Nat} {before after : List (BitVec n)} (hk : 1 ≤ k)
    (hb : before.getLast? ≠ some v) (ha : after.head? ≠ some v) :
    rleEncode maxRun (before ++ List.replicate k v ++ after) =
      rleEncode maxRun before ++ rleBlock maxRun v k ++ rleEncode maxRun after := by
  obtain ⟨j, rfl⟩ : ∃ j, k = j + 1 := ⟨k - 1, by omega⟩
  have hleft : ∀ w ∈ (List.replicate (j + 1) v).head?, w ∉ before.getLast? := by
    simpa [List.replicate_succ] using hb
  have hright : ∀ w ∈ after.head?, w ∉ (before ++ List.replicate (j + 1) v).getLast? := by
    rintro w hw hv
    have hvw : v = w := by simpa [List.getLast?_append, List.getLast?_replicate] using hv
    exact ha (hvw ▸ hw)
  rw [rleEncode_append hright, rleEncode_append hleft, rleEncode_replicate h0]

/-- Settles O17: the block at the two widths. -/
theorem rleEncodeOfABlock : Obligations.RleEncodeOfABlock :=
  ⟨fun _ _ _ _ => rleEncode_block (by decide), fun _ _ _ _ => rleEncode_block (by decide)⟩

end Sys2Proof.Machine
end

section
/-! PROOFS. The packed values as instructions (42_run_length.md R124, R126): the pixels each emits, MalformedRun, and a run
of them one after the other. -/

namespace Sys2Proof.Machine

variable {n : Nat} {deq : BitVec n → Color} {width : Nat} {s : State}

/-! ### One packed value -/

theorem runPacked_lit (deq : BitVec n → Color) (width : Nat) (v : BitVec n) (s : State) :
    runPacked deq width (.lit v) s = .next { s with work := { s.work with runDec := { s.work.runDec with
      curValid := true, cur := deq v, out := s.work.runDec.out ++ [deq v],
      offset := s.work.runDec.offset + width } } } := rfl

theorem runPacked_run (c : BitVec n) (h : s.work.runDec.curValid = true) :
    runPacked deq width (.run c) s = .next { s with work := { s.work with runDec := { s.work.runDec with
      out := s.work.runDec.out ++ List.replicate c.toNat s.work.runDec.cur,
      offset := s.work.runDec.offset + width } } } := by
  rw [runPacked, rleDecodeStep, if_pos h]

/-- With no current colour a run marker is MalformedRun, taken by FU where the payload is FU's. -/
theorem runPacked_malformed_fu (c : BitVec n) (hv : s.work.runDec.curValid = false) (hu : s.work.runDec.user = .fu) :
    runPacked deq width (.run c) s = .next (fuError .malformedRun s) := by
  rw [runPacked, rleDecodeStep, if_neg (by simp [hv])]
  dsimp only
  rw [malformedRun, hu]

/-- With no current colour a run marker is MalformedRun at its own offset, taken by DEC where the payload is DEC's. -/
theorem runPacked_malformed_dec (c : BitVec n) (hv : s.work.runDec.curValid = false) (hu : s.work.runDec.user = .dec) :
    runPacked deq width (.run c) s = .next (streamError .malformedRun s.work.runDec.offset s) := by
  rw [runPacked, rleDecodeStep, if_neg (by simp [hv])]
  dsimp only
  rw [malformedRun, hu]

/-- The colour of a LIT8's fields (41 R101). -/
theorem dequantize7_join7 (r : BitVec 3) (g b : BitVec 2) :
    dequantize7 (join7 r g b) =
      ⟨BitVec.ofNat 8 (r.toNat * 32 + 16), BitVec.ofNat 8 (g.toNat * 64 + 16), BitVec.ofNat 8 (b.toNat * 64 + 16)⟩ := by
  rw [color_eq_iff_toNat, dequantize7_r, dequantize7_g, dequantize7_b, join7_toNat]
  simp only [BitVec.toNat_ofNat]
  omega

/-- The colour of a LIT16's fields (41 R103). -/
theorem dequantize15_join15 (r g b : BitVec 5) :
    dequantize15 (join15 r g b) =
      ⟨BitVec.ofNat 8 (r.toNat * 8 + 4), BitVec.ofNat 8 (g.toNat * 8 + 4), BitVec.ofNat 8 (b.toNat * 8 + 4)⟩ := by
  rw [color_eq_iff_toNat, dequantize15_r, dequantize15_g, dequantize15_b, join15_toNat]
  simp only [BitVec.toNat_ofNat]
  omega

/-- Settles O19: a literal's fields give the colour of the rule, and with a current colour a run marker repeats it. -/
theorem packedValuesEmitPixels : Obligations.PackedValuesEmitPixels := by
  refine ⟨fun s r g b => ?_, fun s r g b => ?_, fun s c => runPacked_run c, fun s c => runPacked_run c⟩
  · rw [← dequantize7_join7]
    exact runPacked_lit dequantize7 1 (join7 r g b) s
  · rw [← dequantize15_join15]
    exact runPacked_lit dequantize15 2 (join15 r g b) s

/-- Settles O20: with no current colour a run marker of either width is MalformedRun, which the unit of the payload takes. -/
theorem runBeforeLiteralIsMalformed : Obligations.RunBeforeLiteralIsMalformed :=
  fun _ hv =>
    ⟨fun hu => ⟨fun c => runPacked_malformed_fu c hv hu, fun c => runPacked_malformed_fu c hv hu⟩,
      fun hu => ⟨fun c => runPacked_malformed_dec c hv hu, fun c => runPacked_malformed_dec c hv hu⟩⟩

/-! ### Packed values one after the other -/

theorem exec_decodePacked8 (p : Byte) (s : State) : exec (decodePacked8 p) s = runPacked dequantize7 1 (unpack8 p) s := by
  rw [decodePacked8]
  cases unpack8 p with
  | lit v => exact congrArg (fun w => runPacked dequantize7 1 (.lit w) s) (join7_fields v)
  | run c => rfl

theorem exec_decodePacked16 (p : BitVec 16) (s : State) :
    exec (decodePacked16 p) s = runPacked dequantize15 2 (unpack16 p) s := by
  rw [decodePacked16]
  cases unpack16 p with
  | lit v => exact congrArg (fun w => runPacked dequantize15 2 (.lit w) s) (join15_fields v)
  | run c => rfl

/-- Instructions that run packed values one after the other leave the registers that decoding the values leaves. -/
theorem runAll_of_rleDecode {α : Type} {instr : α → Instr} {packed : α → Packed n}
    (hexec : ∀ p s, exec (instr p) s = runPacked deq width (packed p) s) (ps : List α) {s : State} {d : RunDec}
    (h : rleDecode deq width (ps.map packed) s.work.runDec = .ok d) :
    runAll (ps.map instr) s = .next { s with work := { s.work with runDec := d } } := by
  induction ps generalizing s with
  | nil => cases h; rfl
  | cons p ps ih =>
    rw [List.map_cons, rleDecode_cons] at h
    rw [List.map_cons, runAll, hexec, runPacked]
    cases hstep : rleDecodeStep deq width (packed p) s.work.runDec with
    | error a => rw [hstep] at h; cases h
    | ok d1 =>
      rw [hstep] at h
      exact ih (s := { s with work := { s.work with runDec := d1 } }) h

theorem unpack8_of_lt {p : Byte} (h : p.toNat < 128) (c : BitVec 7) : unpack8 p ≠ .run c := by
  simp [unpack8_eq, h]

theorem unpack16_of_lt {p : BitVec 16} (h : p.toNat < 32768) (c : BitVec 15) : unpack16 p ≠ .run c := by
  simp [unpack16_eq, h]

/-- A payload whose first value is no run marker decodes from the start, and its packed values run to the same registers. -/
theorem runAll_from_start {α : Type} {instr : α → Instr} {packed : α → Packed n}
    (hexec : ∀ p s, exec (instr p) s = runPacked deq width (packed p) s) {ps : List α} {s t : State} {user : RunUser}
    {a : Nat} (hhead : ∀ p ∈ ps.head?, ∀ c, packed p ≠ .run c)
    (hrun : runAll (ps.map instr) { s with work := { s.work with runDec := RunDec.start user a } } = .next t) :
    ∃ d, rleDecode deq width (ps.map packed) (RunDec.start user a) = .ok d ∧
      t = { s with work := { s.work with runDec := d } } := by
  obtain ⟨d, hd⟩ := rleDecode_start_eq_ok (deq := deq) (width := width) (ps := ps.map packed)
    (by simpa using fun c p hp => hhead p hp c) user a
  have hall := runAll_of_rleDecode hexec ps
    (s := { s with work := { s.work with runDec := RunDec.start user a } }) hd
  rw [hall] at hrun
  exact ⟨d, hd, (Host.Outcome.next.inj hrun).symm⟩

end Sys2Proof.Machine
end

section
/-! PROOFS. The four RLE commands of FU (42_run_length.md R130 to R133): the refusals, the errors, and what FU_OUT and
F_OUT_LEN hold after a command that completes. -/

namespace Sys2Proof.Machine

variable {s : State}

/-! ### The end of a command -/

/-- F_OUT_LEN takes a length that fits its register, and nothing is drawn for it. -/
theorem storeFuOut_of_fits {bytes : List Byte} {len : Nat} (w : Work) (h : len < 2 ^ 32) :
    (storeFuOut bytes len w s).fu.outLen = BitVec.ofNat 32 len ∧ (storeFuOut bytes len w s).draws = s.draws :=
  ⟨if_pos h, if_pos h⟩

theorem storeFuOut_eq_of_fits (bytes : List Byte) {len : Nat} (w : Work) (h : len < 2 ^ 32) :
    storeFuOut bytes len w s =
      { s with fu := { s.fu with fuOut := Memory.ofList 0 bytes, outLen := BitVec.ofNat 32 len, err := 0#8 }, work := w } := by
  rw [storeFuOut, outLength, drawsAfter, if_pos h, if_pos h]

theorem finishFu_refuse (why : Refusal) : finishFu s (.error (.refuse why)) = .refused why := rfl

theorem finishFu_fuDecoded_malformed (a : Nat) : finishFu s (fuDecoded s (.error a)) = .next (fuError .malformedRun s) := rfl

theorem finishFu_fuDecoded_tooLarge {d : RunDec} (h : s.params.fuMax < 3 * d.out.length) :
    finishFu s (fuDecoded s (.ok d)) = .refused (.bufferTooLarge (3 * d.out.length)) := by
  rw [fuDecoded, if_pos h, finishFu_refuse]

theorem finishFu_fuDecoded_fits {d : RunDec} (h : 3 * d.out.length ≤ s.params.fuMax) :
    finishFu s (fuDecoded s (.ok d)) =
      .next (storeFuOut (pixelBytes d.out) d.out.length { s.work with runDec := d } s) := by
  rw [fuDecoded, if_neg (Nat.not_lt.mpr h), finishFu]

/-- What a decode command answers once its input is decoded: MalformedRun, the refusal of the output, or the pixels. -/
theorem finishFu_fuDecoded_result {r : Except Nat RunDec} {answer : Result} (hr : answer = finishFu s (fuDecoded s r)) :
    (∀ a, r = .error a → answer = .next { s with fu := { s.fu with err := 5#8, outLen := 0#32, fuOut := [] } }) ∧
    (∀ d, r = .ok d →
      (s.params.fuMax < 3 * d.out.length → answer = .refused (.bufferTooLarge (3 * d.out.length))) ∧
      (3 * d.out.length ≤ s.params.fuMax →
        ∃ t, answer = .next t ∧
          t.fu = { s.fu with fuOut := Memory.ofList 0 (pixelBytes d.out), outLen := t.fu.outLen, err := 0#8 } ∧
          (d.out.length < 2 ^ 32 → t.fu.outLen = BitVec.ofNat 32 d.out.length ∧ t.draws = s.draws) ∧
          t = { s with fu := t.fu, work := t.work, draws := t.draws })) := by
  subst hr
  constructor
  · rintro a rfl
    exact finishFu_fuDecoded_malformed a
  · rintro d rfl
    exact ⟨finishFu_fuDecoded_tooLarge, fun hfit => ⟨_, finishFu_fuDecoded_fits hfit, rfl, storeFuOut_of_fits _, rfl⟩⟩

/-! ### RLE_ENC8 and RLE_ENC16 -/

theorem fuPixels_tooLarge {px : List Color} (hn : px.length = s.fu.inLen.toNat) (h : s.params.fuMax < 3 * px.length) :
    fuPixels s = .error (.refuse (.bufferTooLarge (3 * px.length))) := by
  rw [hn] at h ⊢
  exact if_pos h

theorem execRleEnc8_tooLarge {px : List Color} (hn : px.length = s.fu.inLen.toNat)
    (h : s.params.fuMax < 3 * px.length) : execRleEnc8 s = .refused (.bufferTooLarge (3 * px.length)) := by
  rw [execRleEnc8, fuPixels_tooLarge hn h]
  rfl

theorem execRleEnc8_of_pixels {px : List Color} (h : fuPixels s = .ok px) :
    ∃ w, execRleEnc8 s = .next (storeFuOut (bytesOf8 (rleEncode 127 (px.map quantize7)))
      (bytesOf8 (rleEncode 127 (px.map quantize7))).length w s) := by
  rw [execRleEnc8, h]
  exact ⟨_, rfl⟩

theorem execRleEnc16_tooLarge {px : List Color} (hn : px.length = s.fu.inLen.toNat)
    (h : s.params.fuMax < 3 * px.length) : execRleEnc16 s = .refused (.bufferTooLarge (3 * px.length)) := by
  rw [execRleEnc16, fuPixels_tooLarge hn h]
  rfl

theorem execRleEnc16_of_pixels {px : List Color} (h : fuPixels s = .ok px) :
    ∃ w, execRleEnc16 s = .next (storeFuOut (bytesOf16 (rleEncode 32767 (px.map quantize15)))
      (bytesOf16 (rleEncode 32767 (px.map quantize15))).length w s) := by
  rw [execRleEnc16, h]
  exact ⟨_, rfl⟩

/-- Settles O21: the code is no longer than the pixels, so that its length fits F_OUT_LEN. -/
theorem rleEnc8Result : Obligations.RleEnc8Result := by
  refine ⟨decode_command [] rfl, fun s px hn => ⟨execRleEnc8_tooLarge hn, fun hfit hpx => ?_⟩⟩
  obtain ⟨w, hexec⟩ := execRleEnc8_of_pixels (fuPixels_eq_ok.mpr ⟨hfit, hn, hpx⟩)
  have hle : (rleEncode 127 (px.map quantize7)).length ≤ px.length := by
    simpa using rleEncode_length_le (maxRun := 127) (px.map quantize7)
  have hlt : (rleEncode 127 (px.map quantize7)).length < 2 ^ 32 :=
    Nat.lt_of_le_of_lt (hle.trans_eq hn) s.fu.inLen.isLt
  rw [bytesOf8_length, storeFuOut_eq_of_fits _ w hlt] at hexec
  exact ⟨_, hexec, rfl, hle, rfl⟩

/-- Settles O22: the bytes of the code are its values one after the other, two bytes each. -/
theorem rleEnc16Result : Obligations.RleEnc16Result := by
  refine ⟨decode_command [] rfl, fun s px hn => ⟨execRleEnc16_tooLarge hn, fun hfit hpx => ?_⟩⟩
  obtain ⟨w, hexec⟩ := execRleEnc16_of_pixels (fuPixels_eq_ok.mpr ⟨hfit, hn, hpx⟩)
  rw [bytesOf16_length, bytesOf16_eq_flatMap] at hexec
  exact ⟨_, hexec, rfl, storeFuOut_of_fits w, rfl⟩

/-! ### RLE_DEC8 and RLE_DEC16 -/

theorem execRleDec8_tooLarge (h : s.params.fuMax < s.fu.inLen.toNat) :
    execRleDec8 s = .refused (.bufferTooLarge s.fu.inLen.toNat) := by
  rw [execRleDec8, if_pos h, finishFu_refuse]

theorem execRleDec8_of_input {ps : List Byte} (hn : ps.length = s.fu.inLen.toNat) (hfit : ps.length ≤ s.params.fuMax)
    (hps : Memory.Holds s.fuIn 0 ps) :
    execRleDec8 s = finishFu s (fuDecoded s (rleDecode dequantize7 1 (ps.map unpack8) (RunDec.start .fu 0))) := by
  rw [execRleDec8, if_neg (by omega), readFuIn_eq_ok.mpr ⟨hn, hps⟩]
  rfl

theorem execRleDec16_tooLarge (h : s.params.fuMax < s.fu.inLen.toNat) :
    execRleDec16 s = .refused (.bufferTooLarge s.fu.inLen.toNat) := by
  rw [execRleDec16, if_pos h, finishFu_refuse]

theorem execRleDec16_odd (hfit : s.fu.inLen.toNat ≤ s.params.fuMax) (hodd : s.fu.inLen.toNat % 2 = 1) :
    execRleDec16 s = .next (fuError .payloadMismatch s) := by
  rw [execRleDec16, if_neg (Nat.not_lt.mpr hfit), if_pos hodd]
  rfl

theorem length_flatMap_be16 (ps : List (BitVec 16)) : (ps.flatMap be16).length = 2 * ps.length := by
  simp [List.length_flatMap, Nat.mul_comm]

theorem execRleDec16_of_input {ps : List (BitVec 16)} (hn : 2 * ps.length = s.fu.inLen.toNat)
    (hfit : 2 * ps.length ≤ s.params.fuMax) (hps : Memory.Holds s.fuIn 0 (ps.flatMap be16)) :
    execRleDec16 s = finishFu s (fuDecoded s (rleDecode dequantize15 2 (ps.map unpack16) (RunDec.start .fu 0))) := by
  rw [execRleDec16, if_neg (by omega), if_neg (by omega),
    readFuIn_eq_ok.mpr ⟨(length_flatMap_be16 ps).trans hn, hps⟩, ← packed16sOf_flatMap]
  rfl

/-- Settles O23: the input check, and then what the decoded input answers. -/
theorem rleDec8Result : Obligations.RleDec8Result := by
  refine ⟨decode_command [] rfl, fun s ps hn => ⟨fun hbig => ?_, fun hfit hps => ?_⟩⟩
  · rw [hn] at hbig ⊢
    exact execRleDec8_tooLarge hbig
  · exact finishFu_fuDecoded_result (execRleDec8_of_input hn hfit hps)

/-- Settles O24: the input check, the odd length, and then what the decoded input answers. -/
theorem rleDec16Result : Obligations.RleDec16Result :=
  ⟨decode_command [] rfl, fun _ => ⟨execRleDec16_tooLarge, execRleDec16_odd, fun _ hn hfit hps =>
    finishFu_fuDecoded_result (execRleDec16_of_input hn hfit hps)⟩⟩

/-! ### The decode commands and their packed values as instructions -/

/-- A decode command whose input decodes as its packed values run leaves the pixels and the registers of that run. -/
theorem finishFu_fuDecoded_of_run {t : State} {d : RunDec} {answer : Result} (hr : answer = finishFu s (fuDecoded s (.ok d)))
    (ht : t = { s with work := { s.work with runDec := d } }) (hfit : 3 * t.work.runDec.out.length ≤ s.params.fuMax) :
    ∃ u, answer = .next u ∧ u.fu.fuOut = Memory.ofList 0 (pixelBytes t.work.runDec.out) ∧ u.fu.err = 0#8 ∧
      u.work = t.work := by
  subst ht
  exact ⟨_, hr.trans (finishFu_fuDecoded_fits hfit), rfl, rfl, rfl⟩

/-- Settles O7: the packed values run to the registers that decoding them answers, and the command stores their pixels. -/
theorem rleDecodeRunsThePackedValues : Obligations.RleDecodeRunsThePackedValues := by
  refine ⟨fun s t ps hn hfit hps hhead hrun hout => ?_, fun s t ps hn hfit hps hhead hrun hout => ?_⟩
  · obtain ⟨d, hd, ht⟩ := runAll_from_start exec_decodePacked8 (fun p hp => unpack8_of_lt (hhead p hp)) hrun
    exact finishFu_fuDecoded_of_run (hd ▸ execRleDec8_of_input hn hfit hps) ht hout
  · obtain ⟨d, hd, ht⟩ := runAll_from_start exec_decodePacked16 (fun p hp => unpack16_of_lt (hhead p hp)) hrun
    exact finishFu_fuDecoded_of_run (hd ▸ execRleDec16_of_input hn hfit hps) ht hout

end Sys2Proof.Machine
end

section
/-! PROOFS. The frame records as READ_FRAME runs them (43_frame_codecs.md): what each read rule answers on the bytes that
the stream holds, and what the record then leaves. -/

namespace Sys2Proof.Machine

variable {s : State} {rec size N : Nat}

/-! ### A record whose read rule has answered -/

theorem exec_record_of_ready (hr : FrameReady s) (ft : FrameType) (size : BitVec 32) :
    exec (ft.record size) s = finishFrame s size.toNat (readRule ft s size.toNat) := by
  rw [exec_record, whenFrameReady_of_ready hr]

theorem exec_readFrame_of_prefixAt {ft : FrameType} {size : BitVec 32} (hr : FrameReady s)
    (hp : PrefixAt s s.dec.cursor.toNat ft size) :
    exec .readFrame s = finishFrame s size.toNat (readRule ft s size.toNat) := by
  change execReadFrame s = _
  rw [execReadFrame, whenFrameReady_of_ready hr, fetchRecord_eq_ok.mpr hp]

theorem finishFrame_raise (k : ErrKind) (o : Nat) :
    finishFrame s size (.error (.raise k o)) = .next { s with dec := s.dec.faulted k.code o } := rfl

theorem finishFrame_ok (f : FrameRead) :
    finishFrame s size (.ok f) =
      .next { s with dec := s.dec.delivered f.frame f.short size, work := f.work } := rfl

/-- A record whose read rule raises an error faults DEC. -/
theorem exec_record_raise {ft : FrameType} {size : BitVec 32} {k : ErrKind} {o : Nat} (hr : FrameReady s)
    (h : readRule ft s size.toNat = .error (.raise k o)) :
    exec (ft.record size) s = .next { s with dec := s.dec.faulted k.code o } := by
  rw [exec_record_of_ready hr, h, finishFrame_raise]

/-- A record whose read rule returns a frame delivers it. -/
theorem exec_record_ok {ft : FrameType} {size : BitVec 32} {f : FrameRead} (hr : FrameReady s)
    (h : readRule ft s size.toNat = .ok f) :
    exec (ft.record size) s =
      .next { s with dec := s.dec.delivered f.frame f.short size.toNat, work := f.work } := by
  rw [exec_record_of_ready hr, h, finishFrame_ok]

/-! ### RAW (43 R143) -/

theorem rawRead_tooLong (h : 3 * N < size) : rawRead s rec size N = .error (.raise .payloadMismatch rec) := if_pos h

/-- The bytes that exist make `px`, and one or two more make no pixel. -/
theorem rawRead_of_bytes {px : List Color} {tail : List Byte} (hsize : size ≤ 3 * N)
    (hbytes : Memory.Holds s.dstream (rec + 5) (pixelBytes px ++ tail)) (htail : tail.length < 3)
    (hlen : 3 * px.length + tail.length = min size (s.dlen - (rec + 5))) :
    rawRead s rec size N =
      .ok { frame := px, short := decide (3 * px.length + tail.length < 3 * N), work := s.work } := by
  have hwhole : 3 * ((3 * px.length + tail.length) / 3) = 3 * px.length := by omega
  have hread : memRead s (rec + 5) (3 * px.length) = .ok (pixelBytes px) :=
    memRead_eq_ok.mpr ⟨pixelBytes_length px, (Memory.holds_append.mp hbytes).1⟩
  rw [rawRead, if_neg (by omega), ← hlen]
  simp [hwhole, hread, Except.map, shortFlag]

/-- Settles O29: the size check, and then the whole pixels among the bytes that exist. -/
theorem rawRecordDelivers : Obligations.RawRecordDelivers := by
  intro s size px tail hr
  exact ⟨fun hlong => exec_record_raise (ft := .raw) hr (rawRead_tooLong hlong),
    fun hsize _ hbytes htail hlen => exec_record_ok (ft := .raw) hr (rawRead_of_bytes hsize hbytes htail hlen)⟩

/-! ### REPEATED (43 R151) -/

theorem repeatedRead_of_payload (h : size ≠ 0) :
    repeatedRead s rec size = .error (.raise .payloadMismatch rec) := if_pos h

theorem repeatedRead_of_none (h : s.dec.lastValid = false) :
    repeatedRead s rec 0 = .error (.raise .noPreviousFrame rec) := by
  rw [repeatedRead, if_neg (not_not.mpr rfl), if_pos h]

theorem repeatedRead_of_valid (h : s.dec.lastValid = true) :
    repeatedRead s rec 0 = .ok { frame := s.dec.lastFrame, short := false, work := s.work } := by
  rw [repeatedRead, if_neg (not_not.mpr rfl), if_neg (by simp [h])]

/-- Settles O34: the size is judged before LAST_VALID. -/
theorem repeatedRecordDelivers : Obligations.RepeatedRecordDelivers := by
  intro s size hr
  refine ⟨fun hne => ?_, ?_, ?_⟩
  · exact exec_record_raise (ft := .repeated) hr (repeatedRead_of_payload (BitVec.toNat_ne.mp hne))
  · rintro rfl hlast
    exact exec_record_raise (ft := .repeated) (size := 0#32) hr (repeatedRead_of_none hlast)
  · rintro rfl hlast
    exact exec_record_ok (ft := .repeated) (size := 0#32) hr (repeatedRead_of_valid hlast)

/-! ### COLOR_MAPPED (43 R145) -/

section colorMapped
variable {P : Byte} {pal : List Color} {idx : List Byte} {a : Nat}

/-- Indices below the palette's length name colours. -/
theorem exists_indexed_frame (h : ∀ k ∈ idx, k.toNat < pal.length) :
    ∃ frame : List Color, idx.map (fun k => pal[k.toNat]?) = frame.map some := by
  refine ⟨idx.map fun k => pal.getD k.toNat ⟨0#8, 0#8, 0#8⟩, ?_⟩
  rw [List.map_map]
  refine List.map_congr_left fun k hk => ?_
  simp [List.getD, h k hk]

/-- Whatever the byte after the indices answers ends a frame that is not complete. -/
theorem readIndexed_stop {e : Stop} (hidx : ∀ k ∈ idx, k.toNat < pal.length) (hst : StreamAt s a idx)
    (hlen : idx.length < N) (he : ∀ n, readIndexed s pal (a + idx.length) (n + 1) = .error e) :
    readIndexed s pal a N = .error e := by
  obtain ⟨frame, hframe⟩ := exists_indexed_frame hidx
  obtain ⟨n, rfl⟩ : ∃ n, N = idx.length + (n + 1) := ⟨N - idx.length - 1, by omega⟩
  rw [readIndexed_append idx frame (n + 1) hst hframe, he n]
  rfl

theorem readIndexed_cut (h : s.dlen < a + 1) (n : Nat) :
    readIndexed s pal a (n + 1) = .error (.raise .truncatedRead a) := by
  rw [readIndexed, getU8_past h]
  rfl

theorem readIndexed_bad {bad : Byte} (hst : StreamAt s a [bad]) (hbad : pal.length ≤ bad.toNat) (n : Nat) :
    readIndexed s pal a (n + 1) = .error (.raise .badPaletteIndex a) := by
  rw [readIndexed, getU8_eq_ok.mpr hst]
  simp [bind, Except.bind, List.getElem?_eq_none hbad]

theorem readIndexed_whole {frame : List Color} (hst : StreamAt s a idx)
    (hframe : idx.map (fun k => pal[k.toNat]?) = frame.map some) : readIndexed s pal a idx.length = .ok frame := by
  have h := readIndexed_append idx frame 0 hst hframe
  rw [Nat.add_zero] at h
  rw [h, readIndexed]
  simp [Except.map]

theorem readPalette_whole (hst : StreamAt s a (pixelBytes pal)) : readPalette s a pal.length = .ok pal := by
  have h := readPalette_append pal 0 hst
  rw [Nat.add_zero] at h
  rw [h, readPalette]
  simp [Except.map]

theorem readPalette_cut {n : Nat} (hst : StreamAt s a (pixelBytes pal)) (hlen : pal.length < n)
    (hcut : s.dlen < a + 3 * pal.length + 3) :
    readPalette s a n = .error (.raise .truncatedRead (a + 3 * pal.length)) := by
  obtain ⟨k, rfl⟩ : ∃ k, n = pal.length + (k + 1) := ⟨n - pal.length - 1, by omega⟩
  rw [readPalette_append pal (k + 1) hst, readPalette, getColor_past hcut]
  rfl

theorem cmapRead_empty (s : State) (rec N : Nat) : cmapRead s rec 0 N = .error (.raise .payloadMismatch rec) := rfl

theorem cmapRead_noPaletteSize (hsize : 0 < size) (hcut : s.dlen ≤ rec + 5) :
    cmapRead s rec size N = .error (.raise .truncatedRead (rec + 5)) := by
  rw [cmapRead, if_neg (by omega), getU8_past (by omega)]
  rfl

theorem cmapRead_wrongSize (hsize : 0 < size) (hP : StreamAt s (rec + 5) [P]) (hne : size ≠ 1 + 3 * P.toNat + N) :
    cmapRead s rec size N = .error (.raise .payloadMismatch rec) := by
  rw [cmapRead, if_neg (by omega), getU8_eq_ok.mpr hP]
  exact if_pos hne

/-- Where the size fits the palette size and the resolution, the palette is read and then the indices. -/
theorem cmapRead_of_size (hsize : size = 1 + 3 * P.toNat + N) (hP : StreamAt s (rec + 5) [P]) :
    cmapRead s rec size N = (readPalette s (rec + 5 + 1) P.toNat).bind fun pal =>
      (readIndexed s pal (rec + 5 + 1 + 3 * P.toNat) N).bind fun frame =>
        .ok { frame := frame, short := false, work := { s.work with pal := pal } } := by
  rw [cmapRead, if_neg (by omega), getU8_eq_ok.mpr hP]
  exact if_neg (not_not.mpr hsize)

theorem cmapRead_cutPalette (hsize : size = 1 + 3 * P.toNat + N) (hlen : pal.length < P.toNat)
    (hst : StreamAt s (rec + 5) (P :: pixelBytes pal)) (hcut : s.dlen < rec + 5 + 1 + 3 * pal.length + 3) :
    cmapRead s rec size N = .error (.raise .truncatedRead (rec + 5 + 1 + 3 * pal.length)) := by
  obtain ⟨hP, hpal⟩ := streamAt_cons.mp hst
  rw [cmapRead_of_size hsize hP, readPalette_cut hpal hlen hcut]
  rfl

/-- With a whole palette the answer is that of the indices. -/
theorem cmapRead_of_palette (hsize : size = 1 + 3 * P.toNat + N) (hlen : pal.length = P.toNat)
    (hst : StreamAt s (rec + 5) (P :: pixelBytes pal)) :
    cmapRead s rec size N = (readIndexed s pal (rec + 5 + 1 + 3 * pal.length) N).bind fun frame =>
      .ok { frame := frame, short := false, work := { s.work with pal := pal } } := by
  obtain ⟨hP, hpal⟩ := streamAt_cons.mp hst
  rw [cmapRead_of_size hsize hP, ← hlen, readPalette_whole hpal]
  rfl

theorem cmapRead_stop {e : Stop} (hsize : size = 1 + 3 * P.toNat + N) (hlen : pal.length = P.toNat)
    (hst : StreamAt s (rec + 5) (P :: pixelBytes pal))
    (he : readIndexed s pal (rec + 5 + 1 + 3 * pal.length) N = .error e) : cmapRead s rec size N = .error e := by
  rw [cmapRead_of_palette hsize hlen hst, he]
  rfl

theorem cmapRead_ok {frame : List Color} (hsize : size = 1 + 3 * P.toNat + N) (hlen : pal.length = P.toNat)
    (hst : StreamAt s (rec + 5) (P :: pixelBytes pal))
    (hframe : readIndexed s pal (rec + 5 + 1 + 3 * pal.length) N = .ok frame) :
    cmapRead s rec size N = .ok { frame := frame, short := false, work := { s.work with pal := pal } } := by
  rw [cmapRead_of_palette hsize hlen hst, hframe]
  rfl

/-- A payload splits into its palette size with the palette, and the indices after it. -/
theorem streamAt_colorMapped :
    StreamAt s a (P :: pixelBytes pal ++ idx) ↔
      StreamAt s a (P :: pixelBytes pal) ∧ StreamAt s (a + 1 + 3 * pal.length) idx := by
  rw [streamAt_append, List.length_cons, pixelBytes_length,
    show a + (3 * pal.length + 1) = a + 1 + 3 * pal.length by omega]

end colorMapped

/-- Settles O31: palette size, palette and indices are read in this order, and the first of them that fails answers. -/
theorem colorMappedRecordDelivers : Obligations.ColorMappedRecordDelivers := by
  intro s size hr
  have raise {k : ErrKind} {o : Nat} := exec_record_raise (ft := .colorMapped) (size := size) (k := k) (o := o) hr
  have pos (hne : size ≠ 0#32) : 0 < size.toNat := Nat.pos_of_ne_zero (BitVec.toNat_ne.mp hne)
  refine ⟨?_, fun hne hcut => raise (cmapRead_noPaletteSize (pos hne) hcut),
    fun P hne hP hsize => raise (cmapRead_wrongSize (pos hne) hP hsize),
    fun P pal hsize hlen hst hcut => raise (cmapRead_cutPalette hsize hlen hst hcut),
    fun P pal idx hsize hlen hidx hst => ?_⟩
  · rintro rfl
    exact raise (cmapRead_empty s _ s.dec.header.pixels)
  obtain ⟨hpal, hst⟩ := streamAt_colorMapped.mp hst
  refine ⟨fun hshort hcut => ?_, fun bad hshort hbad hst' => ?_, fun frame hN hframe => ?_⟩
  · exact raise (cmapRead_stop hsize hlen hpal (readIndexed_stop hidx hst hshort (readIndexed_cut (by omega))))
  · exact raise (cmapRead_stop hsize hlen hpal (readIndexed_stop hidx hst hshort (readIndexed_bad hst' hbad)))
  · exact exec_record_ok (ft := .colorMapped) hr (cmapRead_ok hsize hlen hpal (hN ▸ readIndexed_whole hst hframe))

/-! ### QUANTIZED_8 and QUANTIZED_16 (43 R147, R149) -/

/-- The read rule that both widths share: `count` packed values, and then the check of the number of pixels. -/
def quantRead {n : Nat} (s : State) (fetchAt : Nat → Run (Packed n)) (deq : BitVec n → Color)
    (width rec N count : Nat) : Run FrameRead :=
  (quantLoop fetchAt deq width rec N count (RunDec.start .dec (rec + 5))).bind (quantFrame s rec N)

theorem q8Read_eq_quantRead :
    q8Read s rec size N = quantRead s (fun a => (getU8 s a).map unpack8) dequantize7 1 rec N size := rfl

theorem q16Read_odd (h : size % 2 = 1) : q16Read s rec size N = .error (.raise .payloadMismatch rec) := if_pos h

theorem q16Read_eq_quantRead (h : size % 2 = 0) :
    q16Read s rec size N = quantRead s (fun a => (getU16 s a).map unpack16) dequantize15 2 rec N (size / 2) :=
  if_neg (by omega)

section quantized
variable {n width count : Nat} {fetchAt : Nat → Run (Packed n)} {deq : BitVec n → Color} {ps : List (Packed n)}
  {d : RunDec}

theorem quantRead_malformed {a : Nat} (hf : ∀ i p, ps[i]? = some p → fetchAt (rec + 5 + width * i) = .ok p)
    (hlen : ps.length ≤ count) (hd : rleDecode deq width ps (RunDec.start .dec (rec + 5)) = .error a) :
    quantRead s fetchAt deq width rec N count = .error (.raise .malformedRun a) := by
  obtain ⟨k, rfl⟩ := Nat.exists_eq_add_of_le hlen
  rw [quantRead, quantLoop_malformed ps k rfl hf hd]
  rfl

theorem quantRead_tooMany (hf : ∀ i p, ps[i]? = some p → fetchAt (rec + 5 + width * i) = .ok p)
    (hlen : ps.length ≤ count) (hd : rleDecode deq width ps (RunDec.start .dec (rec + 5)) = .ok d)
    (hN : N < d.out.length) :
    quantRead s fetchAt deq width rec N count = .error (.raise .payloadMismatch rec) := by
  obtain ⟨k, rfl⟩ := Nat.exists_eq_add_of_le hlen
  rw [quantRead, quantLoop_tooMany ps k hf hd hN (Nat.zero_le N)]
  rfl

/-- The value after the ones that are there answers, when they make no more than a frame. -/
theorem quantRead_stop {e : Stop} (hf : ∀ i p, ps[i]? = some p → fetchAt (rec + 5 + width * i) = .ok p)
    (hlen : ps.length < count) (hd : rleDecode deq width ps (RunDec.start .dec (rec + 5)) = .ok d)
    (hN : d.out.length ≤ N) (he : fetchAt (rec + 5 + width * ps.length) = .error e) :
    quantRead s fetchAt deq width rec N count = .error e := by
  obtain ⟨k, rfl⟩ : ∃ k, count = ps.length + (k + 1) := ⟨count - ps.length - 1, by omega⟩
  obtain ⟨-, hoffset, -, -⟩ := rleDecode_eq_ok hd
  rw [quantRead, quantLoop_append ps (k + 1) hf hd hN, quantLoop, hoffset,
    show (RunDec.start .dec (rec + 5)).offset = rec + 5 from rfl, he]
  rfl

theorem quantRead_whole (hf : ∀ i p, ps[i]? = some p → fetchAt (rec + 5 + width * i) = .ok p)
    (hlen : ps.length = count) (hd : rleDecode deq width ps (RunDec.start .dec (rec + 5)) = .ok d)
    (hN : d.out.length ≤ N) : quantRead s fetchAt deq width rec N count = quantFrame s rec N d := by
  have hloop := quantLoop_append (rec := rec) ps 0 hf hd hN
  rw [Nat.add_zero, hlen] at hloop
  rw [quantRead, hloop, quantLoop]
  rfl

theorem quantFrame_tooFew (h : d.out.length < N) : quantFrame s rec N d = .error (.raise .payloadMismatch rec) :=
  if_pos (Nat.ne_of_lt h)

theorem quantFrame_full (h : d.out.length = N) :
    quantFrame s rec N d = .ok { frame := d.out, short := false, work := { s.work with runDec := d } } :=
  if_neg (not_not.mpr h)

/-- What a quantized record answers, in either width, on the packed values `ps` that the stream holds of it. -/
theorem finishFrame_quantRead {answer : Result}
    (hf : ∀ i p, ps[i]? = some p → fetchAt (rec + 5 + width * i) = .ok p)
    (hlen : ps.length ≤ count) (hanswer : answer = finishFrame s size (quantRead s fetchAt deq width rec N count)) :
    (∀ a, rleDecode deq width ps (RunDec.start .dec (rec + 5)) = .error a →
      answer = .next { s with dec := s.dec.faulted 5#8 a }) ∧
    (∀ d, rleDecode deq width ps (RunDec.start .dec (rec + 5)) = .ok d →
      (N < d.out.length → answer = .next { s with dec := s.dec.faulted 9#8 rec }) ∧
      (d.out.length ≤ N → ps.length < count →
        fetchAt (rec + 5 + width * ps.length) = .error (.raise .truncatedRead (rec + 5 + width * ps.length)) →
          answer = .next { s with dec := s.dec.faulted 1#8 (rec + 5 + width * ps.length) }) ∧
      (ps.length = count → d.out.length < N → answer = .next { s with dec := s.dec.faulted 9#8 rec }) ∧
      (ps.length = count → d.out.length = N →
        answer = .next { s with dec := s.dec.delivered d.out false size, work := { s.work with runDec := d } })) := by
  subst hanswer
  refine ⟨fun a hd => ?_, fun d hd => ⟨fun hN => ?_, fun hN hlt he => ?_, fun heq hN => ?_, fun heq hN => ?_⟩⟩
  · rw [quantRead_malformed hf hlen hd]
    rfl
  · rw [quantRead_tooMany hf hlen hd hN]
    rfl
  · rw [quantRead_stop hf hlt hd hN he]
    rfl
  · rw [quantRead_whole hf heq hd (Nat.le_of_lt hN), quantFrame_tooFew hN]
    rfl
  · rw [quantRead_whole hf heq hd (Nat.le_of_eq hN), quantFrame_full hN]
    rfl

end quantized

/-- Settles O32: QUANTIZED_8 reads one packed value from each byte. -/
theorem quantized8RecordDelivers : Obligations.Quantized8RecordDelivers := by
  intro s size ps hr hst hlen
  have hanswer := exec_record_of_ready hr .quantized8 size
  rw [readRule, q8Read_eq_quantRead] at hanswer
  obtain ⟨hmalformed, hdecoded⟩ := finishFrame_quantRead (fetch8_streamAt hst) (by simpa using hlen) hanswer
  refine ⟨hmalformed, fun d hd => ?_⟩
  obtain ⟨hmany, hcut, hfew, hexact⟩ := hdecoded d hd
  rw [List.length_map, Nat.one_mul] at hcut
  rw [List.length_map] at hfew hexact
  refine ⟨hmany, fun hN hlt hend => ?_, hfew, hexact⟩
  have hfault := hcut hN hlt (by rw [getU8_past (by omega)]; rfl)
  rwa [← hend] at hfault

/-- Settles O33: the odd size is judged first, and then QUANTIZED_16 reads one packed value from every two bytes. -/
theorem quantized16RecordDelivers : Obligations.Quantized16RecordDelivers := by
  intro s size hr
  refine ⟨fun hodd => exec_record_raise (ft := .quantized16) hr (q16Read_odd hodd), fun ps heven hst hlen => ?_⟩
  have hanswer := exec_record_of_ready hr .quantized16 size
  rw [readRule, q16Read_eq_quantRead heven] at hanswer
  obtain ⟨hmalformed, hdecoded⟩ :=
    finishFrame_quantRead (fetch16_streamAt hst) (by rw [List.length_map]; omega) hanswer
  refine ⟨hmalformed, fun d hd => ?_⟩
  obtain ⟨hmany, hcut, hfew, hexact⟩ := hdecoded d hd
  rw [List.length_map] at hcut hfew hexact
  refine ⟨hmany, fun hN hlt hend => ?_, fun hwhole => hfew (by omega), fun hwhole => hexact (by omega)⟩
  exact hcut hN (by omega) (by rw [getU16_past hend]; rfl)

end Sys2Proof.Machine
end

section
/-! PROOFS. The frame payloads as WRITE_FRAME makes them (43_frame_codecs.md R141, R152; 46_encoder.md R206): how long
they are, and that READ_FRAME reads each of them back. -/

namespace Sys2Proof.Machine

variable {s : State} {px : List Color} {work : Work}

/-! ### Payload sizes (43 R141) -/

@[simp] theorem rawWrite_payload_length (px : List Color) (work : Work) :
    (rawWrite px work).payload.length = 3 * px.length := pixelBytes_length px

@[simp] theorem cmapWrite_payload_length (px : List Color) (work : Work) :
    (cmapWrite px work).payload.length = 1 + 3 * (palette px).length + px.length := by
  simp only [cmapWrite, List.length_cons, List.length_append, pixelBytes_length, List.length_map]
  omega

theorem q8Write_payload (px : List Color) (work : Work) :
    (q8Write px work).payload = bytesOf8 (rleEncode 127 (px.map quantize7)) := rfl

theorem q16Write_payload (px : List Color) (work : Work) :
    (q16Write px work).payload = bytesOf16 (rleEncode 32767 (px.map quantize15)) := rfl

theorem q8Write_payload_length_le (px : List Color) (work : Work) : (q8Write px work).payload.length ≤ px.length := by
  rw [q8Write_payload, bytesOf8_length]
  simpa using rleEncode_length_le (maxRun := 127) (px.map quantize7)

theorem q16Write_payload_length_le (px : List Color) (work : Work) :
    (q16Write px work).payload.length ≤ 2 * px.length := by
  rw [q16Write_payload, bytesOf16_length]
  simpa using rleEncode_length_le (maxRun := 32767) (px.map quantize15)

theorem palette_length_le (px : List Color) : (palette px).length ≤ px.length :=
  (palette_length px).trans_le (List.toFinset_card_le px)

/-- What is selected is one of four records, COLOR_MAPPED only for fewer than 256 colours (46 R203). -/
theorem selectAndEncode_cases (q : BitVec 2) (px : List Color) (work : Work) :
    ((palette px).length ≤ 255 ∧ selectAndEncode q px work = cmapWrite px work) ∨
    selectAndEncode q px work = q8Write px work ∨ selectAndEncode q px work = q16Write px work ∨
    selectAndEncode q px work = rawWrite px work := by
  unfold selectAndEncode
  split_ifs with hpal
  · exact .inl ⟨by omega, rfl⟩
  · exact .inr (.inl rfl)
  · exact .inr (.inr (.inl rfl))
  · exact .inr (.inr (.inr rfl))

/-- A selected payload is no longer than a RAW one, or has a palette of at most 255 entries, no more than pixels. -/
theorem selectAndEncode_payload_length (q : BitVec 2) (px : List Color) (work : Work) :
    (selectAndEncode q px work).payload.length ≤ 3 * px.length ∨
    ∃ P ≤ 255, P ≤ px.length ∧ (selectAndEncode q px work).payload.length = 1 + 3 * P + px.length := by
  rcases selectAndEncode_cases q px work with ⟨hpal, hc⟩ | hc | hc | hc <;> rw [hc]
  · exact .inr ⟨_, hpal, palette_length_le px, cmapWrite_payload_length px work⟩
  · have := q8Write_payload_length_le px work
    exact .inl (by omega)
  · have := q16Write_payload_length_le px work
    exact .inl (by omega)
  · exact .inl (rawWrite_payload_length px work).le

theorem selectAndEncode_payload_fits (q : BitVec 2) (work : Work) (h : px.length ≤ 1431655765) :
    (selectAndEncode q px work).payload.length < 2 ^ 32 := by
  rcases selectAndEncode_payload_length q px work with hl | ⟨P, hP, -, hl⟩ <;> omega

/-- Settles O46: the length of each payload, and from them the two bounds on the selected one. -/
theorem payloadSizesFit : Obligations.PayloadSizesFit := by
  intro px work
  refine ⟨rawWrite_payload_length px work, cmapWrite_payload_length px work, palette_length_le px, fun hcard => ?_,
    q8Write_payload_length_le px work, q16Write_payload_length_le px work, rfl,
    fun q => selectAndEncode_payload_fits q work, fun q hN => ?_⟩
  · rw [palette_length]
    omega
  · rw [rawWrite_payload_length]
    rcases selectAndEncode_payload_length q px work with hl | ⟨P, hP, -, hl⟩ <;> omega

/-! ### Reading a written payload (43 R152) -/

/-- The read rule of the record `f` at D_CURSOR returns the view of `px`, whole (46 R206). -/
def ReadsBack (s : State) (f : FrameWrite) (px : List Color) : Prop :=
  ∃ w, readRule f.frameType s f.payload.length = .ok { frame := viewOf f.frameType px, short := false, work := w }

theorem rawWrite_readsBack (hN : px.length = s.dec.header.pixels)
    (hst : StreamAt s (s.dec.cursor.toNat + 5) (rawWrite px work).payload) : ReadsBack s (rawWrite px work) px := by
  obtain ⟨hbytes, hend⟩ := hst
  rw [rawWrite_payload_length] at hend
  have hread := rawRead_of_bytes (px := px) (tail := []) (size := 3 * px.length) (N := px.length) le_rfl
    (by rw [List.append_nil]; exact hbytes) (by decide) (by rw [List.length_nil]; omega)
  refine ⟨s.work, ?_⟩
  rw [rawWrite_payload_length]
  simpa [readRule, rawWrite, viewOf, ← hN] using hread

/-- The indices that COLOR_MAPPED writes name the colours of the pixels. -/
theorem map_lookup_idxOf {pal : List Color} (hpal : pal.length ≤ 256) (hmem : ∀ c ∈ px, c ∈ pal) :
    (px.map fun c => BitVec.ofNat 8 (pal.idxOf c)).map (fun k => pal[k.toNat]?) = px.map some := by
  rw [List.map_map]
  refine List.map_congr_left fun c hc => ?_
  have hlt := List.idxOf_lt_length_of_mem (hmem c hc)
  have hk : (BitVec.ofNat 8 (pal.idxOf c)).toNat = pal.idxOf c := by
    rw [BitVec.toNat_ofNat, Nat.mod_eq_of_lt (by omega)]
  simp [hk, hlt]

theorem cmapWrite_readsBack (hpal : (palette px).length ≤ 255) (hN : px.length = s.dec.header.pixels)
    (hst : StreamAt s (s.dec.cursor.toNat + 5) (cmapWrite px work).payload) : ReadsBack s (cmapWrite px work) px := by
  have hP : (BitVec.ofNat 8 (palette px).length).toNat = (palette px).length := by
    rw [BitVec.toNat_ofNat, Nat.mod_eq_of_lt (by omega)]
  obtain ⟨hstPal, hstIdx⟩ := streamAt_colorMapped.mp hst
  have hframe := readIndexed_whole hstIdx
    (map_lookup_idxOf (by omega) fun c hc => ((palette_spec px).2 c).mpr hc)
  rw [List.length_map, hN] at hframe
  refine ⟨{ s.work with pal := palette px }, ?_⟩
  rw [cmapWrite_payload_length]
  exact cmapRead_ok (by rw [hP, hN]) hP.symm hstPal hframe

/-- The read rule of the quantized records undoes the run-length encoder, in either width. -/
theorem quantRead_rleEncode {n width maxRun rec N : Nat} {fetchAt : Nat → Run (Packed n)} {deq : BitVec n → Color}
    {vals : List (BitVec n)} (hm : maxRun < 2 ^ n) (hN : vals.length = N)
    (hf : ∀ i p, (rleEncode maxRun vals)[i]? = some p → fetchAt (rec + 5 + width * i) = .ok p) :
    ∃ w, quantRead s fetchAt deq width rec N (rleEncode maxRun vals).length =
      .ok { frame := vals.map deq, short := false, work := w } := by
  obtain ⟨d, hd, hout⟩ := rleDecode_rleEncode (deq := deq) (width := width) hm vals .dec (rec + 5)
  have hlen : d.out.length = N := by rw [hout, List.length_map, hN]
  exact ⟨_, by rw [quantRead_whole hf rfl hd hlen.le, quantFrame_full hlen, hout]⟩

theorem q8Read_rleEncode {vals : List (BitVec 7)} {rec N : Nat} (hN : vals.length = N)
    (hst : StreamAt s (rec + 5) (bytesOf8 (rleEncode 127 vals))) :
    ∃ w, q8Read s rec (rleEncode 127 vals).length N =
      .ok { frame := vals.map dequantize7, short := false, work := w } := by
  have hf := fetch8_streamAt hst
  rw [map_unpack8_bytesOf8] at hf
  exact quantRead_rleEncode (maxRun := 127) (by decide) hN hf

/-- The bytes of 16-bit packed values are those of their words. -/
theorem bytesOf16_eq_words (ps : List (Packed 15)) : bytesOf16 ps = (ps.map pack16).flatMap be16 := by
  rw [bytesOf16_eq_flatMap, List.flatMap_map]

theorem q16Read_rleEncode {vals : List (BitVec 15)} {rec N : Nat} (hN : vals.length = N)
    (hst : StreamAt s (rec + 5) (bytesOf16 (rleEncode 32767 vals))) :
    ∃ w, q16Read s rec (2 * (rleEncode 32767 vals).length) N =
      .ok { frame := vals.map dequantize15, short := false, work := w } := by
  rw [bytesOf16_eq_words] at hst
  have hf := fetch16_streamAt hst
  rw [← packed16sOf_flatMap, ← bytesOf16_eq_words, packed16sOf_bytesOf16] at hf
  rw [q16Read_eq_quantRead (by omega), Nat.mul_div_cancel_left _ (by decide)]
  exact quantRead_rleEncode (maxRun := 32767) (by decide) hN hf

theorem q8Write_readsBack (hN : px.length = s.dec.header.pixels)
    (hst : StreamAt s (s.dec.cursor.toNat + 5) (q8Write px work).payload) : ReadsBack s (q8Write px work) px := by
  obtain ⟨w, hread⟩ := q8Read_rleEncode ((List.length_map quantize7).trans hN) hst
  rw [List.map_map] at hread
  refine ⟨w, ?_⟩
  rw [q8Write_payload, bytesOf8_length]
  exact hread

theorem q16Write_readsBack (hN : px.length = s.dec.header.pixels)
    (hst : StreamAt s (s.dec.cursor.toNat + 5) (q16Write px work).payload) : ReadsBack s (q16Write px work) px := by
  obtain ⟨w, hread⟩ := q16Read_rleEncode ((List.length_map quantize15).trans hN) hst
  rw [List.map_map] at hread
  refine ⟨w, ?_⟩
  rw [q16Write_payload, bytesOf16_length]
  exact hread

/-! ### The selected record, whole (46 R206) -/

theorem selectAndEncode_readsBack (q : BitVec 2) (hN : px.length = s.dec.header.pixels)
    (hst : StreamAt s (s.dec.cursor.toNat + 5) (selectAndEncode q px work).payload) :
    ReadsBack s (selectAndEncode q px work) px := by
  rcases selectAndEncode_cases q px work with ⟨hpal, hc⟩ | hc | hc | hc <;> rw [hc] at hst ⊢
  · exact cmapWrite_readsBack hpal hN hst
  · exact q8Write_readsBack hN hst
  · exact q16Write_readsBack hN hst
  · exact rawWrite_readsBack hN hst

/-- The bytes of a record are its tag with its size and, five bytes on, its payload. -/
theorem streamAt_recordBytes {f : FrameWrite} {a : Nat} :
    StreamAt s a (recordBytes f) ↔
      PrefixAt s a f.frameType (BitVec.ofNat 32 f.payload.length) ∧ StreamAt s (a + 5) f.payload := by
  rw [recordBytes, ← List.cons_append, streamAt_append]
  rfl

/-- READ_FRAME on a whole record that reads back delivers the view of its frame. -/
theorem exec_readFrame_of_readsBack {f : FrameWrite} (hr : FrameReady s) (hfits : f.payload.length < 2 ^ 32)
    (hp : PrefixAt s s.dec.cursor.toNat f.frameType (BitVec.ofNat 32 f.payload.length)) (hback : ReadsBack s f px) :
    ∃ w, exec .readFrame s = .next { s with
      dec := s.dec.delivered (viewOf f.frameType px) false f.payload.length, work := w } := by
  obtain ⟨w, hread⟩ := hback
  have hsize : (BitVec.ofNat 32 f.payload.length).toNat = f.payload.length := by
    rw [BitVec.toNat_ofNat, Nat.mod_eq_of_lt hfits]
  refine ⟨w, ?_⟩
  rw [exec_readFrame_of_prefixAt hr hp, hsize, hread, finishFrame_ok]

/-- Settles O47: the payload fits its size field, and each of the four write rules reads back. -/
theorem writtenRecordReadsBack : Obligations.WrittenRecordReadsBack := by
  intro s px q work hr hN hmax hst
  obtain ⟨hhead, hpayload⟩ := streamAt_recordBytes.mp hst
  obtain ⟨w, hexec⟩ := exec_readFrame_of_readsBack hr (selectAndEncode_payload_fits q work hmax) hhead
    (selectAndEncode_readsBack q hN hpayload)
  exact ⟨_, hexec, rfl⟩

end Sys2Proof.Machine
end

section
/-! PROOFS. The header (44_header.md): WRITE_HEADER appends its 15 bytes at E_CURSOR, READ_HEADER parses them, and a
stream that is no header is reported at its magic or at the first field that does not fit. -/

namespace Sys2Proof.Machine

variable {s : State} {m : Magic} {h : Header} {a n : Nat}

/-! ### The bytes of a header (30 R60) -/

@[simp] theorem headerBytes_length (m : Magic) (h : Header) : (headerBytes m h).length = 15 := rfl

/-- The bytes of a header are MAGIC and, each at its own offset, the six fields. -/
theorem streamAt_headerBytes :
    StreamAt s 0 (headerBytes m h) ↔
      StreamAt s 0 m.bytes ∧ StreamAt s 4 [h.frameRate] ∧ StreamAt s 5 (be16 h.width) ∧ StreamAt s 7 (be16 h.height) ∧
        StreamAt s 9 [h.hscale] ∧ StreamAt s 10 [h.vscale] ∧ StreamAt s 11 (be32 h.frameCount) := by
  simp only [headerBytes, streamAt_append, and_assoc]
  rfl

/-- A u16 from the number its two bytes make (40 R91). -/
theorem ofNat_bytes16 (b1 b0 : Byte) : BitVec.ofNat 16 (b1.toNat * 256 + b0.toNat) = ofBe16 b1 b0 := by
  rw [← ofBe16_toNat, BitVec.ofNat_toNat, BitVec.setWidth_eq]

/-- A u32 from the number its four bytes make (40 R92). -/
theorem ofNat_bytes32 (b3 b2 b1 b0 : Byte) :
    BitVec.ofNat 32 (b3.toNat * 16777216 + b2.toNat * 65536 + b1.toNat * 256 + b0.toNat) = ofBe32 b3 b2 b1 b0 := by
  rw [← ofBe32_toNat, BitVec.ofNat_toNat, BitVec.setWidth_eq]

/-- Eleven bytes are the bytes of the header whose fields they assemble to (30 R61). -/
theorem headerBytes_ofBytes (m : Magic) (fr w1 w0 h1 h0 hs vs c3 c2 c1 c0 : Byte) :
    headerBytes m ⟨fr, ofBe16 w1 w0, ofBe16 h1 h0, hs, vs, ofBe32 c3 c2 c1 c0⟩ =
      m.bytes ++ [fr, w1, w0, h1, h0, hs, vs, c3, c2, c1, c0] := by
  simp only [headerBytes, be16_ofBe16, be32_ofBe32, List.append_assoc, List.cons_append, List.nil_append]

/-! ### WRITE_HEADER (44 R170) -/

theorem execWriteHeader_of_ne (hs : s.enc.state ≠ 0#2) :
    execWriteHeader s = .next (precheckEnc .protocolViolation s) := if_pos hs

/-- The state after WRITE_HEADER appended `bytes`. -/
def headerWritten (bytes : List Byte) (s : State) : State :=
  { s with enc := { putBytes bytes s.enc with state := 1#2, err := 0#8 } }

theorem execWriteHeader_of_created (hs : s.enc.state = 0#2) :
    execWriteHeader s = .next (headerWritten (headerBytes s.params.magic s.enc.header) s) := if_neg (not_not.mpr hs)

/-- What the append leaves: the bytes at E_CURSOR, every other byte as before, E_CURSOR past them. -/
theorem headerWritten_spec (bytes : List Byte) (s : State) :
    Memory.Holds (headerWritten bytes s).enc.estream s.enc.cursor.toNat bytes ∧
      Memory.SameOutside s.enc.estream (headerWritten bytes s).enc.estream s.enc.cursor.toNat bytes.length ∧
      headerWritten bytes s = { s with enc := { s.enc with
        estream := (headerWritten bytes s).enc.estream, cursor := s.enc.cursor + BitVec.ofNat 64 bytes.length,
        state := 1#2, err := 0#8 } } := by
  obtain ⟨hbytes, hothers, hcursor, -⟩ := putBytes_spec bytes s.enc
  rw [BitVec.ofNat_add, BitVec.ofNat_toNat, BitVec.setWidth_eq] at hcursor
  refine ⟨hbytes, hothers, ?_⟩
  rw [← hcursor]
  rfl

/-- Settles O25: the header is one append of 15 bytes, which leaves every byte outside them. -/
theorem writeHeaderResult : Obligations.WriteHeaderResult := by
  intro s
  refine ⟨execWriteHeader_of_ne, fun hs => ?_⟩
  obtain ⟨hbytes, hothers, hnext⟩ := headerWritten_spec (headerBytes s.params.magic s.enc.header) s
  rw [headerBytes_length] at hothers hnext
  exact ⟨_, execWriteHeader_of_created hs, hbytes, hothers, hnext⟩

/-! ### READ_HEADER (44 R171) -/

theorem execReadHeader_of_ne (hs : s.dec.state ≠ 0#2) :
    execReadHeader s = .next (precheckDec .protocolViolation s) := if_pos hs

theorem execReadHeader_of_parsed (hs : s.dec.state = 0#2) (hp : parseHeader s = .ok h) :
    execReadHeader s = .next { s with dec := { s.dec with
      header := h, headerSize := 15#64, fileSize := BitVec.ofNat 64 s.dlen, cursor := 15#64, frameIdx := 0#64,
      state := 1#2, err := 0#8 } } := by
  rw [execReadHeader, if_neg (not_not.mpr hs), hp]

theorem execReadHeader_of_raise {k : ErrKind} {o : Nat} (hs : s.dec.state = 0#2)
    (hp : parseHeader s = .error (.raise k o)) :
    execReadHeader s = .next { s with dec := s.dec.faulted k.code o } := by
  rw [execReadHeader, if_neg (not_not.mpr hs), hp]
  rfl

theorem checkMagic_short (hd : s.dlen < 4) : checkMagic s = .error (.raise .invalidMagic 0) := if_pos hd

/-- The compare, once its four bytes are read. -/
theorem checkMagic_of_bytes {bytes : List Byte} (hd : 4 ≤ s.dlen) (hr : memRead s 0 4 = .ok bytes) :
    checkMagic s = if bytes ≠ s.params.magic.bytes then .error (.raise .invalidMagic 0) else .ok () := by
  rw [checkMagic, if_neg (Nat.not_lt.mpr hd), hr]
  rfl

theorem checkMagic_of_streamAt (hm : StreamAt s 0 s.params.magic.bytes) : checkMagic s = .ok () := by
  obtain ⟨hbytes, hd⟩ := hm
  rw [checkMagic_of_bytes hd (memRead_eq_ok.mpr ⟨rfl, hbytes⟩), if_neg (not_not.mpr rfl)]

theorem parseHeader_of_checkMagic_error {e : Stop} (hc : checkMagic s = .error e) : parseHeader s = .error e := by
  rw [parseHeader, hc]
  rfl

/-- The bytes of a header parse to that header. -/
theorem parseHeader_of_streamAt (hst : StreamAt s 0 (headerBytes s.params.magic h)) : parseHeader s = .ok h := by
  obtain ⟨hmagic, hfr, hw, hh, hhs, hvs, hfc⟩ := streamAt_headerBytes.mp hst
  rw [parseHeader, checkMagic_of_streamAt hmagic, getU8_eq_ok.mpr hfr, getU16_eq_ok.mpr hw, getU16_eq_ok.mpr hh,
    getU8_eq_ok.mpr hhs, getU8_eq_ok.mpr hvs, getU32_eq_ok.mpr hfc]
  rfl

/-- Settles O26: the eleven bytes after MAGIC are those of the header whose fields they assemble to. -/
theorem readHeaderParses : Obligations.ReadHeaderParses := by
  intro s fr w1 w0 h1 h0 hs vs c3 c2 c1 c0 hstate hst
  simp only [ofNat_bytes16, ofNat_bytes32]
  refine execReadHeader_of_parsed hstate (parseHeader_of_streamAt ?_)
  rw [headerBytes_ofBytes]
  exact hst

/-- Settles O28: WRITE_HEADER at E_CURSOR 0 leaves the header's bytes from 0 on, and those bytes parse to it. -/
theorem headerRoundTrips : Obligations.HeaderRoundTrips := by
  intro s t d hs hcursor hwrite hmagic hd hlen hsame
  obtain rfl := Host.Outcome.next.inj ((execWriteHeader_of_created hs).symm.trans hwrite)
  obtain ⟨hwritten, -, -⟩ := headerWritten_spec (headerBytes s.params.magic s.enc.header) s
  rw [hcursor] at hwritten
  have hst : StreamAt d 0 (headerBytes d.params.magic s.enc.header) := by
    rw [hmagic]
    refine ⟨fun i hi => ?_, hlen⟩
    rw [hsame (0 + i) (by simpa using hi)]
    exact hwritten i hi
  exact ⟨_, execReadHeader_of_parsed hd (parseHeader_of_streamAt hst), rfl, rfl, rfl⟩

/-! ### A stream that is no header (44 R171, 60 R231) -/

/-- Every byte below DLEN was supplied, as every attached stream has it (20 R41). -/
def Supplied (s : State) : Prop := ∀ a < s.dlen, (Memory.read s.dstream a).isSome = true

theorem Supplied.read_ne_none (hs : Supplied s) (ha : a < s.dlen) : Memory.read s.dstream a ≠ none :=
  Option.isSome_iff_ne_none.mp (hs a ha)

/-- A load of a supplied stream stops only where its bytes pass DLEN. -/
theorem LoadStop.past_of_supplied {e : Stop} (he : LoadStop s a n e) (hs : Supplied s) : s.dlen < a + n := by
  rcases he with ⟨-, hpast⟩ | ⟨k, -, -, hk, hd, hnone⟩
  · exact hpast
  · exact absurd hnone (hs.read_ne_none (by omega))

theorem memRead_of_supplied (hs : Supplied s) (hd : a + n ≤ s.dlen) : ∃ bytes, memRead s a n = .ok bytes := by
  unfold memRead
  cases hr : Memory.readList s.dstream a n with
  | ok bytes => exact ⟨bytes, rfl⟩
  | error k =>
    obtain ⟨hnone, -, hk, -⟩ := Memory.readList_eq_error hr
    exact absurd hnone (hs.read_ne_none (by omega))

theorem checkMagic_differs (hs : Supplied s) (hd : 4 ≤ s.dlen)
    (hm : ¬ Memory.Holds s.dstream 0 s.params.magic.bytes) : checkMagic s = .error (.raise .invalidMagic 0) := by
  obtain ⟨bytes, hr⟩ := memRead_of_supplied (a := 0) (n := 4) hs hd
  rw [checkMagic_of_bytes hd hr, if_pos]
  rintro rfl
  exact hm (memRead_eq_ok.mp hr).2

/-- `r` is a load of `n` bytes at `a` from a supplied stream: TruncatedRead at `a` past DLEN, and a value below it. -/
def LoadsAt (s : State) (a n : Nat) {α : Type} (r : Run α) : Prop :=
  (s.dlen < a + n → r = .error (.raise .truncatedRead a)) ∧ (a + n ≤ s.dlen → ∃ v, r = .ok v)

theorem loadsAt_of_eq_error {α : Type} {r : Run α} (hs : Supplied s)
    (hpast : s.dlen < a + n → r = .error (.raise .truncatedRead a)) (herr : ∀ e, r = .error e → LoadStop s a n e) :
    LoadsAt s a n r := by
  refine ⟨hpast, fun hd => ?_⟩
  cases r with
  | ok v => exact ⟨v, rfl⟩
  | error e => exact absurd ((herr e rfl).past_of_supplied hs) (Nat.not_lt.mpr hd)

theorem loadsAt_getU8 (hs : Supplied s) : LoadsAt s a 1 (getU8 s a) :=
  loadsAt_of_eq_error hs getU8_past fun _ => getU8_eq_error

theorem loadsAt_getU16 (hs : Supplied s) : LoadsAt s a 2 (getU16 s a) :=
  loadsAt_of_eq_error hs getU16_past fun _ => getU16_eq_error

/-- A parse that goes on to a truncated field is TruncatedRead at the first field that does not fit. -/
theorem LoadsAt.bind_truncated {α β : Type} {r : Run α} {rest : α → Run β} {o : Nat} (hr : LoadsAt s a n r)
    (hrest : ∀ v, rest v = .error (.raise .truncatedRead o)) :
    (r >>= rest) = .error (.raise .truncatedRead (if s.dlen < a + n then a else o)) := by
  by_cases hd : s.dlen < a + n
  · rw [hr.1 hd, if_pos hd]
    rfl
  · obtain ⟨v, rfl⟩ := hr.2 (Nat.not_lt.mp hd)
    rw [if_neg hd]
    exact hrest v

/-- After the magic the fields are loaded in stream order, and below 15 bytes one of them does not fit. -/
theorem parseHeader_truncated (hs : Supplied s) (hc : checkMagic s = .ok ()) (hd : s.dlen < 15) :
    parseHeader s = .error (.raise .truncatedRead
      (if s.dlen < 5 then 4 else if s.dlen < 7 then 5 else if s.dlen < 9 then 7 else if s.dlen < 10 then 9
        else if s.dlen < 11 then 10 else 11)) := by
  rw [parseHeader, hc]
  refine (loadsAt_getU8 (a := 4) hs).bind_truncated fun frameRate => ?_
  refine (loadsAt_getU16 (a := 5) hs).bind_truncated fun width => ?_
  refine (loadsAt_getU16 (a := 7) hs).bind_truncated fun height => ?_
  refine (loadsAt_getU8 (a := 9) hs).bind_truncated fun hscale => ?_
  refine (loadsAt_getU8 (a := 10) hs).bind_truncated fun vscale => ?_
  rw [getU32_past hd]
  rfl

/-- Settles O27: the state is checked first, then the magic, then the length of each field in stream order. -/
theorem readHeaderErrors : Obligations.ReadHeaderErrors := by
  intro s
  refine ⟨execReadHeader_of_ne, fun hstate hs => ?_⟩
  refine ⟨fun hd => ?short, fun hd hm => ?differs, fun hd hcut hm => ?truncated⟩
  case short => exact execReadHeader_of_raise hstate (parseHeader_of_checkMagic_error (checkMagic_short hd))
  case differs => exact execReadHeader_of_raise hstate (parseHeader_of_checkMagic_error (checkMagic_differs hs hd hm))
  case truncated =>
    exact execReadHeader_of_raise hstate (parseHeader_truncated hs (checkMagic_of_streamAt ⟨hm, hd⟩) hcut)

end Sys2Proof.Machine
end

section
/-! PROOFS. The decoder commands (45_decoder.md): READ_FRAME runs the record at D_CURSOR, SKIP_FRAME and SEEK move over
records, and a record that cannot be fetched faults each of the three alike. -/

namespace Sys2Proof.Machine

variable {s : State} {a : Nat}

/-! ### Record fetch (45 R181) -/

theorem fetchRecord_noTag (h : s.dlen ≤ a) : fetchRecord s a = .error (.raise .truncatedRead a) := by
  rw [fetchRecord, getU8_past (by omega)]
  rfl

theorem fetchRecord_noSize {tag : Byte} (htag : StreamAt s a [tag]) (h : s.dlen < a + 5) :
    fetchRecord s a = .error (.raise .truncatedRead (a + 1)) := by
  rw [fetchRecord, getU8_eq_ok.mpr htag, getU32_past (by omega)]
  rfl

/-- The tag is judged only after the size is read. -/
theorem fetchRecord_unknownTag {tag b3 b2 b1 b0 : Byte} (hst : StreamAt s a [tag, b3, b2, b1, b0])
    (htag : frameTypeOf tag = none) : fetchRecord s a = .error (.raise .unknownFrameType a) := by
  obtain ⟨htagAt, hsize⟩ := streamAt_cons.mp hst
  simp [fetchRecord, getU8_eq_ok.mpr htagAt, getU32_of_bytes hsize, htag, bind, Except.bind]

/-- A load stops by an error or a fault, never by a refusal. -/
theorem LoadStop.ne_refuse {n : Nat} {why : Refusal} : ¬ LoadStop s a n (.refuse why) := by
  rintro (⟨h, -⟩ | ⟨k, h, -⟩)
  · cases h
  · cases h

theorem fetchRecord_ne_refuse (why : Refusal) : fetchRecord s a ≠ .error (.refuse why) := by
  intro h
  rcases fetchRecord_eq_error h with h | h | ⟨_, _, _, _, h⟩
  · exact LoadStop.ne_refuse h
  · exact LoadStop.ne_refuse h
  · cases h

/-! ### Skipping records (45 R186, R187) -/

theorem skipRecords_one {ft : FrameType} {size : BitVec 32} (hp : PrefixAt s a ft size) :
    skipRecords s 1 a = .ok (a + 5 + size.toNat) :=
  skipRecords_succ_ok.mpr ⟨ft, size, hp, skipRecords_zero⟩

/-- A skip stops where the first record it comes to cannot be fetched. -/
theorem skipRecords_stop {n : Nat} {e : Stop} (hn : 0 < n) (hf : fetchRecord s a = .error e) :
    skipRecords s n a = .error e := by
  obtain ⟨n, rfl⟩ := Nat.exists_eq_add_one.mpr hn
  rw [skipRecords, hf]
  rfl

/-- From record `j`, a skip to record `n` comes to every record `k` between them, and stops there if it cannot be fetched. -/
theorem RecordAt.skip_stop {j k n b : Nat} {e : Stop} (hj : RecordAt s j b) (hk : RecordAt s k a) (hjk : j ≤ k)
    (hkn : k < n) (hf : fetchRecord s a = .error e) : skipRecords s (n - j) b = .error e := by
  have hreach : skipRecords s (k - j) b = .ok a := hj.skip (by rwa [Nat.add_sub_cancel' hjk])
  rw [show n - j = (k - j) + (n - k) by omega, skipRecords_add hreach, skipRecords_stop (by omega) hf]

theorem recordAt_headerSize (hsize : s.dec.headerSize = 15#64) : RecordAt s 0 s.dec.headerSize.toNat := by
  rw [hsize]
  exact .first

/-! ### The commands that move the cursor -/

/-- What SKIP_FRAME and SEEK answer once their skip has run, `idx` being the index they move to. -/
def finishMove (s : State) (idx : Nat) : Run Nat → Result
  | .error stop => stopDec s stop
  | .ok cursor => .next (moveCursor cursor idx s)

theorem finishMove_raise (idx : Nat) (k : ErrKind) (o : Nat) :
    finishMove s idx (.error (.raise k o)) = .next { s with dec := s.dec.faulted k.code o } := rfl

theorem finishMove_ok (idx cursor : Nat) : finishMove s idx (.ok cursor) = .next (moveCursor cursor idx s) := rfl

theorem finishMove_skipRecords_notRefused (idx n : Nat) : NotRefused (finishMove s idx (skipRecords s n a)) := by
  intro why h
  cases hr : skipRecords s n a with
  | ok cursor =>
    rw [hr, finishMove_ok] at h
    cases h
  | error e =>
    obtain ⟨b, hb⟩ := skipRecords_eq_error hr
    rw [hr] at h
    cases e with
    | raise k o => cases h
    | fault f => cases h
    | refuse r => exact fetchRecord_ne_refuse r hb

theorem exec_skipFrame_of_headerRead (hs : s.dec.state = 1#2) :
    exec .skipFrame s = finishMove s (s.dec.frameIdx.toNat + 1) (skipRecords s 1 s.dec.cursor.toNat) := by
  change execSkipFrame s = _
  rw [execSkipFrame, whenHeaderRead_of_eq hs]
  rfl

theorem seekTarget_eq (d : Decoder) : seekTarget d = d.header.frameCount.toNat * d.progress.toNat / 2 ^ 31 :=
  Nat.shiftRight_eq_div_pow _ _

/-- A SEEK back skips from the first record. -/
theorem exec_seek_back (hs : s.dec.state = 1#2) (hback : seekTarget s.dec < s.dec.frameIdx.toNat) :
    exec .seek s =
      finishMove s (seekTarget s.dec) (skipRecords s (seekTarget s.dec - 0) s.dec.headerSize.toNat) := by
  change execSeek s = _
  rw [execSeek, whenHeaderRead_of_eq hs]
  simp only [decide_eq_true hback]
  rfl

/-- A SEEK forward, or to where DEC stands, skips from the cursor. -/
theorem exec_seek_forward (hs : s.dec.state = 1#2) (hfwd : s.dec.frameIdx.toNat ≤ seekTarget s.dec) :
    exec .seek s = finishMove s (seekTarget s.dec)
      (skipRecords s (seekTarget s.dec - s.dec.frameIdx.toNat) s.dec.cursor.toNat) := by
  change execSeek s = _
  rw [execSeek, whenHeaderRead_of_eq hs]
  simp only [decide_eq_false (Nat.not_lt.mpr hfwd)]
  rfl

/-! ### A record that cannot be fetched (45 R185, 60 R231) -/

theorem exec_readFrame_fetch_raise {k : ErrKind} {o : Nat} (hr : FrameReady s)
    (hf : fetchRecord s s.dec.cursor.toNat = .error (.raise k o)) :
    exec .readFrame s = .next { s with dec := s.dec.faulted k.code o } := by
  change execReadFrame s = _
  rw [execReadFrame, whenFrameReady_of_ready hr, hf]
  rfl

/-- Whichever frame command comes to a record that cannot be fetched, and after however many skips, only the stream error
is left of it. -/
theorem exec_of_comesToFetch {i : Instr} {k : ErrKind} {o : Nat} (hs : s.dec.state = 1#2) (hc : ComesToFetch s i a)
    (hf : fetchRecord s a = .error (.raise k o)) : exec i s = .next { s with dec := s.dec.faulted k.code o } := by
  rw [ComesToFetch, ← seekTarget_eq] at hc
  rcases hc with ⟨rfl, rfl⟩ | ⟨rfl, hpix, rfl⟩ | ⟨rfl, n, hrec, htarget, ⟨hback, hsize⟩ | ⟨hfwd, hcur⟩⟩
  · rw [exec_skipFrame_of_headerRead hs, skipRecords_stop Nat.one_pos hf, finishMove_raise]
  · exact exec_readFrame_fetch_raise ⟨hs, hpix⟩ hf
  · rw [exec_seek_back hs hback, (recordAt_headerSize hsize).skip_stop hrec (Nat.zero_le n) htarget hf,
      finishMove_raise]
  · rw [exec_seek_forward hs (by omega), hcur.skip_stop hrec hfwd htarget hf, finishMove_raise]

/-- Settles O36: the three ways the fetch fails, each of which every frame command that comes to it passes on. -/
theorem recordFetchErrors : Obligations.RecordFetchErrors := by
  intro s i a hs hc
  refine ⟨fun hend => ?noTag, fun tag htag hcut => ?noSize, fun tag b3 b2 b1 b0 hst htag => ?unknownTag⟩
  case noTag => exact exec_of_comesToFetch hs hc (fetchRecord_noTag hend)
  case noSize => exact exec_of_comesToFetch hs hc (fetchRecord_noSize htag hcut)
  case unknownTag => exact exec_of_comesToFetch hs hc (fetchRecord_unknownTag hst (frameTypeOf_eq_none.mpr htag))

/-! ### Moving the cursor (45 R186 to R188) -/

/-- Settles O38: a target behind the index is reached from record 0, any other from the record DEC stands at. -/
theorem seekReachesTheTarget : Obligations.SeekReachesTheTarget := by
  intro s off hs hsize hcur htarget
  rw [← seekTarget_eq] at htarget ⊢
  by_cases hback : seekTarget s.dec < s.dec.frameIdx.toNat
  · have hskip : skipRecords s (seekTarget s.dec - 0) s.dec.headerSize.toNat = .ok off :=
      (recordAt_headerSize hsize).skip (by rwa [Nat.sub_zero, Nat.zero_add])
    rw [exec_seek_back hs hback, hskip, finishMove_ok]
    rfl
  · have hfwd := Nat.not_lt.mp hback
    have hskip : skipRecords s (seekTarget s.dec - s.dec.frameIdx.toNat) s.dec.cursor.toNat = .ok off :=
      hcur.skip (by rwa [Nat.add_sub_cancel' hfwd])
    rw [exec_seek_forward hs hfwd, hskip, finishMove_ok]
    rfl

/-- Settles O37: the skip of one record reads its tag and its size only. -/
theorem skipFrameMovesPastRecord : Obligations.SkipFrameMovesPastRecord := by
  intro s ft size hs hp
  have hidx : BitVec.ofNat 64 (s.dec.frameIdx.toNat + 1) = s.dec.frameIdx + 1#64 := by
    rw [BitVec.ofNat_add, BitVec.ofNat_toNat, BitVec.setWidth_eq]
  rw [exec_skipFrame_of_headerRead hs, skipRecords_one hp, finishMove_ok, moveCursor, hidx]

/-! ### Running the record at D_CURSOR (45 R181 to R184) -/

/-- READ_FRAME at a valid tag and size is the record that they encode, in every state of DEC. -/
theorem exec_readFrame_eq_record {ft : FrameType} {size : BitVec 32} (hp : PrefixAt s s.dec.cursor.toNat ft size) :
    exec .readFrame s = exec (ft.record size) s := by
  rw [exec_record]
  change execReadFrame s = _
  rw [execReadFrame, fetchRecord_eq_ok.mpr hp]

/-- Settles O6: bytes that decode in the record space are the tag and the size of the record they decode to. -/
theorem readFrameRunsTheFetchedRecord : Obligations.ReadFrameRunsTheFetchedRecord := by
  intro s bytes i hst hdec
  rcases decode_eq_ok hdec with ⟨_, hsp, _⟩ | ⟨ft, size, -, rfl, rfl⟩ | ⟨_, hsp, _⟩ | ⟨_, hsp, _⟩
  · cases hsp
  · rw [List.append_nil] at hst
    exact exec_readFrame_eq_record hst
  · cases hsp
  · cases hsp

/-- Settles O30: READ_FRAME is the RAW record, and a whole payload leaves no byte over. -/
theorem readFrameDeliversRawRecord : Obligations.ReadFrameDeliversRawRecord := by
  intro s size px hr hsize hN hst
  obtain ⟨hprefix, hbytes, hend⟩ := streamAt_append.mp hst
  rw [List.length_cons, be32_length] at hbytes hend
  rw [pixelBytes_length] at hend
  obtain ⟨-, hdeliver⟩ := rawRecordDelivers s size px [] hr
  have hraw := hdeliver (by omega) (by omega) (by rwa [List.append_nil]) (by simp) (by simp; omega)
  have hwhole : decide (3 * px.length + ([] : List Byte).length < 3 * s.dec.header.pixels) = false := by simp [hN]
  rw [hwhole] at hraw
  exact (exec_readFrame_eq_record (ft := .raw) hprefix).trans hraw

/-! ### The state checks (45 R180, R189, 46 R205) -/

theorem exec_frameCommand_of_ne {i : Instr} (hs : s.dec.state ≠ 1#2)
    (hi : i ∈ [Instr.readFrame, Instr.skipFrame, Instr.seek]) :
    exec i s = .next (precheckDec .protocolViolation s) := by
  simp only [List.mem_cons, List.not_mem_nil, or_false] at hi
  rcases hi with rfl | rfl | rfl
  · exact whenHeaderRead_of_ne hs
  · exact whenHeaderRead_of_ne hs
  · exact whenHeaderRead_of_ne hs

theorem exec_skipFrame_notRefused (hs : s.dec.state = 1#2) : NotRefused (exec .skipFrame s) := by
  rw [exec_skipFrame_of_headerRead hs]
  exact finishMove_skipRecords_notRefused _ _

theorem exec_seek_notRefused (hs : s.dec.state = 1#2) : NotRefused (exec .seek s) := by
  by_cases hback : seekTarget s.dec < s.dec.frameIdx.toNat
  · rw [exec_seek_back hs hback]
    exact finishMove_skipRecords_notRefused _ _
  · rw [exec_seek_forward hs (Nat.not_lt.mp hback)]
    exact finishMove_skipRecords_notRefused _ _

/-- A frame command that HeaderRead does not refuse is never refused: the state check answers a next state. -/
theorem notRefused_of_headerRead {i : Instr} (hi : i ∈ [Instr.readFrame, Instr.skipFrame, Instr.seek])
    (h : s.dec.state = 1#2 → NotRefused (exec i s)) : NotRefused (exec i s) := by
  by_cases hs : s.dec.state = 1#2
  · exact h hs
  · intro why h
    rw [exec_frameCommand_of_ne hs hi] at h
    cases h

/-- Settles O35: the state is tested first, and a skip has nothing that the spec refuses. -/
theorem frameCommandStateCheck : Obligations.FrameCommandStateCheck := by
  intro s
  refine ⟨fun hs i hi => exec_frameCommand_of_ne hs hi, whenFrameReady_of_oversize, ?skip, ?seek⟩
  case skip => exact notRefused_of_headerRead (by simp) exec_skipFrame_notRefused
  case seek => exact notRefused_of_headerRead (by simp) exec_seek_notRefused

/-- Settles O41: each of the two commands has the one test of its state. -/
theorem closeCommands : Obligations.CloseCommands := by
  intro s
  refine ⟨fun hs => ?dcloseEnded, fun hclosed hfaulted => ?dclose, fun hs => ?ecloseEnded, fun hs => ?eclose⟩
  case dcloseEnded => exact if_pos hs
  case dclose => exact if_neg (not_or.mpr ⟨hclosed, hfaulted⟩)
  case ecloseEnded => exact if_pos hs
  case eclose => exact if_neg hs

end Sys2Proof.Machine
end

section
/-! PROOFS. WRITE_FRAME (46_encoder.md): the prechecks and their order, which record a frame is written as, and what its
append leaves in ENC. -/

namespace Sys2Proof.Machine

variable {s : State} {px : List Color}

/-! ### The prechecks (46 R201) -/

theorem execWriteFrame_of_ne (hs : s.enc.state ≠ 1#2) :
    execWriteFrame s = .next (precheckEnc .protocolViolation s) := if_pos hs

theorem execWriteFrame_of_quality (hs : s.enc.state = 1#2) (hq : s.enc.quality = 3#2) :
    execWriteFrame s = .next (precheckEnc .unsupportedQuality s) := by
  rw [execWriteFrame, if_neg (not_not.mpr hs), if_pos hq]

/-- Settles O43: the state is tested first, then the quality, and a failed precheck sets E_ERR alone. -/
theorem writeFramePrechecks : Obligations.WriteFramePrechecks :=
  fun _ => ⟨execWriteFrame_of_ne, execWriteFrame_of_quality⟩

/-! ### What a written frame leaves (46 R204) -/

/-- The end of WRITE_FRAME is one append of the record, with the frame taken as the previous one. -/
theorem completeWrite_wroteRecord (px : List Color) (f : FrameWrite) (s : State) :
    WroteRecord s (completeWrite px f s) f.frameType.code f.payload px := by
  obtain ⟨hbytes, hothers, hcursor, -⟩ := putBytes_spec (recordBytes f) s.enc
  have hlen : (recordBytes f).length = 5 + f.payload.length := by rw [recordBytes_length, Nat.add_comm]
  rw [hlen] at hothers hcursor
  rw [← Nat.add_assoc] at hcursor
  refine ⟨hbytes, hothers, ?_⟩
  rw [← hcursor]
  rfl

/-- A frame that ENC may write is written as the record `f` that is chosen for it. -/
theorem exec_writeFrame_of_choice {f : FrameWrite} (hr : WriteReady s px) (hf : chooseRecord s px = f) :
    exec .writeFrame s = .next (completeWrite px f s) := by
  rw [← hf]
  exact execWriteFrame_of_ready hr

/-! ### The repeated frame (46 R202) -/

theorem repeats_iff {e : Encoder} : repeats e px = true ↔ e.prevValid = true ∧ e.prevFrame = px := by
  rw [repeats, Bool.and_eq_true, decide_eq_true_iff]

theorem chooseRecord_of_repeat (h : s.enc.prevValid = true ∧ s.enc.prevFrame = px) :
    chooseRecord s px = repeatedWrite s.work := if_pos (repeats_iff.mpr h)

theorem chooseRecord_of_not_repeat (h : ¬ (s.enc.prevValid = true ∧ s.enc.prevFrame = px)) :
    chooseRecord s px = selectAndEncode s.enc.quality px s.work := if_neg (mt repeats_iff.mp h)

/-- Settles O44: the shortcut is taken before the quality is looked at. -/
theorem equalFrameIsRepeated : Obligations.EqualFrameIsRepeated := fun _ _ hr hvalid hprev =>
  ⟨_, exec_writeFrame_of_choice hr (chooseRecord_of_repeat ⟨hvalid, hprev⟩), completeWrite_wroteRecord _ _ _⟩

/-! ### The selection (46 R203) -/

theorem selectAndEncode_of_few (q : BitVec 2) (work : Work) (h : px.toFinset.card < 256) :
    selectAndEncode q px work = cmapWrite px work := by
  rw [← palette_length] at h
  exact if_pos h

/-- From 256 distinct colours on the quality alone chooses. -/
theorem selectAndEncode_of_many (q : BitVec 2) (work : Work) (h : 256 ≤ px.toFinset.card) :
    selectAndEncode q px work =
      if q = 0#2 then q8Write px work else if q = 1#2 then q16Write px work else rawWrite px work := by
  rw [← palette_length] at h
  exact if_neg (Nat.not_lt.mpr h)

/-! ### The payload of COLOR_MAPPED (43 R144) -/

/-- The palette of a longer frame ends with the last pixel's colour, if that is new. -/
theorem paletteFrom_concat (pal px : List Color) (c : Color) :
    paletteFrom pal (px ++ [c]) =
      if c ∈ paletteFrom pal px then paletteFrom pal px else paletteFrom pal px ++ [c] := by
  induction px generalizing pal with
  | nil => rfl
  | cons d ds ih => exact ih _

/-- The palette lists the colours in the order of their first pixels. -/
theorem palette_firstSeen (px : List Color) : (palette px).Pairwise fun c c' => px.idxOf c < px.idxOf c' := by
  induction px using List.reverseRecOn with
  | nil => exact .nil
  | append_singleton px c ih =>
    have hmem := (palette_spec px).2
    have hold {d : Color} (hd : d ∈ palette px) : (px ++ [c]).idxOf d = px.idxOf d :=
      List.idxOf_append_of_mem ((hmem d).mp hd)
    have hkept : (palette px).Pairwise fun d d' => (px ++ [c]).idxOf d < (px ++ [c]).idxOf d' :=
      ih.imp_of_mem fun hd hd' hlt => by rwa [hold hd, hold hd']
    rw [palette, paletteFrom_concat]
    split
    · exact hkept
    · next hc =>
      have hnew : (px ++ [c]).idxOf c = px.length := by
        rw [List.idxOf_append_of_notMem (mt (hmem c).mpr hc), List.idxOf_cons_self, Nat.add_zero]
      refine List.pairwise_append.mpr ⟨hkept, List.pairwise_singleton _ _, fun d hd d' hd' => ?_⟩
      rw [List.mem_singleton.mp hd', hnew, hold hd]
      exact List.idxOf_lt_length_of_mem ((hmem d).mp hd)

theorem cmapWrite_colorMappedPayload (work : Work) (h : px.toFinset.card < 256) :
    ColorMappedPayload px (cmapWrite px work).payload := by
  obtain ⟨hnodup, hmem⟩ := palette_spec px
  rw [← palette_length] at h
  exact ⟨palette px, _, rfl, by omega, hnodup, hmem, palette_firstSeen px,
    map_lookup_idxOf (by omega) fun c hc => (hmem c).mpr hc⟩

/-- Settles O45: the number of colours decides first, and each write rule's payload is the one the statement names. -/
theorem writeFrameSelectsRecord : Obligations.WriteFrameSelectsRecord := by
  intro s px hr hne
  have hchoice := chooseRecord_of_not_repeat hne
  refine ⟨_, exec_writeFrame_of_choice hr hchoice, fun hfew => ?few, fun hmany hq => ?q8, fun hmany hq => ?q16,
    fun hmany hq => ?raw⟩
  case few =>
    rw [selectAndEncode_of_few _ _ hfew]
    exact ⟨_, cmapWrite_colorMappedPayload s.work hfew, completeWrite_wroteRecord _ _ _⟩
  case q8 =>
    rw [selectAndEncode_of_many _ _ hmany, if_pos hq]
    exact completeWrite_wroteRecord px (q8Write px s.work) s
  case q16 =>
    rw [selectAndEncode_of_many _ _ hmany, if_neg (by rw [hq]; decide), if_pos hq, ← bytesOf16_eq_flatMap]
    exact completeWrite_wroteRecord px (q16Write px s.work) s
  case raw =>
    rw [selectAndEncode_of_many _ _ hmany, if_neg (by rw [hq]; decide), if_neg (by rw [hq]; decide),
      ← pixelBytes_eq_flatMap]
    exact completeWrite_wroteRecord px (rawWrite px s.work) s

end Sys2Proof.Machine
end

section
/-! PROOFS. Exceptions (60_exceptions.md): a stream error changes the error report and what it drops, and a DEC that has ended
is left by a reset alone. -/

namespace Sys2Proof.Machine

variable {s t : State} {i : Instr}

/-! ### The codes of the stream errors (60 R220, R231) -/

/-- The codes that a stream error latches. -/
def streamCodes : List (BitVec 8) := [1#8, 2#8, 4#8, 5#8, 6#8, 9#8, 10#8]

theorem readRule_raise_code {ft : FrameType} {size : Nat} {k : ErrKind} {o : Nat}
    (h : readRule ft s size = .error (.raise k o)) : k.code ∈ streamCodes := by
  have hk := readRule_eq_raise h
  simp only [List.mem_cons, List.not_mem_nil, or_false] at hk
  rcases hk with rfl | rfl | rfl | rfl | rfl <;> decide

theorem fetchRecord_raise_code {a : Nat} {k : ErrKind} {o : Nat} (h : fetchRecord s a = .error (.raise k o)) :
    k.code ∈ streamCodes := by
  rcases fetchRecord_eq_raise h with rfl | rfl <;> decide

theorem parseHeader_raise_code {k : ErrKind} {o : Nat} (h : parseHeader s = .error (.raise k o)) :
    k.code ∈ streamCodes := by
  rcases parseHeader_eq_raise h with rfl | rfl <;> decide

/-! ### Every instruction that faults DEC does so by a stream error (60 R231) -/

/-- If DEC is newly Faulted in `t`, then `t` is `s` after a stream error. -/
def FaultsPrecisely (s t : State) : Prop :=
  s.dec.state ≠ 3#2 → t.dec.state = 3#2 → ∃ k o, t = streamError k o s ∧ k.code ∈ streamCodes

theorem faultsPrecisely_streamError {k : ErrKind} (o : Nat) (hk : k.code ∈ streamCodes) :
    FaultsPrecisely s (streamError k o s) := fun _ _ => ⟨k, o, rfl, hk⟩

theorem faultsPrecisely_of_state_eq (h : t.dec.state = s.dec.state) : FaultsPrecisely s t :=
  fun hs ht => absurd (h.symm.trans ht) hs

theorem faultsPrecisely_of_state_ne (h : t.dec.state ≠ 3#2) : FaultsPrecisely s t := fun _ ht => absurd ht h

theorem exec_record_faultsPrecisely {ft : FrameType} {size : BitVec 32} (h : exec (ft.record size) s = .next t) :
    FaultsPrecisely s t := by
  rcases exec_record_eq_next h with ⟨-, rfl⟩ | ⟨-, f, -, rfl⟩ | ⟨-, k, o, hk, rfl⟩
  · exact faultsPrecisely_of_state_eq rfl
  · exact faultsPrecisely_of_state_eq rfl
  · exact faultsPrecisely_streamError o (readRule_raise_code hk)

theorem execReadHeader_faultsPrecisely (h : execReadHeader s = .next t) : FaultsPrecisely s t := by
  rcases execReadHeader_eq_next h with ⟨-, rfl⟩ | ⟨-, k, o, hk, rfl⟩ | ⟨-, hd, -, rfl⟩
  · exact faultsPrecisely_of_state_eq rfl
  · exact faultsPrecisely_streamError o (parseHeader_raise_code hk)
  · exact faultsPrecisely_of_state_ne (by simp)

theorem execReadFrame_faultsPrecisely (h : execReadFrame s = .next t) : FaultsPrecisely s t := by
  rcases execReadFrame_eq_next h with
    ⟨-, rfl⟩ | ⟨-, k, o, hk, rfl⟩ | ⟨-, ft, size, -, ⟨f, -, rfl⟩ | ⟨k, o, hk, rfl⟩⟩
  · exact faultsPrecisely_of_state_eq rfl
  · exact faultsPrecisely_streamError o (fetchRecord_raise_code hk)
  · exact faultsPrecisely_of_state_eq rfl
  · exact faultsPrecisely_streamError o (readRule_raise_code hk)

theorem execSkipFrame_faultsPrecisely (h : execSkipFrame s = .next t) : FaultsPrecisely s t := by
  rcases execSkipFrame_eq_next h with ⟨-, rfl⟩ | ⟨-, b, k, o, hk, rfl⟩ | ⟨-, ft, size, -, rfl⟩
  · exact faultsPrecisely_of_state_eq rfl
  · exact faultsPrecisely_streamError o (fetchRecord_raise_code hk)
  · exact faultsPrecisely_of_state_eq rfl

/-- However many records a SEEK skipped before the one it cannot fetch, the cursor and the index are the old ones. -/
theorem execSeek_faultsPrecisely (h : execSeek s = .next t) : FaultsPrecisely s t := by
  rcases execSeek_eq_next h with ⟨-, rfl⟩ | ⟨-, b, k, o, hk, rfl⟩ | ⟨-, n, a, b, -, -, rfl⟩
  · exact faultsPrecisely_of_state_eq rfl
  · exact faultsPrecisely_streamError o (fetchRecord_raise_code hk)
  · exact faultsPrecisely_of_state_eq rfl

theorem execDclose_faultsPrecisely (h : execDclose s = .next t) : FaultsPrecisely s t := by
  unfold execDclose at h
  split at h <;> cases h
  · exact faultsPrecisely_of_state_eq rfl
  · exact faultsPrecisely_of_state_ne (by simp)

/-- A packed value faults DEC only where it decodes a payload of DEC (60 R220). -/
theorem runPacked_faultsPrecisely {n : Nat} {deq : BitVec n → Color} {width : Nat} {p : Packed n}
    (h : runPacked deq width p s = .next t) : FaultsPrecisely s t := by
  rcases runPacked_eq_next h with ⟨d, -, rfl⟩ | ⟨-, rfl⟩
  · exact faultsPrecisely_of_state_eq rfl
  · unfold malformedRun
    split
    · exact faultsPrecisely_streamError _ (by decide)
    · exact faultsPrecisely_of_state_eq rfl

/-- ENC and FU commands leave DEC as it was. -/
theorem exec_keeps_dec
    (hi : i ∈ [Instr.writeHeader, .writeFrame, .eclose, .ereset] ∨
      i ∈ [Instr.quant7, .dequant7, .quant15, .dequant15, .rleEnc8, .rleDec8, .rleEnc16, .rleDec16])
    (h : exec i s = .next t) : t.dec = s.dec := by
  rcases hi with hi | hi
  · obtain ⟨_, _, rfl⟩ := exec_encCommand_changesOnlyEnc hi h
    rfl
  · obtain ⟨_, _, _, rfl⟩ := exec_fuCommand_changesOnlyFu hi h
    rfl

theorem exec_faultsPrecisely (h : exec i s = .next t) : FaultsPrecisely s t := by
  cases i with
  | raw size => exact exec_record_faultsPrecisely (ft := .raw) h
  | colorMapped size => exact exec_record_faultsPrecisely (ft := .colorMapped) h
  | quantized16 size => exact exec_record_faultsPrecisely (ft := .quantized16) h
  | quantized8 size => exact exec_record_faultsPrecisely (ft := .quantized8) h
  | repeated size => exact exec_record_faultsPrecisely (ft := .repeated) h
  | lit8 r g b => exact runPacked_faultsPrecisely (deq := dequantize7) (p := .lit (join7 r g b)) h
  | run8 c => exact runPacked_faultsPrecisely (deq := dequantize7) (p := .run c) h
  | lit16 r g b => exact runPacked_faultsPrecisely (deq := dequantize15) (p := .lit (join15 r g b)) h
  | run16 c => exact runPacked_faultsPrecisely (deq := dequantize15) (p := .run c) h
  | readHeader => exact execReadHeader_faultsPrecisely h
  | readFrame => exact execReadFrame_faultsPrecisely h
  | skipFrame => exact execSkipFrame_faultsPrecisely h
  | seek => exact execSeek_faultsPrecisely h
  | dclose => exact execDclose_faultsPrecisely h
  | reset | dreset => cases h; exact faultsPrecisely_of_state_ne (by simp [Decoder.reset])
  | writeHeader | writeFrame | eclose | ereset
  | quant7 | dequant7 | quant15 | dequant15 | rleEnc8 | rleDec8 | rleEnc16 | rleDec16 =>
    exact faultsPrecisely_of_state_eq (congrArg Decoder.state (exec_keeps_dec (by simp) h))

/-- Settles O39: DEC becomes Faulted by a stream error alone, which is `Decoder.faulted` and nothing else. -/
theorem streamErrorIsPrecise : Obligations.StreamErrorIsPrecise := by
  intro i s t h hs ht
  obtain ⟨k, o, rfl, hk⟩ := exec_faultsPrecisely h hs ht
  exact ⟨k.code, o, streamError_eq k o s, hk⟩

/-! ### Closed and Faulted (60 R232, R233) -/

/-- DEC is Closed or Faulted. -/
abbrev Decoder.Ended (d : Decoder) : Prop := d.state = 2#2 ∨ d.state = 3#2

theorem Decoder.Ended.state_ne {d : Decoder} (h : d.Ended) : d.state ≠ 0#2 ∧ d.state ≠ 1#2 := by
  rcases h with h | h <;> rw [h] <;> decide

/-- The commands of DEC but DRESET. -/
abbrev decCommands : List Instr := [.readHeader, .readFrame, .skipFrame, .seek, .dclose]

theorem exec_decCommand_of_ended (hs : s.dec.Ended) (hi : i ∈ decCommands) :
    exec i s = .next (precheckDec .protocolViolation s) := by
  obtain ⟨hcreated, hheader⟩ := hs.state_ne
  simp only [List.mem_cons, List.not_mem_nil, or_false] at hi
  rcases hi with rfl | rfl | rfl | rfl | rfl
  · exact execReadHeader_of_ne hcreated
  · exact exec_frameCommand_of_ne hheader (by simp)
  · exact exec_frameCommand_of_ne hheader (by simp)
  · exact exec_frameCommand_of_ne hheader (by simp)
  · exact (closeCommands s).1 hs

/-- D_STATE and D_ERR_OFFSET are in `t` what they are in `s`. -/
abbrev KeepsEnd (s t : State) : Prop := t.dec.state = s.dec.state ∧ t.dec.errOffset = s.dec.errOffset

theorem keepsEnd_of_dec_eq (h : t.dec = s.dec) : KeepsEnd s t := by
  rw [KeepsEnd, h]
  exact ⟨rfl, rfl⟩

theorem execCommand_keepsEnd (hs : s.dec.Ended) (hspace : i.space = .command) (hreset : i ≠ .reset)
    (hdreset : i ≠ .dreset) (h : exec i s = .next t) : KeepsEnd s t := by
  cases i with
  | raw _ | colorMapped _ | quantized16 _ | quantized8 _ | repeated _ | lit8 _ _ _ | run8 _ | lit16 _ _ _ | run16 _ =>
    cases hspace
  | reset => exact absurd rfl hreset
  | dreset => exact absurd rfl hdreset
  | readHeader | readFrame | skipFrame | seek | dclose =>
    cases (exec_decCommand_of_ended hs (by simp)).symm.trans h
    exact ⟨rfl, rfl⟩
  | writeHeader | writeFrame | eclose | ereset
  | quant7 | dequant7 | quant15 | dequant15 | rleEnc8 | rleDec8 | rleEnc16 | rleDec16 =>
    exact keepsEnd_of_dec_eq (exec_keeps_dec (by simp) h)

/-- D_PROGRESS is the one register of DEC that the host writes (10 R20). -/
theorem hostAccess_keepsEnd {m : HostMove} (h : hostAccess m s = .next t) : KeepsEnd s t := by
  rcases hostAccess_eq_next h with ⟨n, v, -, rfl⟩ | ⟨v, rfl⟩ | ⟨v, rfl⟩ | ⟨_, _, -, -, rfl⟩ | ⟨_, _, -, -, rfl⟩ |
    ⟨_, -, -, -, rfl⟩
  · rcases writeRegister_cases (s := s) n v with hw | ⟨_, hw⟩ | ⟨_, hw⟩ | ⟨-, _, hw⟩ | ⟨_, _, _, hw⟩ <;>
      rw [hw] <;> exact ⟨rfl, rfl⟩
  all_goals exact ⟨rfl, rfl⟩

/-! ### The codes of the DEC commands (30 R75) -/

theorem toNat_of_decodeCommand {v : BitVec 64} {code : Byte} (h : decodeCommand (v.setWidth 8) = .ok i)
    (hcode : encode i = [code]) : v.toNat % 256 = code.toNat := by
  have heq : code = v.setWidth 8 := by simpa [hcode] using encode_of_decodeCommand h
  rw [heq, BitVec.toNat_setWidth]

theorem decodeCommand_decCommands {code : Byte} (hlo : 0x10 ≤ code.toNat) (hhi : code.toNat ≤ 0x14) :
    ∃ i ∈ decCommands, decodeCommand code = .ok i := by
  have hcode : code = 0x10#8 ∨ code = 0x11#8 ∨ code = 0x12#8 ∨ code = 0x13#8 ∨ code = 0x14#8 := by bv_omega
  rcases hcode with rfl | rfl | rfl | rfl | rfl
  · exact ⟨.readHeader, by simp, rfl⟩
  · exact ⟨.readFrame, by simp, rfl⟩
  · exact ⟨.skipFrame, by simp, rfl⟩
  · exact ⟨.seek, by simp, rfl⟩
  · exact ⟨.dclose, by simp, rfl⟩

/-- A DEC command issued to a DEC that has ended is a ProtocolViolation. -/
theorem step_of_decCode_of_ended {v : BitVec 64} {rest : List HostMove} (hs : s.dec.Ended)
    (hp : s.pending = .writeReg 0 v :: rest) (hlo : 0x10 ≤ v.toNat % 256) (hhi : v.toNat % 256 ≤ 0x14) :
    step s = .next (precheckDec .protocolViolation { s with pending := rest }) := by
  have hcode : (v.setWidth 8).toNat = v.toNat % 256 := BitVec.toNat_setWidth 8 v
  obtain ⟨i, hi, hdecode⟩ := decodeCommand_decCommands (hlo.trans_eq hcode.symm) (hcode.trans_le hhi)
  rw [step_of_command hp hdecode]
  exact exec_decCommand_of_ended hs hi

/-- Settles O40: a step is idle, a command or an access, and of the commands only the two resets move D_STATE then. -/
theorem faultedUntilReset : Obligations.FaultedUntilReset := by
  intro s t hs h hne
  have hkeeps : KeepsEnd s t := by
    rcases step_eq_next h with ⟨-, rfl⟩ | ⟨v, rest, i, hp, hdecode, hexec⟩ | ⟨m, rest, -, -, haccess⟩
    · exact ⟨rfl, rfl⟩
    · obtain ⟨hreset, hdreset⟩ := hne v rest hp
      refine execCommand_keepsEnd (s := { s with pending := rest }) hs (decodeCommand_space hdecode) ?_ ?_ hexec
      · rintro rfl
        exact hreset (toNat_of_decodeCommand hdecode rfl)
      · rintro rfl
        exact hdreset (toNat_of_decodeCommand hdecode rfl)
    · exact hostAccess_keepsEnd (s := { s with pending := rest }) haccess
  refine ⟨hkeeps.1, hkeeps.2, fun v rest hp hlo hhi => ?_⟩
  cases (step_of_decCode_of_ended hs hp hlo hhi).symm.trans h
  rfl

end Sys2Proof.Machine
end

section
/-! PROOFS. Reset and hazards (70_reset_and_hazards.md): what the resets leave, and the fault of an input cell that the host
never wrote. -/

namespace Sys2Proof.Machine

variable {s : State}

/-! ### Reset (70 R250 to R253) -/

theorem exec_dreset (s : State) : exec .dreset s = .next { s with dec := Decoder.reset } := rfl

theorem exec_ereset (s : State) : exec .ereset s = .next { s with enc := Encoder.reset } := rfl

/-- RESET leaves what no unit holds: the parameters, the attached stream and the host's side. -/
theorem exec_reset (s : State) :
    exec .reset s = .next { s with
      dec := Decoder.reset, enc := Encoder.reset, fu := FuncUnit.reset, pixin := [], fuIn := [], work := Work.reset } :=
  rfl

/-- Settles O42: each reset puts the unit's whole reset record in its place, whose fields are the rows of the table. -/
theorem resetCommands : Obligations.ResetCommands :=
  fun s => ⟨exec_dreset s, exec_ereset s, _, exec_reset s, rfl, rfl, rfl, rfl, rfl, rfl, rfl, rfl, rfl⟩

/-- NPIX_MAX and FU_MAX are in their ranges, whatever values they have, and no input holds anything. -/
theorem inputsInv_reset : InputsInv Params.config [] 0 [] [] where
  npix_pos := Nat.succ_pos _
  npix_le := Config.npixIndex.isLt
  fu_ge := Nat.le_add_left _ _
  dlen_lt := by decide
  dstream_wf := rfl
  dstream_full _ ha := absurd ha (Nat.not_lt_zero _)
  pixin_wf := rfl
  pixin_range _ hx := absurd hx List.not_mem_nil
  fuIn_wf := rfl
  fuIn_range _ hx := absurd hx List.not_mem_nil

/-- Settles O59: each unit's reset record meets that unit's part of the invariant. -/
theorem resetMeetsInvariant : Obligations.ResetMeetsInvariant :=
  State.inv_iff.mpr
    ⟨inputsInv_reset, Decoder.inv_reset, Encoder.inv_reset, FuncUnit.inv_reset, Work.inv_reset⟩

/-! ### Input cells the host never wrote (70 R265) -/

/-- A string read over an unwritten cell stops at one that is no higher. -/
theorem Memory.readList_of_unwritten {α : Type} {m : Memory α} {n a : Nat} (ha : a < n) (hm : Memory.read m a = none) :
    ∃ j, Memory.readList m 0 n = .error j ∧ Memory.read m j = none ∧ j ≤ a := by
  cases hread : Memory.readList m 0 n with
  | ok xs =>
    obtain ⟨hlen, hholds⟩ := Memory.readList_eq_ok.mp hread
    have hsome := hholds a (hlen ▸ ha)
    rw [Nat.zero_add, hm, List.getElem?_eq_getElem (hlen ▸ ha)] at hsome
    cases hsome
  | error j =>
    obtain ⟨hj, -, -, hbelow⟩ := Memory.readList_eq_error hread
    refine ⟨j, rfl, hj, Nat.not_lt.mp fun hlt => ?_⟩
    simpa [hm] using hbelow a (Nat.zero_le a) hlt

theorem readPixin_of_unwritten {n i : Nat} (hi : i < n) (h : Memory.read s.pixin i = none) :
    ∃ j, readPixin s n = .error (.fault (.unwrittenPixin j)) ∧ Memory.read s.pixin j = none ∧ j ≤ i := by
  obtain ⟨j, hread, hj⟩ := Memory.readList_of_unwritten hi h
  exact ⟨j, by rw [readPixin, hread]; rfl, hj⟩

theorem readFuIn_of_unwritten {n a : Nat} (ha : a < n) (h : Memory.read s.fuIn a = none) :
    ∃ j, readFuIn s n = .error (.fault (.unwrittenFuIn j)) ∧ Memory.read s.fuIn j = none ∧ j ≤ a := by
  obtain ⟨j, hread, hj⟩ := Memory.readList_of_unwritten ha h
  exact ⟨j, by rw [readFuIn, hread]; rfl, hj⟩

theorem execWriteFrame_of_pixin_fault {f : Fault} (hs : s.enc.state = 1#2) (hq : s.enc.quality ≠ 3#2)
    (hfit : s.enc.header.pixels ≤ s.params.npixMax) (h : readPixin s s.enc.header.pixels = .error (.fault f)) :
    execWriteFrame s = .fault f := by
  rw [execWriteFrame, if_neg (not_not.mpr hs), if_neg hq, if_neg (Nat.not_lt.mpr hfit), h]
  rfl

theorem fuPixels_of_fuIn_fault {f : Fault} (hfit : 3 * s.fu.inLen.toNat ≤ s.params.fuMax)
    (h : readFuIn s (3 * s.fu.inLen.toNat) = .error (.fault f)) : fuPixels s = .error (.fault f) := by
  rw [fuPixels, if_neg (Nat.not_lt.mpr hfit), h]
  rfl

theorem exec_rleEnc_of_fuIn_fault {i : Instr} {f : Fault} (hi : i ∈ [Instr.rleEnc8, .rleEnc16])
    (h : fuPixels s = .error (.fault f)) : exec i s = .fault f := by
  simp only [List.mem_cons, List.not_mem_nil, or_false] at hi
  rcases hi with rfl | rfl
  · change execRleEnc8 s = _
    rw [execRleEnc8, h]
    rfl
  · change execRleEnc16 s = _
    rw [execRleEnc16, h]
    rfl

theorem exec_rleDec_of_fuIn_fault {i : Instr} {f : Fault} (hi : i = .rleDec8 ∨ (i = .rleDec16 ∧ s.fu.inLen.toNat % 2 = 0))
    (hfit : s.fu.inLen.toNat ≤ s.params.fuMax) (h : readFuIn s s.fu.inLen.toNat = .error (.fault f)) :
    exec i s = .fault f := by
  rcases hi with rfl | ⟨rfl, heven⟩
  · change execRleDec8 s = _
    rw [execRleDec8, if_neg (Nat.not_lt.mpr hfit), h]
    rfl
  · change execRleDec16 s = _
    rw [execRleDec16, if_neg (Nat.not_lt.mpr hfit), if_neg (by omega), h]
    rfl

/-- Settles O52: past the checks each command reads its input from cell 0 up, and stops at the first hole. -/
theorem unwrittenInputFaults : Obligations.UnwrittenInputFaults := by
  refine ⟨fun s i hs hq hfit hi hnone => ?writeFrame, fun s i a hi hfit ha hnone => ?encode,
    fun s i a hi hfit ha hnone => ?decode⟩
  case writeFrame =>
    obtain ⟨j, hread, hj⟩ := readPixin_of_unwritten hi hnone
    exact ⟨j, execWriteFrame_of_pixin_fault hs hq hfit hread, hj⟩
  case encode =>
    obtain ⟨j, hread, hj⟩ := readFuIn_of_unwritten ha hnone
    exact ⟨j, exec_rleEnc_of_fuIn_fault hi (fuPixels_of_fuIn_fault hfit hread), hj⟩
  case decode =>
    obtain ⟨j, hread, hj⟩ := readFuIn_of_unwritten ha hnone
    exact ⟨j, exec_rleDec_of_fuIn_fault hi hfit hread, hj⟩

end Sys2Proof.Machine
end
